-- ==== Sys2Proof/Word.lean ====
section
/-! DEFINITION. The word types of the LZ4 frame decoder core.

Only what the spec treats as bits is a bit vector: wire fields, bytes, register contents (00_scope.md R9, R10).
Cursors, lengths and memory indices are natural numbers, since R10 says that no operation on them wraps (log 7). -/

namespace Sys2Proof

/-- One byte of IN, OUT, WIN or of the wire (30_encoding.md R90). -/
abbrev Byte := BitVec 8

/-- One 64-bit register of the block REG (10_state.md R44). -/
abbrev Word := BitVec 64

end Sys2Proof
end

