-- ==== Sys2Proof/Config.lean ====
section
/-! DEFINITION. What an implementation fixes and the free values: the parameters of 00_scope.md R4 to R8 and
20_memory.md R68, the free hash function, and the free bytes of memories and of undefined reads. -/

namespace Sys2Proof

/-- WINDOW, the size of the match window and of WIN, fixed (00_scope.md R7). -/
def windowSize : Nat := 65536

/-- The byte memories of 20_memory.md R60. -/
inductive Space
  | input
  | output
  | window
deriving DecidableEq, Repr

/-- Which function the validator computes (00_scope.md R8): the free parameter, or its informative instantiation
of 93_implementation_defined.md 2.1 (log 3). -/
inductive HashChoice
  | parameter
  | informative
deriving DecidableEq, Repr

/-- The parameter `xxh32` of 00_scope.md R8: a total pure function of the bytes of which nothing else is known (log 3). -/
opaque Config.xxh32 : List Byte → BitVec 32

/-- The free contents of a memory after reset number `epoch` (70_reset_and_hazards.md R301): byte `i` of `space`
until something writes it (log 4). -/
opaque Config.resetByte : Space → Nat → Nat → Byte

/-- The `n`-th draw of a value under no law: what a host read of OUT returns where 20_memory.md R66 and
44_host_interface.md R257 say "any value" (log 5). -/
opaque Config.drawByte : Nat → Byte

/-- The parameters an instance of the core fixes. They are held as plain data and no step changes them, so a
statement about every state is a statement about every instance (log 2). -/
structure Params where
  /-- LEN_MAX (00_scope.md R4). -/
  lenMax : Nat
  /-- IN_CAP (00_scope.md R5). -/
  inCap : Nat
  /-- OUT_CAP (00_scope.md R6). -/
  outCap : Nat
  /-- REG_BASE, the host address of REG (20_memory.md R68). -/
  regBase : Nat
  /-- IN_BASE (20_memory.md R68). -/
  inBase : Nat
  /-- OUT_BASE (20_memory.md R68). -/
  outBase : Nat
  /-- The choice of `xxh32` (00_scope.md R8). -/
  hash : HashChoice
deriving DecidableEq, Repr

/-- The size of the register space in bytes (20_memory.md R60). -/
def regSpaceSize : Nat := 256

/-- Two address ranges, each a base and a size, do not overlap (20_memory.md R68). -/
abbrev disjointRanges (a m b n : Nat) : Prop := a + m ≤ b ∨ b + n ≤ a

/-- The parameters are ones the spec admits: the bounds of 00_scope.md R4, R5 and R6, and the placement of
20_memory.md R68. The lower bound 19 on `lenMax` is the model's own (log 18). -/
abbrev Params.Ok (p : Params) : Prop :=
  19 ≤ p.lenMax ∧ p.lenMax ≤ 2 ^ 63 - 1 ∧
  11 ≤ p.inCap ∧ p.inCap ≤ p.lenMax ∧
  p.outCap ≤ p.lenMax ∧
  disjointRanges p.regBase regSpaceSize p.inBase p.inCap ∧
  disjointRanges p.regBase regSpaceSize p.outBase p.outCap ∧
  disjointRanges p.inBase p.inCap p.outBase p.outCap

/-- The instance `State.reset` stands for: LEN_MAX as 00_scope.md R4 gives it and, for the parameters the spec
leaves open, the conventions of 95_test_vectors.md (log 2, log 3). -/
def Params.reference : Params where
  lenMax := 2 ^ 63 - 1
  inCap := 2 ^ 63 - 1
  outCap := 2 ^ 63 - 1
  regBase := 0
  inBase := 2 ^ 64
  outBase := 2 ^ 65
  hash := .informative

end Sys2Proof
end

