-- ==== Sys2Proof/Syntax.lean ====
section
/-! DEFINITION. What the core executes, as data: the wire elements of 30_encoding.md and the host commands of
44_host_interface.md, one constructor of `Instr` per row of spec/opcode_table.json. -/

namespace Sys2Proof

/-- The registers of the block REG (10_state.md R44). `reserved k` is the one at offset 0x50 + 8k. -/
inductive Reg
  | ctrl
  | status
  | errinfo
  | errPos
  | inLen
  | inPos
  | blkPos
  | outLen
  | hdr
  | contentSize
  | reserved (k : Fin 22)
deriving DecidableEq, Repr

/-- The instructions of the core. The first nineteen are wire elements, run by the engine; the rest are
host commands. -/
inductive Instr
  /-- MAGIC: the frame's first field (42_frame_header.md R181). -/
  | magic (m : BitVec 32)
  /-- FLG: the frame's flag byte, legal or not (42_frame_header.md R183). -/
  | flg (b : Byte)
  /-- BD: the block descriptor byte, legal or not (42_frame_header.md R185). -/
  | bd (b : Byte)
  /-- CSIZE: the content size (42_frame_header.md R188). -/
  | csize (v : Word)
  /-- DICTID: the dictionary ID, always rejected (42_frame_header.md R189). -/
  | dictid (id : BitVec 32)
  /-- HC: the header checksum byte (42_frame_header.md R190). -/
  | hc (c : Byte)
  /-- ENDMARK: the block mark 0 (43_frame_blocks.md R210). -/
  | endmark
  /-- BLOCKMARK with bit 31 clear: a compressed block of `size` bytes (43_frame_blocks.md R212). -/
  | bmarkC (size : BitVec 31)
  /-- BLOCKMARK with bit 31 set: a stored block of `size` bytes (43_frame_blocks.md R212). -/
  | bmarkS (size : BitVec 31)
  /-- BCHK: a block's checksum (43_frame_blocks.md R214). -/
  | bchk (c : BitVec 32)
  /-- The payload of a stored block (43_frame_blocks.md R215). -/
  | payloadS
  /-- The payload of a compressed block: the block decoder's next step (43_frame_blocks.md R216, log 10). -/
  | payloadC
  /-- CCHK: the content checksum (43_frame_blocks.md R221). -/
  | cchk (c : BitVec 32)
  /-- TOKEN: literal-length nibble and match-length nibble (41_block_decoder.md R142). -/
  | token (lit mlb : BitVec 4)
  /-- One literal-length extension byte (41_block_decoder.md R143). -/
  | litext (b : Byte)
  /-- The literal run of the current sequence (41_block_decoder.md R144). -/
  | literals
  /-- OFFSET: the match offset (41_block_decoder.md R145). -/
  | offset (o : BitVec 16)
  /-- One match-length extension byte (41_block_decoder.md R146). -/
  | mlext (b : Byte)
  /-- The match copy, which no byte encodes (41_block_decoder.md R147). -/
  | matchcopy
  /-- A write of CTRL with START set (44_host_interface.md R250, R251). -/
  | start (v : Word)
  /-- A write of CTRL with START clear (44_host_interface.md R252). -/
  | ctrlW (v : Word)
  /-- A write of IN_LEN (44_host_interface.md R253). -/
  | inLenW (v : Word)
  /-- A write of one byte of IN (44_host_interface.md R254). -/
  | inW (i : Nat) (b : Byte)
  /-- A write of one byte of OUT (44_host_interface.md R255). -/
  | outW (i : Nat) (b : Byte)
  /-- A read of a register (44_host_interface.md R256). -/
  | regR (r : Reg)
  /-- A read of one byte of OUT (44_host_interface.md R257). -/
  | outR (i : Nat)
  /-- A write of a read-only or reserved register (44_host_interface.md R258). -/
  | roW (r : Reg) (v : Word)
  /-- The reset input (44_host_interface.md R259). -/
  | reset
deriving DecidableEq, Repr

/-- What the bytes at a cursor are: the context that 30_encoding.md R105 says decides an element. -/
inductive Slot
  | magic
  | flg
  | bd
  | csize
  | dictid
  | hc
  | blockmark
  | bchk
  | payloadS
  | payloadC
  | cchk
  | token
  | litext
  | literals
  | offset
  | mlext
  | matchcopy
deriving DecidableEq, Repr

/-- One action of the host on the core's host port: a read or a write of `width` bytes at a host address, or the
reset input (20_memory.md R60, R64, R68; 44_host_interface.md R259; log 20). -/
inductive Access
  | read (addr width : Nat)
  | write (addr width : Nat) (data : Word)
  | reset
deriving DecidableEq, Repr

/-- Where a host address lies (20_memory.md R68). -/
inductive Place
  | reg (offset : Nat)
  | input (index : Nat)
  | output (index : Nat)
deriving DecidableEq, Repr

/-- A host action that the core answers: a row of the table, or a read of IN, which has no row (log 9). -/
inductive HostOp
  | instr (i : Instr)
  | inputRead (index : Nat)
deriving DecidableEq, Repr

/-- An encoded instruction: the bytes of a wire element in its context, or the host's access. -/
inductive Code
  | wire (k : Slot) (bytes : List Byte)
  | bus (a : Access)
deriving DecidableEq, Repr

/-- Whose turn it is next (00_scope.md R13; log 1). -/
inductive Turn
  | engine
  | host (a : Access)
deriving DecidableEq, Repr

end Sys2Proof
end

