-- ==== Sys2Proof/WellFormed.lean ====
section
/-! DEFINITION. Which instructions have an encoding of their own.

An illegal field value (a wrong magic, a set reserved bit) is not ill-formed: the core executes it, by raising its
error (30_encoding.md R106). Ill-formed is only what no bytes and no host access of 20_memory.md R64 spell. -/

namespace Sys2Proof

/-- The registers that ignore writes: all but CTRL and IN_LEN (44_host_interface.md R258). -/
def Reg.ignoresWrites : Reg → Bool
  | .ctrl => false
  | .inLen => false
  | _ => true

/-- The instruction has an encoding on an instance with parameters `p`:
a compressed block has a size (30_encoding.md R97), START and CTRL writes differ in bit 0 (10_state.md R45),
indices lie in their space (20_memory.md R64), and a write that is ignored goes to a register that ignores it. -/
def Instr.wellFormed (p : Params) : Instr → Bool
  | .bmarkC size => size != 0
  | .start v => v.getLsbD 0
  | .ctrlW v => !v.getLsbD 0
  | .inW i _ => decide (i < p.inCap)
  | .outW i _ => decide (i < p.outCap)
  | .outR i => decide (i < p.outCap)
  | .roW r _ => r.ignoresWrites
  | .magic _ => true
  | .flg _ => true
  | .bd _ => true
  | .csize _ => true
  | .dictid _ => true
  | .hc _ => true
  | .endmark => true
  | .bmarkS _ => true
  | .bchk _ => true
  | .payloadS => true
  | .payloadC => true
  | .cchk _ => true
  | .token _ _ => true
  | .litext _ => true
  | .literals => true
  | .offset _ => true
  | .mlext _ => true
  | .matchcopy => true
  | .inLenW _ => true
  | .regR _ => true
  | .reset => true

end Sys2Proof
end

