-- ==== Sys2Proof/Decode.lean ====
section
/-! DEFINITION. Decoding and encoding: from the bytes of a wire element in its context, or a host access, to an
instruction, and back (30_encoding.md, 20_memory.md R61 to R64 and R68, 10_state.md R44). -/

namespace Sys2Proof

/-- Why a code is no instruction. -/
inductive Reject
  /-- The element's bytes are fewer than its width (40_reader.md R120). -/
  | shortElement (k : Slot)
  /-- A REG access that is not 8 bytes wide (20_memory.md R64). -/
  | regWidth
  /-- A REG access at an offset that is not a multiple of 8 (20_memory.md R64). -/
  | regAlign
  /-- An IN or OUT access that is not one byte wide (20_memory.md R64). -/
  | byteWidth
  /-- An address in none of the host's three spaces (20_memory.md R64, R68). -/
  | unmapped
  /-- A read of IN: an access the core answers that has no row in the table (log 9). -/
  | inputRead
deriving DecidableEq, Repr

/-! ## Bytes -/

/-- The little-endian value of a byte string: MemRead of 00_scope.md R11 (20_memory.md R61). -/
def leNat : List Byte → Nat
  | [] => 0
  | b :: bs => b.toNat + 256 * leNat bs

/-- The `n` low bytes of `v`, least significant first (20_memory.md R61). -/
def leBytes : Nat → Nat → List Byte
  | 0, _ => []
  | n + 1, v => BitVec.ofNat 8 v :: leBytes n (v / 256)

/-! ## Registers -/

/-- A register's offset (10_state.md R44). -/
def Reg.offset : Reg → Nat
  | .ctrl => 0x00
  | .status => 0x08
  | .errinfo => 0x10
  | .errPos => 0x18
  | .inLen => 0x20
  | .inPos => 0x28
  | .blkPos => 0x30
  | .outLen => 0x38
  | .hdr => 0x40
  | .contentSize => 0x48
  | .reserved k => 0x50 + 8 * k.val

/-- The register at a multiple of 8 below 0x100, and none elsewhere (10_state.md R44, 20_memory.md R64). -/
def Reg.ofOffset? (off : Nat) : Option Reg :=
  if off % 8 ≠ 0 then none else
  match off / 8 with
  | 0 => some .ctrl
  | 1 => some .status
  | 2 => some .errinfo
  | 3 => some .errPos
  | 4 => some .inLen
  | 5 => some .inPos
  | 6 => some .blkPos
  | 7 => some .outLen
  | 8 => some .hdr
  | 9 => some .contentSize
  | k + 10 => if h : k < 22 then some (.reserved ⟨k, h⟩) else none

/-! ## Wire elements -/

/-- The bytes an element's own fields take (30_encoding.md R90, R101 to R104). A literal run, a payload and a match
copy have no field: their bytes are data the instruction moves. -/
def Slot.width : Slot → Nat
  | .magic => 4
  | .flg => 1
  | .bd => 1
  | .csize => 8
  | .dictid => 4
  | .hc => 1
  | .blockmark => 4
  | .bchk => 4
  | .payloadS => 0
  | .payloadC => 0
  | .cchk => 4
  | .token => 1
  | .litext => 1
  | .literals => 0
  | .offset => 2
  | .mlext => 1
  | .matchcopy => 0

/-- A block mark's instruction (30_encoding.md R97): 0 is the EndMark, bit 31 tells stored from compressed. -/
def decodeMark (m : BitVec 32) : Instr :=
  if m = 0 then .endmark
  else if m.getLsbD 31 then .bmarkS (m.extractLsb' 0 31)
  else .bmarkC (m.extractLsb' 0 31)

/-- The element whose field, read little-endian, is `v`. -/
def decodeField (k : Slot) (v : Nat) : Instr :=
  match k with
  | .magic => .magic (BitVec.ofNat 32 v)
  | .flg => .flg (BitVec.ofNat 8 v)
  | .bd => .bd (BitVec.ofNat 8 v)
  | .csize => .csize (BitVec.ofNat 64 v)
  | .dictid => .dictid (BitVec.ofNat 32 v)
  | .hc => .hc (BitVec.ofNat 8 v)
  | .blockmark => decodeMark (BitVec.ofNat 32 v)
  | .bchk => .bchk (BitVec.ofNat 32 v)
  | .payloadS => .payloadS
  | .payloadC => .payloadC
  | .cchk => .cchk (BitVec.ofNat 32 v)
  | .token => .token ((BitVec.ofNat 8 v).extractLsb' 4 4) ((BitVec.ofNat 8 v).extractLsb' 0 4)
  | .litext => .litext (BitVec.ofNat 8 v)
  | .literals => .literals
  | .offset => .offset (BitVec.ofNat 16 v)
  | .mlext => .mlext (BitVec.ofNat 8 v)
  | .matchcopy => .matchcopy

/-- Decode one wire element from the front of a byte string, with the rest of the string. -/
def decodeWire (k : Slot) (bytes : List Byte) : Except Reject (Instr × List Byte) :=
  if bytes.length < k.width then .error (.shortElement k)
  else .ok (decodeField k (leNat (bytes.take k.width)), bytes.drop k.width)

/-! ## Host accesses -/

/-- Where a host address lies, on an instance with parameters `p` (20_memory.md R68). -/
def resolve (p : Params) (addr : Nat) : Option Place :=
  if p.regBase ≤ addr ∧ addr < p.regBase + regSpaceSize then some (.reg (addr - p.regBase))
  else if p.inBase ≤ addr ∧ addr < p.inBase + p.inCap then some (.input (addr - p.inBase))
  else if p.outBase ≤ addr ∧ addr < p.outBase + p.outCap then some (.output (addr - p.outBase))
  else none

/-- The command a write of `v` to register `r` is (44_host_interface.md R250, R252, R253, R258). -/
def decodeRegWrite (r : Reg) (v : Word) : Instr :=
  match r with
  | .ctrl => if v.getLsbD 0 then .start v else .ctrlW v
  | .inLen => .inLenW v
  | r => .roW r v

/-- Decode a host access; what 20_memory.md R64 leaves outside the spec is rejected by name. -/
def decodeAccess (p : Params) : Access → Except Reject HostOp
  | .reset => .ok (.instr .reset)
  | .read addr width =>
    match resolve p addr with
    | none => .error .unmapped
    | some (.reg off) =>
      if width ≠ 8 then .error .regWidth
      else match Reg.ofOffset? off with
        | none => .error .regAlign
        | some r => .ok (.instr (.regR r))
    | some (.input i) => if width ≠ 1 then .error .byteWidth else .ok (.inputRead i)
    | some (.output i) => if width ≠ 1 then .error .byteWidth else .ok (.instr (.outR i))
  | .write addr width data =>
    match resolve p addr with
    | none => .error .unmapped
    | some (.reg off) =>
      if width ≠ 8 then .error .regWidth
      else match Reg.ofOffset? off with
        | none => .error .regAlign
        | some r => .ok (.instr (decodeRegWrite r data))
    | some (.input i) =>
      if width ≠ 1 then .error .byteWidth else .ok (.instr (.inW i (data.extractLsb' 0 8)))
    | some (.output i) =>
      if width ≠ 1 then .error .byteWidth else .ok (.instr (.outW i (data.extractLsb' 0 8)))

/-- Decode any code: total, and rejecting by name. -/
def decode (p : Params) : Code → Except Reject Instr
  | .wire k bytes =>
    match decodeWire k bytes with
    | .ok (i, _) => .ok i
    | .error r => .error r
  | .bus a =>
    match decodeAccess p a with
    | .ok (.instr i) => .ok i
    | .ok (.inputRead _) => .error .inputRead
    | .error r => .error r

/-! ## The encoder -/

/-- The code of a wire element whose field is the number `v`. -/
def wireCode (k : Slot) (v : Nat) : Code := .wire k (leBytes k.width v)

/-- The code of a register write (20_memory.md R64, R68). -/
def regWriteCode (p : Params) (r : Reg) (v : Word) : Code := .bus (.write (p.regBase + r.offset) 8 v)

/-- The words of an instruction, from the encoding tables of 30_encoding.md and 10_state.md R44. -/
def encode (p : Params) : Instr → Code
  | .magic m => wireCode .magic m.toNat
  | .flg b => wireCode .flg b.toNat
  | .bd b => wireCode .bd b.toNat
  | .csize v => wireCode .csize v.toNat
  | .dictid id => wireCode .dictid id.toNat
  | .hc c => wireCode .hc c.toNat
  | .endmark => wireCode .blockmark 0
  | .bmarkC size => wireCode .blockmark size.toNat
  | .bmarkS size => wireCode .blockmark (2 ^ 31 + size.toNat)
  | .bchk c => wireCode .bchk c.toNat
  | .payloadS => wireCode .payloadS 0
  | .payloadC => wireCode .payloadC 0
  | .cchk c => wireCode .cchk c.toNat
  | .token lit mlb => wireCode .token (16 * lit.toNat + mlb.toNat)
  | .litext b => wireCode .litext b.toNat
  | .literals => wireCode .literals 0
  | .offset o => wireCode .offset o.toNat
  | .mlext b => wireCode .mlext b.toNat
  | .matchcopy => wireCode .matchcopy 0
  | .start v => regWriteCode p .ctrl v
  | .ctrlW v => regWriteCode p .ctrl v
  | .inLenW v => regWriteCode p .inLen v
  | .inW i b => .bus (.write (p.inBase + i) 1 (b.setWidth 64))
  | .outW i b => .bus (.write (p.outBase + i) 1 (b.setWidth 64))
  | .regR r => .bus (.read (p.regBase + r.offset) 8)
  | .outR i => .bus (.read (p.outBase + i) 1)
  | .roW r v => regWriteCode p r v
  | .reset => .bus .reset

/-! ## Lengths (30_encoding.md R108, R110) -/

/-- The nibble of a length's encoding (30_encoding.md R108). -/
def lengthNibble (n : Nat) : BitVec 4 := if n < 15 then BitVec.ofNat 4 n else 15

/-- The extension bytes of a length's encoding (30_encoding.md R108). -/
def lengthExtension (n : Nat) : List Byte :=
  if n < 15 then []
  else List.replicate ((n - 15) / 255) 0xFF ++ [BitVec.ofNat 8 ((n - 15) % 255)]

/-- The length a nibble and extension bytes assemble to: every byte is added (30_encoding.md R102, R103). -/
def assembleLength (nib : BitVec 4) (ext : List Byte) : Nat :=
  nib.toNat + (ext.map BitVec.toNat).sum

/-- The extension bytes have the shape of 30_encoding.md R102: none below nibble 15; with nibble 15, bytes 0xFF
and then one byte below 0xFF. -/
def lengthShape (nib : BitVec 4) (ext : List Byte) : Bool :=
  if nib.toNat < 15 then ext.isEmpty
  else match ext.getLast? with
    | none => false
    | some e => decide (e.toNat < 255) && (ext.dropLast).all (fun x => x == 0xFF)

/-! ## Words of the opcode table without their context (log 15) -/

/-- The code a bare word of `nbits` bits stands for, where the table alone decides it: the first row of that width,
among the rows with fixed bits, that the word fits; else the only row of that width. -/
def tableCode (nbits w : Nat) : Option Code :=
  match nbits with
  | 0 => some (wireCode .matchcopy 0)
  | 8 =>
    if w &&& 0xC2 = 0x40 then some (wireCode .flg w)
    else if w &&& 0x8F = 0 then some (wireCode .bd w)
    else some (regWriteCode Params.reference .ctrl (BitVec.ofNat 64 w))
  | 16 => some (wireCode .offset w)
  | 32 => if w = 0x184D2204 then some (wireCode .magic w) else some (wireCode .blockmark w)
  | 64 => some (wireCode .csize w)
  | _ => none

/-- The instruction the decoder reads from a bare word of the opcode table (log 15). -/
def decodeTableWord (nbits w : Nat) : Option Instr :=
  match tableCode nbits w with
  | none => none
  | some c => (decode Params.reference c).toOption

end Sys2Proof
end

