-- ==== Sys2Proof/Machine/State.lean ====
section
/-! DEFINITION. The state of the LZ4 frame decoder core (10_state.md), as plain data, and the state after reset
(70_reset_and_hazards.md R300). -/

namespace Sys2Proof.Machine

/-- The frame FSM's states (10_state.md R21); codes 14 and 15 are never produced and have no name here. -/
inductive Fsm
  | idle
  | expectMagic
  | expectFlg
  | expectBd
  | expectCsize
  | expectDictid
  | expectHc
  | expectBlockmark
  | expectBlockchk
  | expectBlock
  | endFrame
  | expectContentchk
  | done
  | error
deriving DecidableEq, Repr

/-- The block decoder's sub-states (10_state.md R22). -/
inductive Bsub
  | none
  | token
  | litext
  | litcopy
  | offset
  | matchext
  | matchcopy
  | stored
deriving DecidableEq, Repr

/-- The error kinds (60_exceptions.md R270). -/
inductive ErrKind
  | none
  | truncated
  | corrupted
  | checksumMismatch
  | unsupportedFeature
deriving DecidableEq, Repr

/-- The error causes (60_exceptions.md R271). -/
inductive Cause
  | none
  | truncPrelude
  | truncRead
  | truncCsize
  | truncBlock
  | truncCchk
  | truncBlockRead
  | badMagic
  | badFlgVersion
  | badFlgReserved
  | badBdReserved
  | badHc
  | badBlockChecksum
  | badOffsetZero
  | badOffsetRange
  | csizeMismatch
  | contentChecksum
  | dictidPresent
  | csizeRange
  | litlenOverflow
  | matchlenOverflow
  | outCapacity
deriving DecidableEq, Repr

/-- Why the model stops where the spec describes no step. -/
inductive Fault
  /-- Raised by the engine's turn and by `payload.c` in a state whose `fsm` is EXPECT_BLOCK while `bsub` names no
  step of the wanted kind; no run reaches one (log 11). Safe: the spec gives such a state no step. -/
  | noBlockStep
deriving DecidableEq, Repr

/-- What the model refuses. -/
inductive Refusal
  /-- An instruction without a meaning yet, by its mnemonic. Safe. -/
  | notModelled (mnemonic : String)
  /-- A host access to REG that is not 8 bytes wide, raised when the access is decoded (20_memory.md R64). Safe. -/
  | regAccessWidth
  /-- A host access to REG at an offset that is not a multiple of 8, raised when the access is decoded
  (20_memory.md R64). Safe. -/
  | regAccessAlign
  /-- A host access to IN or OUT that is not one byte wide, raised when the access is decoded (20_memory.md R64). Safe. -/
  | byteAccessWidth
  /-- A host access at an address in none of REG, IN and OUT, raised when the access is decoded
  (20_memory.md R64, R68). Safe. -/
  | unmappedAddress
  /-- A host access to IN at an index not below IN_CAP, raised by `in.w` and by a read of IN (20_memory.md R64). Safe. -/
  | inputIndex
  /-- A host access to OUT at an index not below OUT_CAP, raised by `out.w` and `out.r` (20_memory.md R64). Safe. -/
  | outputIndex
deriving DecidableEq, Repr

/-- A byte memory: the bytes written since reset, by rising address. A byte not listed holds the free value
`Config.resetByte` (70_reset_and_hazards.md R301; log 4). -/
abbrev Mem := List Host.Cell

/-- Everything 10_state.md R20 lists, the instance's parameters, and the model's own fields (the last four). -/
structure State where
  /-- The parameters of the instance; no step writes them (00_scope.md R4 to R8, 20_memory.md R68; log 2). -/
  cfg : Params
  /-- The frame FSM's state (10_state.md R21). -/
  fsm : Fsm
  /-- The block decoder's sub-state (10_state.md R22). -/
  bsub : Bsub
  /-- The frame cursor, the core's program counter (10_state.md R23). -/
  pos : Nat
  /-- The block cursor (10_state.md R24). -/
  bpos : Nat
  /-- The length of the frame in IN (10_state.md R38). -/
  inLen : Nat
  /-- Start of the current payload in IN (10_state.md R25). -/
  blkStart : Nat
  /-- End of the current payload in IN (10_state.md R25). -/
  blkEnd : Nat
  /-- Bit 31 of the current block mark (10_state.md R26). -/
  blkStored : Bool
  /-- `out_len` when the current block was framed (10_state.md R27). -/
  blkOutBase : Nat
  /-- The lowest output index a match of the current block may read (10_state.md R27). -/
  winBase : Nat
  /-- The literal-length accumulator (10_state.md R28). -/
  litLen : Nat
  /-- The match-length accumulator (10_state.md R29). -/
  matchLen : Nat
  /-- The token's match-length nibble (10_state.md R30). -/
  mlb : BitVec 4
  /-- The current match offset (10_state.md R31). -/
  offset : BitVec 16
  /-- The number of bytes written to OUT in the current run (10_state.md R32). -/
  outLen : Nat
  /-- FLG as read from the wire (10_state.md R33). -/
  flg : Byte
  /-- BD as read from the wire (10_state.md R34). -/
  bd : Byte
  /-- The content size as read from the wire (10_state.md R35). -/
  csize : Word
  /-- The error's kind (10_state.md R36). -/
  errKind : ErrKind
  /-- The error's cause (10_state.md R36). -/
  errCause : Cause
  /-- The error's input offset (10_state.md R36). -/
  errPos : Nat
  /-- The completion interrupt's enable (10_state.md R37). -/
  irqEn : Bool
  /-- IN (10_state.md R39). -/
  inMem : Mem
  /-- OUT (10_state.md R40). -/
  outMem : Mem
  /-- WIN (10_state.md R41). -/
  winMem : Mem
  /-- The turns to come; when there is none left, every turn is the engine's (00_scope.md R13; log 1). -/
  agenda : List Turn
  /-- What the last host read returned (log 6). -/
  hostData : Word
  /-- How many free bytes host reads of OUT have drawn (log 5). -/
  draws : Nat
  /-- How many resets there have been, which names the memories' free contents (log 4). -/
  epoch : Nat
deriving DecidableEq, Repr

/-- The outcome of a step or a meaning. -/
abbrev Result := Host.Outcome State Fault Refusal

/-- The state after reset on an instance with parameters `p` (70_reset_and_hazards.md R300, R301). -/
def State.resetWith (p : Params) : State where
  cfg := p
  fsm := .idle
  bsub := .none
  pos := 0
  bpos := 0
  inLen := 0
  blkStart := 0
  blkEnd := 0
  blkStored := false
  blkOutBase := 0
  winBase := 0
  litLen := 0
  matchLen := 0
  mlb := 0
  offset := 0
  outLen := 0
  flg := 0
  bd := 0
  csize := 0
  errKind := .none
  errCause := .none
  errPos := 0
  irqEn := false
  inMem := []
  outMem := []
  winMem := []
  agenda := []
  hostData := 0
  draws := 0
  epoch := 0

/-- The machine right after reset (70_reset_and_hazards.md R300), on the reference instance (log 2). -/
def State.reset : State := State.resetWith Params.reference

end Sys2Proof.Machine
end

