-- ==== Sys2Proof/Machine/Flags.lean ====
section
/-! DEFINITION. The derived flags: the header flags F.name (10_state.md R33), the derived status (R43), and the
numeric codes of the FSM, the sub-FSM, the kinds and the causes (R21, R22, 60_exceptions.md R270, R271). -/

namespace Sys2Proof.Machine

/-! ## Header flags (10_state.md R33) -/

/-- F.dict_id_present, bit 0. -/
def dictIdPresent (flg : Byte) : Bool := flg.getLsbD 0

/-- The reserved bit, bit 1. -/
def flgReserved (flg : Byte) : Bool := flg.getLsbD 1

/-- F.content_checksum_present, bit 2. -/
def contentChecksumPresent (flg : Byte) : Bool := flg.getLsbD 2

/-- F.content_size_present, bit 3. -/
def contentSizePresent (flg : Byte) : Bool := flg.getLsbD 3

/-- F.block_checksum_present, bit 4. -/
def blockChecksumPresent (flg : Byte) : Bool := flg.getLsbD 4

/-- F.independent_blocks, bit 5. -/
def independentBlocks (flg : Byte) : Bool := flg.getLsbD 5

/-- F.version, bits 7:6. -/
def flgVersion (flg : Byte) : BitVec 2 := flg.extractLsb' 6 2

/-- The reserved bits of BD are not all 0 (42_frame_header.md R185). -/
def bdReserved (bd : Byte) : Bool := (bd &&& 0x8F) != 0

/-! ## Derived status (10_state.md R43) -/

/-- BUSY. -/
def busy (s : State) : Bool :=
  match s.fsm with
  | .idle => false
  | .done => false
  | .error => false
  | .expectMagic => true
  | .expectFlg => true
  | .expectBd => true
  | .expectCsize => true
  | .expectDictid => true
  | .expectHc => true
  | .expectBlockmark => true
  | .expectBlockchk => true
  | .expectBlock => true
  | .endFrame => true
  | .expectContentchk => true

/-- DONE. -/
def isDone (s : State) : Bool := s.fsm == .done

/-- ERROR. -/
def isError (s : State) : Bool := s.fsm == .error

/-- RESULT_VALID. -/
def resultValid (s : State) : Bool := isDone s || (isError s && s.errKind == .checksumMismatch)

/-- IRQ, the level of the interrupt line (60_exceptions.md R279; log 23). -/
def irq (s : State) : Bool := s.irqEn && (isDone s || isError s)

/-! ## Codes -/

/-- The code of an FSM state (10_state.md R21). -/
def fsmCode : Fsm → Nat
  | .idle => 0
  | .expectMagic => 1
  | .expectFlg => 2
  | .expectBd => 3
  | .expectCsize => 4
  | .expectDictid => 5
  | .expectHc => 6
  | .expectBlockmark => 7
  | .expectBlockchk => 8
  | .expectBlock => 9
  | .endFrame => 10
  | .expectContentchk => 11
  | .done => 12
  | .error => 13

/-- The code of a sub-state (10_state.md R22). -/
def bsubCode : Bsub → Nat
  | .none => 0
  | .token => 1
  | .litext => 2
  | .litcopy => 3
  | .offset => 4
  | .matchext => 5
  | .matchcopy => 6
  | .stored => 7

/-- The code of an error kind (60_exceptions.md R270). -/
def kindCode : ErrKind → Nat
  | .none => 0
  | .truncated => 1
  | .corrupted => 2
  | .checksumMismatch => 3
  | .unsupportedFeature => 4

/-- The code of an error cause (60_exceptions.md R271). -/
def causeCode : Cause → Nat
  | .none => 0x00
  | .truncPrelude => 0x01
  | .truncRead => 0x02
  | .truncCsize => 0x03
  | .truncBlock => 0x04
  | .truncCchk => 0x05
  | .truncBlockRead => 0x06
  | .badMagic => 0x10
  | .badFlgVersion => 0x11
  | .badFlgReserved => 0x12
  | .badBdReserved => 0x13
  | .badHc => 0x14
  | .badBlockChecksum => 0x15
  | .badOffsetZero => 0x16
  | .badOffsetRange => 0x17
  | .csizeMismatch => 0x18
  | .contentChecksum => 0x20
  | .dictidPresent => 0x30
  | .csizeRange => 0x31
  | .litlenOverflow => 0x32
  | .matchlenOverflow => 0x33
  | .outCapacity => 0x34

end Sys2Proof.Machine
end

