-- ==== Sys2Proof/Machine/Ops.lean ====
section
/-! DEFINITION. The operations every meaning is built from: the byte memories, Append (00_scope.md R11), error entry
(60_exceptions.md R272) with START as the only way out of it (R281), and the end of a block (41_block_decoder.md R148). -/

namespace Sys2Proof.Machine

/-! ## Byte memories (log 4) -/

/-- The listed byte at an address, if any. -/
def memGet : Mem → Nat → Option Byte
  | [], _ => none
  | (a, b) :: m, x => if x = a then some b else memGet m x

/-- Write one byte, keeping addresses rising. -/
def memSet : Mem → Nat → Byte → Mem
  | [], x, v => [(x, v)]
  | (a, b) :: m, x, v =>
    if x < a then (x, v) :: (a, b) :: m
    else if x = a then (x, v) :: m
    else (a, b) :: memSet m x v

/-- The canonical form: addresses strictly rise. An unlisted byte reads as a free value, which no listed byte is
known to equal, so no entry is redundant (log 4). -/
def memWf : Mem → Bool
  | [] => true
  | [_] => true
  | (a, _) :: (b, c) :: m => decide (a < b) && memWf ((b, c) :: m)

/-- Every listed address lies below `n`. -/
def memBelow (n : Nat) (m : Mem) : Bool := m.all (fun c => decide (c.1 < n))

/-- IN[i] (00_scope.md R11). -/
def inByte (s : State) (i : Nat) : Byte := (memGet s.inMem i).getD (Config.resetByte .input s.epoch i)

/-- OUT[i] (00_scope.md R11). -/
def outByte (s : State) (i : Nat) : Byte := (memGet s.outMem i).getD (Config.resetByte .output s.epoch i)

/-- WIN[i] (00_scope.md R11). -/
def winByte (s : State) (i : Nat) : Byte := (memGet s.winMem i).getD (Config.resetByte .window s.epoch i)

/-- The byte string IN[a..b) (00_scope.md R11). -/
def inBytes (s : State) (a b : Nat) : List Byte := (List.range' a (b - a)).map (inByte s)

/-- The byte string OUT[a..b) (00_scope.md R11). -/
def outBytes (s : State) (a b : Nat) : List Byte := (List.range' a (b - a)).map (outByte s)

/-! ## Append (00_scope.md R11, 41_block_decoder.md R153) -/

/-- Append(b): the byte goes to OUT and to WIN, then `out_len` advances. -/
def appendByte (b : Byte) (s : State) : State :=
  { s with
    outMem := memSet s.outMem s.outLen b
    winMem := memSet s.winMem (s.outLen % windowSize) b
    outLen := s.outLen + 1 }

/-- Append each byte of a string, in order. -/
def appendBytes : List Byte → State → State
  | [], s => s
  | b :: bs, s => appendBytes bs (appendByte b s)

/-- The index in WIN of a match's next source byte, from the current `out_len` (41_block_decoder.md R147). -/
def matchSource (s : State) : Nat := (s.outLen - s.offset.toNat) % windowSize

/-- Copy `n` bytes of a match, one at a time, each source index taken from the current `out_len`
(41_block_decoder.md R147, 70_reset_and_hazards.md R305). -/
def copyMatch : Nat → State → State
  | 0, s => s
  | n + 1, s => copyMatch n (appendByte (winByte s (matchSource s)) s)

/-! ## Errors (60_exceptions.md) -/

/-- A cause's kind (60_exceptions.md R271). -/
def causeKind : Cause → ErrKind
  | .none => .none
  | .truncPrelude => .truncated
  | .truncRead => .truncated
  | .truncCsize => .truncated
  | .truncBlock => .truncated
  | .truncCchk => .truncated
  | .truncBlockRead => .truncated
  | .badMagic => .corrupted
  | .badFlgVersion => .corrupted
  | .badFlgReserved => .corrupted
  | .badBdReserved => .corrupted
  | .badHc => .corrupted
  | .badBlockChecksum => .corrupted
  | .badOffsetZero => .corrupted
  | .badOffsetRange => .corrupted
  | .csizeMismatch => .corrupted
  | .contentChecksum => .checksumMismatch
  | .dictidPresent => .unsupportedFeature
  | .csizeRange => .unsupportedFeature
  | .litlenOverflow => .unsupportedFeature
  | .matchlenOverflow => .unsupportedFeature
  | .outCapacity => .unsupportedFeature

/-- ErrPos(cause): where the failing element starts (60_exceptions.md R271, R273). -/
def errPosOf (c : Cause) (s : State) : Nat :=
  match c with
  | .none => 0
  | .truncPrelude => 0
  | .truncBlockRead => s.bpos
  | .badOffsetZero => s.bpos
  | .badOffsetRange => s.bpos
  | .litlenOverflow => s.bpos
  | .matchlenOverflow => s.bpos
  | .outCapacity => s.bpos
  | .truncRead => s.pos
  | .truncCsize => s.pos
  | .truncBlock => s.pos
  | .truncCchk => s.pos
  | .badMagic => s.pos
  | .badFlgVersion => s.pos
  | .badFlgReserved => s.pos
  | .badBdReserved => s.pos
  | .badHc => s.pos
  | .badBlockChecksum => s.pos
  | .csizeMismatch => s.pos
  | .contentChecksum => s.pos
  | .dictidPresent => s.pos
  | .csizeRange => s.pos

/-- Error entry (60_exceptions.md R272): the FSM stops in ERROR and the record is written; nothing else changes. -/
def errorEntry (c : Cause) (s : State) : State :=
  { s with
    fsm := .error
    bsub := .none
    errKind := causeKind c
    errCause := c
    errPos := errPosOf c s }

/-- `raise Error(kind, cause)` (00_scope.md R11): the step ends in the ERROR state. -/
def raise (c : Cause) (s : State) : Result := .next (errorEntry c s)

/-- What START clears (44_host_interface.md R250): the only way a run leaves DONE or ERROR but for reset
(60_exceptions.md R281). -/
def clearRun (s : State) : State :=
  { s with
    fsm := .idle
    bsub := .none
    pos := 0
    bpos := 0
    outLen := 0
    blkStart := 0
    blkEnd := 0
    blkStored := false
    blkOutBase := 0
    winBase := 0
    litLen := 0
    matchLen := 0
    mlb := 0
    offset := 0
    flg := 0
    bd := 0
    csize := 0
    errKind := .none
    errCause := .none
    errPos := 0 }

/-! ## Blocks -/

/-- BlockDone (41_block_decoder.md R148). -/
def blockDone (s : State) : State := { s with bsub := .none, fsm := .expectBlockmark }

end Sys2Proof.Machine
end

