-- ==== Sys2Proof/Machine/Operands.lean ====
section
/-! DEFINITION. Where operands come from: the two input readers and their primitives (40_reader.md), the bytes a
reader presents to the decoder, and the values of the host's registers (10_state.md R45 to R54). -/

namespace Sys2Proof.Machine

/-! ## The readers (40_reader.md) -/

/-- The frame reader over IN[0..in_len) and the block reader over IN[blk_start..blk_end). -/
inductive Reader
  | frame
  | block
deriving DecidableEq, Repr

/-- R.hi, the reader's limit. -/
def readerHi (r : Reader) (s : State) : Nat :=
  match r with
  | .frame => s.inLen
  | .block => s.blkEnd

/-- R.cur, the reader's cursor: `offset(R)` of R127. -/
def readerCur (r : Reader) (s : State) : Nat :=
  match r with
  | .frame => s.pos
  | .block => s.bpos

/-- R.left: `bytes_left(R)` of R127 (a natural subtraction, log 21). -/
def readerLeft (r : Reader) (s : State) : Nat := readerHi r s - readerCur r s

/-- `finished(R)` of R127. -/
def readerFinished (r : Reader) (s : State) : Bool := readerCur r s == readerHi r s

/-- R.tcause, the reader's truncation cause. -/
def readerCause : Reader → Cause
  | .frame => .truncRead
  | .block => .truncBlockRead

/-- The cursor moved on by `n` bytes. -/
def readerAdvance (r : Reader) (n : Nat) (s : State) : State :=
  match r with
  | .frame => { s with pos := s.pos + n }
  | .block => { s with bpos := s.bpos + n }

/-- `bytes(R, n)` (R125), with the common check of R120. -/
def readBytes (r : Reader) (n : Nat) (s : State) : Except Cause (List Byte × State) :=
  if readerLeft r s < n then .error (readerCause r)
  else .ok (inBytes s (readerCur r s) (readerCur r s + n), readerAdvance r n s)

/-- `skip(R, n)` (R126). -/
def readSkip (r : Reader) (n : Nat) (s : State) : Except Cause State :=
  if readerLeft r s < n then .error (readerCause r) else .ok (readerAdvance r n s)

/-- `MemRead(IN, a, n)` (00_scope.md R11, 20_memory.md R61). -/
def memRead (s : State) (a n : Nat) : Nat := leNat (inBytes s a (a + n))

/-- A little-endian field of `n` bytes and width `w`: the shape of R121 to R124. -/
def readField (w n : Nat) (r : Reader) (s : State) : Except Cause (BitVec w × State) :=
  if readerLeft r s < n then .error (readerCause r)
  else .ok (BitVec.ofNat w (memRead s (readerCur r s) n), readerAdvance r n s)

/-- `u8(R)` (R121). -/
def readU8 (r : Reader) (s : State) : Except Cause (BitVec 8 × State) := readField 8 1 r s

/-- `u16(R)` (R122). -/
def readU16 (r : Reader) (s : State) : Except Cause (BitVec 16 × State) := readField 16 2 r s

/-- `u32(R)` (R123). -/
def readU32 (r : Reader) (s : State) : Except Cause (BitVec 32 × State) := readField 32 4 r s

/-- `u64(R)` (R124). -/
def readU64 (r : Reader) (s : State) : Except Cause (BitVec 64 × State) := readField 64 8 r s

/-- Take `n` bytes off a reader and go on, or raise the reader's truncation with nothing moved (R120, R128; log 19).
The field itself has come with the decoded instruction. -/
def consume (r : Reader) (n : Nat) (s : State) (k : State → Result) : Result :=
  match readSkip r n s with
  | .error c => raise c s
  | .ok t => k t

/-! ## The bytes of an element -/

/-- The `n` bytes a reader presents to the decoder: those at its cursor, up to its limit, and zeros for those the
input does not have. The meaning's own length check then raises before the field is used (log 8). -/
def elementBytes (r : Reader) (n : Nat) (s : State) : List Byte :=
  let have_ := min n (readerLeft r s)
  inBytes s (readerCur r s) (readerCur r s + have_) ++ List.replicate (n - have_) 0

/-- The field at a reader's cursor, little-endian. -/
def elementField (r : Reader) (n : Nat) (s : State) : Nat := leNat (elementBytes r n s)

/-! ## Registers (10_state.md R45 to R54) -/

/-- A flag as a number. -/
def bit (b : Bool) : Nat := if b then 1 else 0

/-- STATUS (10_state.md R46). -/
def statusValue (s : State) : Nat :=
  fsmCode s.fsm + 2 ^ 4 * bsubCode s.bsub + 2 ^ 8 * bit (busy s) + 2 ^ 9 * bit (isDone s) +
    2 ^ 10 * bit (isError s) + 2 ^ 11 * bit (resultValid s) + 2 ^ 12 * bit (irq s)

/-- The value a host read of a register returns (44_host_interface.md R256). -/
def regValue (r : Reg) (s : State) : Word :=
  match r with
  | .ctrl => BitVec.ofNat 64 (2 * bit s.irqEn)
  | .status => BitVec.ofNat 64 (statusValue s)
  | .errinfo => BitVec.ofNat 64 (kindCode s.errKind + 2 ^ 8 * causeCode s.errCause)
  | .errPos => BitVec.ofNat 64 s.errPos
  | .inLen => BitVec.ofNat 64 s.inLen
  | .inPos => BitVec.ofNat 64 s.pos
  | .blkPos => BitVec.ofNat 64 s.bpos
  | .outLen => BitVec.ofNat 64 s.outLen
  | .hdr => BitVec.ofNat 64 (s.flg.toNat + 2 ^ 8 * s.bd.toNat)
  | .contentSize => s.csize
  | .reserved _ => 0

end Sys2Proof.Machine
end

