-- ==== Sys2Proof/Machine/BlockDecoder.lean ====
section
/-! DEFINITION. The block decoder (41_block_decoder.md): the token parser, the length extensions, the literal run, the
match offset and the match copier; and `payload.c`, its next step whatever it is (43_frame_blocks.md R216). -/

namespace Sys2Proof.Machine

/-- B_TOKEN (R142): the end of the block, or a token. -/
def execToken (lit mlb : BitVec 4) (s : State) : Result :=
  if readerFinished .block s then .next (blockDone s)
  else consume .block 1 s fun t =>
    .next { t with litLen := lit.toNat, mlb := mlb, bsub := if lit = 15 then .litext else .litcopy }

/-- B_LITEXT (R143): one extension byte; it is not consumed when the sum would exceed LEN_MAX. -/
def execLitext (b : Byte) (s : State) : Result :=
  consume .block 1 s fun t =>
    if s.cfg.lenMax < s.litLen + b.toNat then raise .litlenOverflow s
    else .next { t with litLen := s.litLen + b.toNat, bsub := if b.toNat < 255 then .litcopy else .litext }

/-- B_LITCOPY (R144): both checks are made for the whole run before its first byte is appended; the block ends when
its payload does. -/
def execLiterals (s : State) : Result :=
  if readerLeft .block s < s.litLen then raise .truncBlockRead s
  else if s.cfg.outCap < s.outLen + s.litLen then raise .outCapacity s
  else
    let t := { appendBytes (inBytes s s.bpos (s.bpos + s.litLen)) s with bpos := s.bpos + s.litLen }
    if s.bpos + s.litLen = s.blkEnd then .next (blockDone t) else .next { t with bsub := .offset }

/-- The number of output bytes a match may go back (R141; log 21). -/
def reach (s : State) : Nat := s.outLen - s.winBase

/-- B_OFFSET (R145): the offset is checked before any match-length extension byte is read. -/
def execOffset (o : BitVec 16) (s : State) : Result :=
  consume .block 2 s fun t =>
    if o = 0 then raise .badOffsetZero s
    else if reach s < o.toNat then raise .badOffsetRange s
    else .next { t with
      offset := o
      matchLen := 4 + s.mlb.toNat
      bsub := if s.mlb = 15 then .matchext else .matchcopy }

/-- B_MATCHEXT (R146). -/
def execMlext (b : Byte) (s : State) : Result :=
  consume .block 1 s fun t =>
    if s.cfg.lenMax < s.matchLen + b.toNat then raise .matchlenOverflow s
    else .next { t with matchLen := s.matchLen + b.toNat, bsub := if b.toNat < 255 then .matchcopy else .matchext }

/-- B_MATCHCOPY (R147): byte at a time, each byte seeing the bytes the same copy wrote. -/
def execMatchcopy (s : State) : Result :=
  if s.cfg.outCap < s.outLen + s.matchLen then raise .outCapacity s
  else .next { copyMatch s.matchLen s with bsub := .token }

/-- The byte at the block reader's cursor. -/
def blockByte (s : State) : Byte := BitVec.ofNat 8 (elementField .block 1 s)

/-- `payload.c` (43_frame_blocks.md R216): one step of the block decoder, by `bsub` (log 10). -/
def execPayloadC (s : State) : Result :=
  match s.bsub with
  | .token => execToken ((blockByte s).extractLsb' 4 4) ((blockByte s).extractLsb' 0 4) s
  | .litext => execLitext (blockByte s) s
  | .litcopy => execLiterals s
  | .offset => execOffset (BitVec.ofNat 16 (elementField .block 2 s)) s
  | .matchext => execMlext (blockByte s) s
  | .matchcopy => execMatchcopy s
  | .stored => .fault .noBlockStep
  | .none => .fault .noBlockStep

end Sys2Proof.Machine
end

