-- ==== Sys2Proof/Machine/Checksum.lean ====
section
/-! DEFINITION. The hash of the XXH32 validator: the parameter of 00_scope.md R8, or the informative instantiation of
93_implementation_defined.md 2.1, which is general knowledge and not the source's (log 3). -/

namespace Sys2Proof.Machine

/-- The prime P1. -/
def xxPrime1 : BitVec 32 := 0x9E3779B1
/-- The prime P2. -/
def xxPrime2 : BitVec 32 := 0x85EBCA77
/-- The prime P3. -/
def xxPrime3 : BitVec 32 := 0xC2B2AE3D
/-- The prime P4. -/
def xxPrime4 : BitVec 32 := 0x27D4EB2F
/-- The prime P5. -/
def xxPrime5 : BitVec 32 := 0x165667B1

/-- The 4-byte little-endian lane at the front of a string. -/
def xxLane (d : List Byte) : BitVec 32 :=
  match d with
  | a :: b :: c :: e :: _ => e ++ c ++ b ++ a
  | _ => 0

/-- One lane into one accumulator. -/
def xxRound (acc lane : BitVec 32) : BitVec 32 := (acc + lane * xxPrime2).rotateLeft 13 * xxPrime1

/-- Absorb up to `n` 16-byte stripes; answer the four accumulators and the bytes left. -/
def xxStripes : Nat → List Byte → BitVec 32 → BitVec 32 → BitVec 32 → BitVec 32 →
    (BitVec 32 × BitVec 32 × BitVec 32 × BitVec 32) × List Byte
  | 0, d, v1, v2, v3, v4 => ((v1, v2, v3, v4), d)
  | n + 1, d, v1, v2, v3, v4 =>
    xxStripes n (d.drop 16) (xxRound v1 (xxLane d)) (xxRound v2 (xxLane (d.drop 4)))
      (xxRound v3 (xxLane (d.drop 8))) (xxRound v4 (xxLane (d.drop 12)))

/-- Absorb one byte. -/
def xxSingle (h : BitVec 32) (a : Byte) : BitVec 32 := (h + a.setWidth 32 * xxPrime5).rotateLeft 11 * xxPrime1

/-- Absorb the bytes after the stripes, four at a time and then one at a time. -/
def xxTail : BitVec 32 → List Byte → BitVec 32
  | h, a :: b :: c :: e :: d => xxTail ((h + (e ++ c ++ b ++ a) * xxPrime3).rotateLeft 17 * xxPrime4) d
  | h, d => d.foldl xxSingle h

/-- The final mixing. -/
def xxAvalanche (h : BitVec 32) : BitVec 32 :=
  let h1 := (h ^^^ (h >>> 15)) * xxPrime2
  let h2 := (h1 ^^^ (h1 >>> 13)) * xxPrime3
  h2 ^^^ (h2 >>> 16)

/-- XXH32 with seed 0, the informative instantiation (93_implementation_defined.md 2.1). -/
def xxh32Informative (d : List Byte) : BitVec 32 :=
  let n := d.length
  if 16 ≤ n then
    match xxStripes (n / 16) d (xxPrime1 + xxPrime2) xxPrime2 0 (0 - xxPrime1) with
    | ((v1, v2, v3, v4), rest) =>
      xxAvalanche (xxTail
        (v1.rotateLeft 1 + v2.rotateLeft 7 + v3.rotateLeft 12 + v4.rotateLeft 18 + BitVec.ofNat 32 n) rest)
  else xxAvalanche (xxTail (xxPrime5 + BitVec.ofNat 32 n) d)

/-- `xxh32` of an instance (00_scope.md R8). -/
def hash (p : Params) (d : List Byte) : BitVec 32 :=
  match p.hash with
  | .parameter => Config.xxh32 d
  | .informative => xxh32Informative d

end Sys2Proof.Machine
end

