-- ==== Sys2Proof/Machine/Header.lean ====
section
/-! DEFINITION. The frame header (42_frame_header.md): the prelude check and the elements MAGIC, FLG, BD, CSIZE, DICTID
and HC. -/

namespace Sys2Proof.Machine

/-- PreludeCheck, performed by START (R180). -/
def preludeCheck (s : State) : Result :=
  if s.inLen < 11 then raise .truncPrelude s else .next { s with fsm := .expectMagic }

/-- The frame's magic number (30_encoding.md R91). -/
def frameMagic : BitVec 32 := 0x184D2204

/-- EXPECT_MAGIC (R181, R182). -/
def execMagic (m : BitVec 32) (s : State) : Result :=
  consume .frame 4 s fun t =>
    if m = frameMagic then .next { t with fsm := .expectFlg } else raise .badMagic s

/-- EXPECT_FLG (R183): the byte is captured, then the version and the reserved bit are checked, in this order. -/
def execFlg (b : Byte) (s : State) : Result :=
  consume .frame 1 s fun t =>
    if flgVersion b ≠ 1 then raise .badFlgVersion { s with flg := b }
    else if flgReserved b then raise .badFlgReserved { s with flg := b }
    else .next { t with flg := b, fsm := .expectBd }

/-- Where the header goes after its content size, or without one (R187). -/
def afterCsize (flg : Byte) : Fsm := if dictIdPresent flg then .expectDictid else .expectHc

/-- Where the header goes after BD (R185, R187). -/
def afterBd (flg : Byte) : Fsm := if contentSizePresent flg then .expectCsize else afterCsize flg

/-- EXPECT_BD (R185): the byte is captured, then its reserved bits are checked; the block maximum size is not (R186). -/
def execBd (b : Byte) (s : State) : Result :=
  consume .frame 1 s fun t =>
    if bdReserved b then raise .badBdReserved { s with bd := b }
    else .next { t with bd := b, fsm := afterBd s.flg }

/-- EXPECT_CSIZE (R188): 13 bytes must remain, the field is captured, then its range is checked. -/
def execCsize (v : Word) (s : State) : Result :=
  if readerLeft .frame s < 13 then raise .truncCsize s
  else if s.cfg.lenMax < v.toNat then raise .csizeRange { s with csize := v }
  else .next { s with csize := v, pos := s.pos + 8, fsm := afterCsize s.flg }

/-- EXPECT_DICTID (R189): rejected whatever the ID, which is not looked at. -/
def execDictid (_id : BitVec 32) (s : State) : Result := raise .dictidPresent s

/-- EXPECT_HC (R190, R191): bits 15..8 of the hash of the header's bytes from FLG on. -/
def execHc (c : Byte) (s : State) : Result :=
  consume .frame 1 s fun t =>
    if c = (hash s.cfg (inBytes s 4 s.pos)).extractLsb' 8 8 then .next { t with fsm := .expectBlockmark }
    else raise .badHc s

end Sys2Proof.Machine
end

