-- ==== Sys2Proof/Machine/Frame.lean ====
section
/-! DEFINITION. The block loop and the trailer (43_frame_blocks.md): block marks, the block checksum, the stored
payload, the END check and the content checksum. -/

namespace Sys2Proof.Machine

/-- EXPECT_BLOCKMARK with the EndMark (R210). -/
def execEndmark (s : State) : Result :=
  consume .frame 4 s fun t => .next { t with fsm := .endFrame }

/-- The lowest output index a block framed now may read (41_block_decoder.md R141). -/
def windowBase (s : State) : Nat :=
  if independentBlocks s.flg then s.outLen else s.outLen - min s.outLen windowSize

/-- The sub-state a block's decoding starts in (R213). -/
def blockEntry (stored : Bool) : Bsub := if stored then .stored else .token

/-- The bytes that must follow a mark: the payload, its checksum if there is one, and an EndMark (R211). -/
def blockNeed (flg : Byte) (size : Nat) : Nat := size + (if blockChecksumPresent flg then 4 else 0) + 4

/-- Payload framing (R212). -/
def framePayload (stored : Bool) (size : Nat) (s : State) : State :=
  { s with
    blkStored := stored
    blkStart := s.pos + 4
    blkEnd := s.pos + 4 + size
    bpos := s.pos + 4
    blkOutBase := s.outLen
    winBase := windowBase s
    pos := s.pos + 4 + size }

/-- The state after framing (R213). -/
def enterBlock (s : State) : State :=
  if blockChecksumPresent s.flg then { s with fsm := .expectBlockchk }
  else { s with fsm := .expectBlock, bsub := blockEntry s.blkStored }

/-- FrameBlock(m) (R210 to R213), for a mark that is not the EndMark. -/
def frameBlock (stored : Bool) (size : Nat) (s : State) : Result :=
  consume .frame 4 s fun t =>
    if readerLeft .frame t < blockNeed s.flg size then raise .truncBlock s
    else .next (enterBlock (framePayload stored size s))

/-- EXPECT_BLOCKMARK with the mark of a compressed block (R210 to R213). -/
def execBmarkC (size : BitVec 31) (s : State) : Result := frameBlock false size.toNat s

/-- EXPECT_BLOCKMARK with the mark of a stored block (R210 to R213, R219). -/
def execBmarkS (size : BitVec 31) (s : State) : Result := frameBlock true size.toNat s

/-- EXPECT_BLOCKCHK (R214): the payload's hash is checked before any of it is decoded (R307). -/
def execBchk (c : BitVec 32) (s : State) : Result :=
  consume .frame 4 s fun t =>
    if c = hash s.cfg (inBytes s s.blkStart s.blkEnd) then
      .next { t with fsm := .expectBlock, bsub := blockEntry s.blkStored }
    else raise .badBlockChecksum s

/-- EXPECT_BLOCK with B_STORED (R215): the payload is copied whole. -/
def execPayloadS (s : State) : Result :=
  if s.cfg.outCap < s.outLen + (s.blkEnd - s.blkStart) then raise .outCapacity s
  else .next (blockDone { appendBytes (inBytes s s.blkStart s.blkEnd) s with bpos := s.blkEnd })

/-- END (R220): the content-size check. No row of the opcode table is this step (log 9). -/
def execEnd (s : State) : Result :=
  if contentSizePresent s.flg && decide (s.outLen ≠ s.csize.toNat) then raise .csizeMismatch s
  else .next { s with fsm := if contentChecksumPresent s.flg then .expectContentchk else .done }

/-- EXPECT_CONTENTCHK (R221): the whole output's hash. -/
def execCchk (c : BitVec 32) (s : State) : Result :=
  if readerLeft .frame s < 4 then raise .truncCchk s
  else if c = hash s.cfg (outBytes s 0 s.outLen) then .next { s with pos := s.pos + 4, fsm := .done }
  else raise .contentChecksum s

end Sys2Proof.Machine
end

