-- ==== Sys2Proof/Machine/HostPort.lean ====
section
/-! DEFINITION. The host's commands (44_host_interface.md): START, CTRL, IN_LEN, IN, OUT, register reads, ignored
writes, and reset (70_reset_and_hazards.md R300). -/

namespace Sys2Proof.Machine

/-- A write of CTRL updates IRQ_EN, BUSY or not (R252). -/
def writeIrqEn (v : Word) (s : State) : State := { s with irqEn := v.getLsbD 1 }

/-- START (R250); while BUSY only IRQ_EN changes (R251). -/
def execStart (v : Word) (s : State) : Result :=
  if busy s then .next (writeIrqEn v s) else preludeCheck (clearRun (writeIrqEn v s))

/-- A write of CTRL with START clear (R252). -/
def execCtrlW (v : Word) (s : State) : Result := .next (writeIrqEn v s)

/-- A write of IN_LEN: clamped to IN_CAP, ignored while BUSY (R253). -/
def execInLenW (v : Word) (s : State) : Result :=
  if busy s then .next s else .next { s with inLen := min v.toNat s.cfg.inCap }

/-- A write of one byte of IN: ignored while BUSY (R254), refused outside IN (20_memory.md R64). -/
def execInW (i : Nat) (b : Byte) (s : State) : Result :=
  if s.cfg.inCap ≤ i then .refused .inputIndex
  else if busy s then .next s
  else .next { s with inMem := memSet s.inMem i b }

/-- A write of one byte of OUT: ignored (R255), refused outside OUT (20_memory.md R64, log 22). -/
def execOutW (i : Nat) (_b : Byte) (s : State) : Result :=
  if s.cfg.outCap ≤ i then .refused .outputIndex else .next s

/-- A read of a register: the host gets its value, and nothing else changes (R256, 20_memory.md R67). -/
def execRegR (r : Reg) (s : State) : Result := .next { s with hostData := regValue r s }

/-- A read of one byte of OUT (R257): the byte the run appended there, or any value while BUSY and at or above
`out_len` (20_memory.md R66, log 5). -/
def execOutR (i : Nat) (s : State) : Result :=
  if s.cfg.outCap ≤ i then .refused .outputIndex
  else if busy s || decide (s.outLen ≤ i) then
    .next { s with hostData := (Config.drawByte s.draws).setWidth 64, draws := s.draws + 1 }
  else .next { s with hostData := (outByte s i).setWidth 64 }

/-- A write of a read-only or reserved register: ignored (R258). -/
def execRoW (_r : Reg) (_v : Word) (s : State) : Result := .next s

/-- Reset (R259, 70_reset_and_hazards.md R300, R301): in any state. The instance stays the same, the memories get new
free contents, and what belongs to the host side of the model stays (log 17). -/
def execReset (s : State) : Result :=
  .next { State.resetWith s.cfg with
    epoch := s.epoch + 1
    draws := s.draws
    hostData := s.hostData
    agenda := s.agenda }

/-- A read of one byte of IN (20_memory.md R60, R64, R67). No row of the opcode table is this access (log 9). -/
def hostReadIn (i : Nat) (s : State) : Result :=
  if s.cfg.inCap ≤ i then .refused .inputIndex else .next { s with hostData := (inByte s i).setWidth 64 }

end Sys2Proof.Machine
end

