-- ==== Sys2Proof/Machine/Dispatch.lean ====
section
/-! DEFINITION. The meaning of every instruction: one arm per constructor of `Instr`. -/

namespace Sys2Proof.Machine

/-- Run one instruction. -/
def exec (i : Instr) (s : State) : Host.Outcome State Fault Refusal :=
  match i with
  | .magic m => Sys2Proof.Machine.execMagic m s
  | .flg b => Sys2Proof.Machine.execFlg b s
  | .bd b => Sys2Proof.Machine.execBd b s
  | .csize v => Sys2Proof.Machine.execCsize v s
  | .dictid id => Sys2Proof.Machine.execDictid id s
  | .hc c => Sys2Proof.Machine.execHc c s
  | .endmark => Sys2Proof.Machine.execEndmark s
  | .bmarkC size => Sys2Proof.Machine.execBmarkC size s
  | .bmarkS size => Sys2Proof.Machine.execBmarkS size s
  | .bchk c => Sys2Proof.Machine.execBchk c s
  | .payloadS => Sys2Proof.Machine.execPayloadS s
  | .payloadC => Sys2Proof.Machine.execPayloadC s
  | .cchk c => Sys2Proof.Machine.execCchk c s
  | .token lit mlb => Sys2Proof.Machine.execToken lit mlb s
  | .litext b => Sys2Proof.Machine.execLitext b s
  | .literals => Sys2Proof.Machine.execLiterals s
  | .offset o => Sys2Proof.Machine.execOffset o s
  | .mlext b => Sys2Proof.Machine.execMlext b s
  | .matchcopy => Sys2Proof.Machine.execMatchcopy s
  | .start v => Sys2Proof.Machine.execStart v s
  | .ctrlW v => Sys2Proof.Machine.execCtrlW v s
  | .inLenW v => Sys2Proof.Machine.execInLenW v s
  | .inW idx b => Sys2Proof.Machine.execInW idx b s
  | .outW idx b => Sys2Proof.Machine.execOutW idx b s
  | .regR r => Sys2Proof.Machine.execRegR r s
  | .outR idx => Sys2Proof.Machine.execOutR idx s
  | .roW r v => Sys2Proof.Machine.execRoW r v s
  | .reset => Sys2Proof.Machine.execReset s

end Sys2Proof.Machine
end

