-- ==== Sys2Proof/Machine/Fetch.lean ====
section
/-! DEFINITION. Whose turn it is and what that turn runs: the engine's next element, which the FSM state names
(00_scope.md R12, 30_encoding.md R105), or the host's next access. -/

namespace Sys2Proof.Machine

/-- What a turn runs. -/
inductive Fetched
  /-- The engine is not BUSY and takes no step (60_exceptions.md R275, R287). -/
  | quiescent
  /-- The END step, which is no row of the table (43_frame_blocks.md R220; log 9). -/
  | endCheck
  /-- An instruction. -/
  | instr (i : Instr)
  /-- A host read of IN, which is no row of the table (20_memory.md R60; log 9). -/
  | inputRead (index : Nat)
  /-- The spec gives the state no step. -/
  | stuck (f : Fault)
  /-- A host access outside the spec (20_memory.md R64). -/
  | refuse (r : Refusal)
deriving DecidableEq, Repr

/-- The element each sub-state of a block reads (10_state.md R22, 43_frame_blocks.md R215, R216). -/
def blockSlot : Bsub → Option Slot
  | .none => none
  | .token => some .token
  | .litext => some .litext
  | .litcopy => some .literals
  | .offset => some .offset
  | .matchext => some .mlext
  | .matchcopy => some .matchcopy
  | .stored => some .payloadS

/-- The reader an element is read through (40_reader.md). -/
def slotReader : Slot → Reader
  | .magic => .frame
  | .flg => .frame
  | .bd => .frame
  | .csize => .frame
  | .dictid => .frame
  | .hc => .frame
  | .blockmark => .frame
  | .bchk => .frame
  | .cchk => .frame
  | .payloadS => .block
  | .payloadC => .block
  | .token => .block
  | .litext => .block
  | .literals => .block
  | .offset => .block
  | .mlext => .block
  | .matchcopy => .block

/-- The field presented to the decoder for an element. The engine never reads the bytes of DICTID
(30_encoding.md R95, 42_frame_header.md R189), so nothing is presented for it (log 16). -/
def slotField (k : Slot) (s : State) : Nat :=
  match k with
  | .dictid => 0
  | k => elementField (slotReader k) k.width s

/-- The instruction at the engine's cursor, for an element of a kind: the decoder's answer on the element's bytes. -/
def fetchSlot (k : Slot) (s : State) : Fetched :=
  match decodeWire k (leBytes k.width (slotField k s)) with
  | .ok (i, _) => .instr i
  | .error _ => .quiescent

/-- The element the FSM state says is next, if the state reads one (10_state.md R21, R22). -/
def expectedSlot (s : State) : Option Slot :=
  match s.fsm with
  | .idle => none
  | .done => none
  | .error => none
  | .endFrame => none
  | .expectMagic => some .magic
  | .expectFlg => some .flg
  | .expectBd => some .bd
  | .expectCsize => some .csize
  | .expectDictid => some .dictid
  | .expectHc => some .hc
  | .expectBlockmark => some .blockmark
  | .expectBlockchk => some .bchk
  | .expectContentchk => some .cchk
  | .expectBlock => blockSlot s.bsub

/-- The engine's turn (00_scope.md R12): the element that is next; or the END step; or nothing, when not BUSY. -/
def engineFetch (s : State) : Fetched :=
  match expectedSlot s with
  | some k => fetchSlot k s
  | none =>
    if s.fsm = .endFrame then .endCheck
    else if s.fsm = .expectBlock then .stuck .noBlockStep
    else .quiescent

/-- The refusal an undefined host access ends in (20_memory.md R64; log 12). -/
def rejectRefusal : Reject → Refusal
  | .regWidth => .regAccessWidth
  | .regAlign => .regAccessAlign
  | .byteWidth => .byteAccessWidth
  | .unmapped => .unmappedAddress
  | .inputRead => .unmappedAddress
  | .shortElement _ => .unmappedAddress

/-- The host's turn: its access, decoded. -/
def hostFetch (a : Access) (s : State) : Fetched :=
  match decodeAccess s.cfg a with
  | .ok (.instr i) => .instr i
  | .ok (.inputRead idx) => .inputRead idx
  | .error r => .refuse (rejectRefusal r)

/-- The state a turn runs in: its entry of the agenda is used up (log 1). -/
def takeTurn (s : State) : State := { s with agenda := s.agenda.tail }

/-- The next turn is the engine's. -/
def isEngineTurn (s : State) : Bool :=
  match s.agenda with
  | .host _ :: _ => false
  | .engine :: _ => true
  | [] => true

/-- What the next turn runs (00_scope.md R13; log 1). -/
def fetch (s : State) : Fetched :=
  match s.agenda with
  | .host a :: _ => hostFetch a (takeTurn s)
  | .engine :: _ => engineFetch (takeTurn s)
  | [] => engineFetch (takeTurn s)

/-! ## Placing a code where the next turn fetches it (log 14) -/

/-- Write a byte string into IN from an index on. -/
def placeBytes : List Byte → Nat → Mem → Mem
  | [], _, m => m
  | b :: bs, a, m => placeBytes bs (a + 1) (memSet m a b)

/-- The FSM state and sub-state in which an element is read. -/
def slotState : Slot → Fsm × Bsub
  | .magic => (.expectMagic, .none)
  | .flg => (.expectFlg, .none)
  | .bd => (.expectBd, .none)
  | .csize => (.expectCsize, .none)
  | .dictid => (.expectDictid, .none)
  | .hc => (.expectHc, .none)
  | .blockmark => (.expectBlockmark, .none)
  | .bchk => (.expectBlockchk, .none)
  | .cchk => (.expectContentchk, .none)
  | .payloadS => (.expectBlock, .stored)
  | .payloadC => (.expectBlock, .token)
  | .token => (.expectBlock, .token)
  | .litext => (.expectBlock, .litext)
  | .literals => (.expectBlock, .litcopy)
  | .offset => (.expectBlock, .offset)
  | .mlext => (.expectBlock, .matchext)
  | .matchcopy => (.expectBlock, .matchcopy)

/-- Put a code where the next turn runs it: a wire element's bytes at its reader's cursor, inside the reader's range,
with the FSM in the element's state and the turn the engine's; a host access at the head of the agenda. -/
def placeCode (c : Code) (s : State) : State :=
  match c with
  | .bus a => { s with agenda := .host a :: s.agenda }
  | .wire k bytes =>
    let r := slotReader k
    let cur := readerCur r s
    let hi := max (readerHi r s) (cur + bytes.length)
    let t := { s with
      fsm := (slotState k).1
      bsub := (slotState k).2
      inMem := placeBytes bytes cur s.inMem
      agenda := .engine :: s.agenda }
    match r with
    | .frame => { t with inLen := hi }
    | .block => { t with blkEnd := hi }

end Sys2Proof.Machine
end

