-- ==== Sys2Proof/Machine/Step.lean ====
section
/-! DEFINITION. One step of the machine: the next turn, the engine's or the host's (00_scope.md R12, R13). -/

namespace Sys2Proof.Machine

/-- One step: what the next turn fetches is run in the state whose agenda has lost that turn. -/
def step (s : State) : Host.Outcome State Fault Refusal :=
  match fetch s with
  | .quiescent => .next (takeTurn s)
  | .endCheck => execEnd (takeTurn s)
  | .instr i => exec i (takeTurn s)
  | .inputRead idx => hostReadIn idx (takeTurn s)
  | .stuck f => .fault f
  | .refuse r => .refused r

/-- `s` with the instruction of a bare word of the opcode table placed where the next step fetches it
(log 14, log 15). -/
def State.withFetchWord (s : State) (nbits w : Nat) : State :=
  match tableCode nbits w with
  | none => s
  | some c => placeCode c s

end Sys2Proof.Machine
end

