-- ==== Sys2Proof/Safety.lean ====
section
/-! DEFINITION. What counts as a sound state of the core: the conditions the spec says hold between steps, in the terms
the statements use. -/

namespace Sys2Proof.Machine

/-- Each memory is in canonical form and inside its space (20_memory.md R60, 60_exceptions.md R289; log 4). -/
abbrev MemoryCanonical (s : State) : Prop :=
  memWf s.inMem = true ∧ memBelow s.cfg.inCap s.inMem = true ∧
  memWf s.outMem = true ∧ memBelow s.cfg.outCap s.outMem = true ∧
  memWf s.winMem = true ∧ memBelow windowSize s.winMem = true

/-- The control state is consistent: `bsub` is NONE exactly outside EXPECT_BLOCK (10_state.md R22), it is B_STORED
exactly in a stored block (43_frame_blocks.md R213), and the error record is set exactly in ERROR, with the kind of its
cause (10_state.md R36, 60_exceptions.md R271). -/
abbrev ControlConsistent (s : State) : Prop :=
  (s.bsub = .none ↔ s.fsm ≠ .expectBlock) ∧
  (s.fsm = .expectBlock → (s.bsub = .stored ↔ s.blkStored = true)) ∧
  s.errKind = causeKind s.errCause ∧
  (s.errCause = .none ↔ s.fsm ≠ .error) ∧
  (s.fsm ≠ .error → s.errPos = 0)

/-- FLG has passed its checks (42_frame_header.md R183). -/
abbrev flgLegal (s : State) : Prop := flgVersion s.flg = 1 ∧ flgReserved s.flg = false

/-- The header has passed all checks before HC, and names no dictionary (42_frame_header.md R183 to R189). -/
abbrev headerLegal (s : State) : Prop :=
  flgLegal s ∧ bdReserved s.bd = false ∧ dictIdPresent s.flg = false ∧
  s.csize.toNat ≤ s.cfg.lenMax ∧ (contentSizePresent s.flg = false → s.csize = 0)

/-- What the frame descriptor holds in each state of a run: an optional element is expected only where FLG announces
it, and no state past the header belongs to a frame with a dictionary ID (42_frame_header.md R184, R187, R189). -/
abbrev HeaderChecked (s : State) : Prop :=
  match s.fsm with
  | .idle => True
  | .error => True
  | .expectMagic => s.flg = 0 ∧ s.bd = 0 ∧ s.csize = 0
  | .expectFlg => s.flg = 0 ∧ s.bd = 0 ∧ s.csize = 0
  | .expectBd => flgLegal s ∧ s.bd = 0 ∧ s.csize = 0
  | .expectCsize => flgLegal s ∧ bdReserved s.bd = false ∧ s.csize = 0 ∧ contentSizePresent s.flg = true
  | .expectDictid => flgLegal s ∧ bdReserved s.bd = false ∧ dictIdPresent s.flg = true
  | .expectHc => headerLegal s
  | .expectBlockmark => headerLegal s
  | .expectBlockchk => headerLegal s ∧ blockChecksumPresent s.flg = true
  | .expectBlock => headerLegal s
  | .endFrame => headerLegal s
  | .expectContentchk => headerLegal s ∧ contentChecksumPresent s.flg = true
  | .done => headerLegal s

/-- The current block lies in the input before the frame cursor, and its window base is at most the output it started
from (10_state.md R25, R27; 41_block_decoder.md R141). -/
abbrev blockBounds (s : State) : Prop :=
  s.blkStart ≤ s.bpos ∧ s.bpos ≤ s.blkEnd ∧ s.blkEnd ≤ s.pos ∧
  s.winBase ≤ s.blkOutBase ∧ s.blkOutBase ≤ s.outLen

/-- What the sequence registers hold where a sub-state is about to use them (10_state.md R29, R31; 41_block_decoder.md
R145, R154, R156). -/
abbrev sequenceBounds (s : State) : Prop :=
  match s.bsub with
  | .matchext => 4 ≤ s.matchLen ∧ 1 ≤ s.offset.toNat ∧ s.winBase + s.offset.toNat ≤ s.outLen
  | .matchcopy => 4 ≤ s.matchLen ∧ 1 ≤ s.offset.toNat ∧ s.winBase + s.offset.toNat ≤ s.outLen
  | .none => True
  | .token => True
  | .litext => True
  | .litcopy => True
  | .offset => True
  | .stored => True

/-- The cursors and lengths are in range, and in each state of a run the input still holds what earlier checks have
reserved (10_state.md R23 to R32, 60_exceptions.md R286). `pos ≤ in_len` is said of a run only; after it, as
always, the cursors and the error position are at most IN_CAP (log 13). -/
abbrev RunBounds (s : State) : Prop :=
  s.inLen ≤ s.cfg.inCap ∧ s.outLen ≤ s.cfg.outCap ∧ s.litLen ≤ s.cfg.lenMax ∧ s.matchLen ≤ s.cfg.lenMax ∧
  s.pos ≤ s.cfg.inCap ∧ s.bpos ≤ s.cfg.inCap ∧ s.errPos ≤ s.cfg.inCap ∧
  match s.fsm with
  | .idle => True
  | .done => True
  | .error => True
  | .expectMagic => s.pos = 0 ∧ 11 ≤ s.inLen
  | .expectFlg => s.pos = 4 ∧ 11 ≤ s.inLen
  | .expectBd => s.pos = 5 ∧ 11 ≤ s.inLen
  | .expectCsize => s.pos = 6 ∧ 11 ≤ s.inLen
  | .expectDictid => (s.pos = 6 ∨ s.pos = 14) ∧ s.pos ≤ s.inLen
  | .expectHc => (s.pos = 6 ∨ s.pos = 14) ∧ s.pos + 5 ≤ s.inLen
  | .expectBlockmark => s.pos + 4 ≤ s.inLen
  | .expectBlockchk => s.pos + 8 ≤ s.inLen ∧ s.bpos = s.blkStart ∧ s.blkEnd = s.pos ∧ blockBounds s
  | .expectBlock => s.pos + 4 ≤ s.inLen ∧ blockBounds s ∧ sequenceBounds s
  | .endFrame => s.pos ≤ s.inLen
  | .expectContentchk => s.pos ≤ s.inLen

/-- WIN holds the last 64 KiB of OUT (10_state.md R41). -/
def WindowMirrors (s : State) : Prop :=
  ∀ i, s.outLen - min s.outLen windowSize ≤ i → i < s.outLen → winByte s (i % windowSize) = outByte s i

/-- A sound state of an admissible instance. -/
structure Sound (s : State) : Prop where
  cfg : s.cfg.Ok
  memory : MemoryCanonical s
  control : ControlConsistent s
  header : HeaderChecked s
  bounds : RunBounds s
  window : WindowMirrors s

end Sys2Proof.Machine
end

