-- ==== Sys2Proof/Certificates/Slice0/Obligations.lean ====
section
/-! DEFINITION. The statements for the provers. Each docstring names the rules of spec/ it formalises. -/

open Sys2Proof Sys2Proof.Machine

/-! ## Encoding (30_encoding.md, 10_state.md R44, 20_memory.md R64) -/

/-- Encoding then decoding any instruction that has an encoding gives it back, with every operand. -/
def Obligations.DecodeEncodeGivesTheInstructionBack : Prop :=
  ∀ (p : Params) (i : Instr), p.Ok → i.wellFormed p = true → decode p (encode p i) = .ok i

/-- Every byte string of an element's width is one instruction's encoding, and no byte is dropped. -/
def Obligations.ElementBytesAreTheirInstructionsEncoding : Prop :=
  ∀ (p : Params) (k : Slot) (bs : List Byte), bs.length = k.width →
    ∃ i, decodeWire k bs = .ok (i, []) ∧ encode p i = .wire k bs

/-- Words written out from the spec's encodings decode to the instructions they stand for (30_encoding.md R91 to R104,
95_test_vectors.md). A sanity statement. -/
def Obligations.SampleWordsDecodeAsTheSpecSays : Prop :=
  decode Params.reference (.wire .magic [0x04, 0x22, 0x4d, 0x18]) = .ok (.magic 0x184D2204) ∧
  decode Params.reference (.wire .blockmark [0x05, 0, 0, 0x80]) = .ok (.bmarkS 5) ∧
  decode Params.reference (.wire .blockmark [0x05, 0, 0, 0]) = .ok (.bmarkC 5) ∧
  decode Params.reference (.wire .blockmark [0, 0, 0, 0]) = .ok .endmark ∧
  decode Params.reference (.wire .token [0x1f]) = .ok (.token 1 15) ∧
  decode Params.reference (.wire .offset [0x03, 0x00]) = .ok (.offset 3) ∧
  decode Params.reference (.bus (.write 0x00 8 0x3)) = .ok (.start 3) ∧
  decode Params.reference (.bus (.write 0x20 8 11)) = .ok (.inLenW 11) ∧
  decode Params.reference (.bus (.read 0x08 8)) = .ok (.regR .status)

/-- Every length has exactly one encoding as a nibble and extension bytes (R108). -/
def Obligations.LengthEncodingIsUnique : Prop :=
  ∀ n : Nat,
    (lengthShape (lengthNibble n) (lengthExtension n) = true ∧
      assembleLength (lengthNibble n) (lengthExtension n) = n) ∧
    ∀ (nib : BitVec 4) (ext : List Byte), lengthShape nib ext = true → assembleLength nib ext = n →
      nib = lengthNibble n ∧ ext = lengthExtension n

/-- Host accesses outside the spec are refused by name: a REG access that is not 8 bytes wide or not aligned, an IN or
OUT access that is not one byte, an index at or above the capacity (R64). The model's own part: the refusals' names, and
that an address in no space is refused (DESIGN CHOICE, log 12); that `out.w` at or above OUT_CAP is refused although R255
says "at every index" (DEDUCED, log 22). -/
def Obligations.UndefinedHostAccessIsRefused : Prop :=
  ∀ (s : State) (rest : List Turn) (width : Nat) (v : Word), s.cfg.Ok →
    (∀ off, off < 256 → width ≠ 8 →
      step { s with agenda := .host (.read (s.cfg.regBase + off) width) :: rest } = .refused .regAccessWidth ∧
      step { s with agenda := .host (.write (s.cfg.regBase + off) width v) :: rest } = .refused .regAccessWidth) ∧
    (∀ off, off < 256 → off % 8 ≠ 0 →
      step { s with agenda := .host (.read (s.cfg.regBase + off) 8) :: rest } = .refused .regAccessAlign ∧
      step { s with agenda := .host (.write (s.cfg.regBase + off) 8 v) :: rest } = .refused .regAccessAlign) ∧
    (∀ i, i < s.cfg.inCap → width ≠ 1 →
      step { s with agenda := .host (.read (s.cfg.inBase + i) width) :: rest } = .refused .byteAccessWidth ∧
      step { s with agenda := .host (.write (s.cfg.inBase + i) width v) :: rest } = .refused .byteAccessWidth) ∧
    (∀ i, i < s.cfg.outCap → width ≠ 1 →
      step { s with agenda := .host (.read (s.cfg.outBase + i) width) :: rest } = .refused .byteAccessWidth ∧
      step { s with agenda := .host (.write (s.cfg.outBase + i) width v) :: rest } = .refused .byteAccessWidth) ∧
    (∀ addr, ¬ (s.cfg.regBase ≤ addr ∧ addr < s.cfg.regBase + 256) →
      ¬ (s.cfg.inBase ≤ addr ∧ addr < s.cfg.inBase + s.cfg.inCap) →
      ¬ (s.cfg.outBase ≤ addr ∧ addr < s.cfg.outBase + s.cfg.outCap) →
      step { s with agenda := .host (.read addr width) :: rest } = .refused .unmappedAddress ∧
      step { s with agenda := .host (.write addr width v) :: rest } = .refused .unmappedAddress) ∧
    (∀ i b, s.cfg.inCap ≤ i → exec (.inW i b) s = .refused .inputIndex ∧ hostReadIn i s = .refused .inputIndex) ∧
    (∀ i b, s.cfg.outCap ≤ i → exec (.outW i b) s = .refused .outputIndex ∧ exec (.outR i) s = .refused .outputIndex)

/-! ## The step -/

/-- The engine's turn runs the instruction that the bytes at its cursor decode to, in the state without the turn; for
DICTID, whose bytes the engine does not read, it runs that element whatever they are (00_scope.md R12; log 16). Where
the reader has fewer bytes than the element's width, the step still runs that element, with some field: what stands in
for the missing bytes is the model's choice (DESIGN CHOICE, log 8), and the element's own length check comes before any
use of it. When the engine is not BUSY, its turn changes nothing (R275, R287). -/
def Obligations.EngineStepRunsTheDecodedElement : Prop :=
  ∀ s : State, isEngineTurn s = true →
    (∀ (k : Slot) (i : Instr) (rest : List Byte), expectedSlot s = some k → k ≠ .dictid →
      k.width ≤ readerLeft (slotReader k) s →
      decodeWire k (inBytes s (readerCur (slotReader k) s) (readerCur (slotReader k) s + k.width)) = .ok (i, rest) →
      step s = exec i (takeTurn s)) ∧
    (∀ k : Slot, expectedSlot s = some k → k ≠ .dictid → readerLeft (slotReader k) s < k.width →
      ∃ v, step s = exec (decodeField k v) (takeTurn s)) ∧
    (expectedSlot s = some .dictid → ∃ id, step s = exec (.dictid id) (takeTurn s)) ∧
    (busy s = false → step s = .next (takeTurn s))

/-- The host's turn runs the command its access decodes to, in the state without the turn (00_scope.md R13, R14). -/
def Obligations.HostStepRunsTheDecodedAccess : Prop :=
  ∀ (s : State) (a : Access) (rest : List Turn), s.agenda = .host a :: rest →
    (∀ i, decodeAccess s.cfg a = .ok (.instr i) → step s = exec i { s with agenda := rest }) ∧
    (∀ idx, decodeAccess s.cfg a = .ok (.inputRead idx) → step s = hostReadIn idx { s with agenda := rest })

/-- An element whose bytes the reader does not have raises the reader's truncation, whatever field is presented, and
moves no cursor (R120, R128). That `flg`, `bd`, `hc` and `bchk` make this check, where R183, R185, R190 and R214 write
none and rely on an earlier one, is the model's reading (DEDUCED, log 19). -/
def Obligations.ShortReadRaisesTheReadersTruncation : Prop :=
  ∀ s : State,
    (∀ (m : BitVec 32) (b : Byte) (size : BitVec 31),
      (s.inLen - s.pos < 4 →
        exec (.magic m) s = .next (errorEntry .truncRead s) ∧ exec .endmark s = .next (errorEntry .truncRead s) ∧
        exec (.bmarkC size) s = .next (errorEntry .truncRead s) ∧
        exec (.bmarkS size) s = .next (errorEntry .truncRead s) ∧
        exec (.bchk m) s = .next (errorEntry .truncRead s)) ∧
      (s.inLen - s.pos < 1 →
        exec (.flg b) s = .next (errorEntry .truncRead s) ∧ exec (.bd b) s = .next (errorEntry .truncRead s) ∧
        exec (.hc b) s = .next (errorEntry .truncRead s))) ∧
    (∀ (b : Byte) (o : BitVec 16),
      (s.blkEnd - s.bpos < 1 →
        exec (.litext b) s = .next (errorEntry .truncBlockRead s) ∧
        exec (.mlext b) s = .next (errorEntry .truncBlockRead s)) ∧
      (s.blkEnd - s.bpos < 2 → exec (.offset o) s = .next (errorEntry .truncBlockRead s))) ∧
    ((errorEntry .truncRead s).pos = s.pos ∧ (errorEntry .truncBlockRead s).bpos = s.bpos)

/-- A reader's fields are the little-endian values at its cursor, which moves past them, and `bytes` and `skip` take a
whole run or nothing (R121 to R126). The field that the step presents to the decoder is the same value: where the reader
has the bytes, `elementField` of `n` bytes is below 256^n and its byte `k` is the one at the cursor plus `k`
(20_memory.md R61). -/
def Obligations.ReaderFieldsAreLittleEndian : Prop :=
  ∀ (s : State) (r : Reader),
    (1 ≤ readerLeft r s → readU8 r s = .ok (inByte s (readerCur r s), readerAdvance r 1 s)) ∧
    (2 ≤ readerLeft r s →
      readU16 r s = .ok (inByte s (readerCur r s + 1) ++ inByte s (readerCur r s), readerAdvance r 2 s)) ∧
    (4 ≤ readerLeft r s →
      readU32 r s = .ok (inByte s (readerCur r s + 3) ++ inByte s (readerCur r s + 2) ++
        inByte s (readerCur r s + 1) ++ inByte s (readerCur r s), readerAdvance r 4 s)) ∧
    (8 ≤ readerLeft r s →
      readU64 r s = .ok (inByte s (readerCur r s + 7) ++ inByte s (readerCur r s + 6) ++
        inByte s (readerCur r s + 5) ++ inByte s (readerCur r s + 4) ++ inByte s (readerCur r s + 3) ++
        inByte s (readerCur r s + 2) ++ inByte s (readerCur r s + 1) ++ inByte s (readerCur r s),
        readerAdvance r 8 s)) ∧
    (readerLeft r s < 1 → readU8 r s = .error (readerCause r)) ∧
    (readerLeft r s < 2 → readU16 r s = .error (readerCause r)) ∧
    (readerLeft r s < 4 → readU32 r s = .error (readerCause r)) ∧
    (readerLeft r s < 8 → readU64 r s = .error (readerCause r)) ∧
    (∀ n, n ≤ readerLeft r s →
      (∃ bs, readBytes r n s = .ok (bs, readerAdvance r n s) ∧ bs.length = n ∧
        ∀ k, k < n → bs[k]? = some (inByte s (readerCur r s + k))) ∧
      readSkip r n s = .ok (readerAdvance r n s) ∧
      elementField r n s < 256 ^ n ∧
      ∀ k, k < n → elementField r n s / 256 ^ k % 256 = (inByte s (readerCur r s + k)).toNat) ∧
    (∀ n, readerLeft r s < n →
      readBytes r n s = .error (readerCause r) ∧ readSkip r n s = .error (readerCause r)) ∧
    (∀ n, readerAdvance .frame n s = { s with pos := s.pos + n } ∧
      readerAdvance .block n s = { s with bpos := s.bpos + n })

/-! ## The frame header (42_frame_header.md) -/

/-- EXPECT_MAGIC: only 0x184D2204 passes; any other value, skippable and legacy ones too, is BAD_MAGIC (R181, R182). -/
def Obligations.MagicIsCheckedAndConsumed : Prop :=
  ∀ s : State, s.pos + 4 ≤ s.inLen →
    exec (.magic 0x184D2204) s = .next { s with pos := s.pos + 4, fsm := .expectFlg } ∧
    ∀ m : BitVec 32, m ≠ 0x184D2204 → exec (.magic m) s = .next (errorEntry .badMagic s)

/-- EXPECT_FLG: the byte is captured always; the version is tested before the reserved bit (R183). -/
def Obligations.FlgIsCapturedThenChecked : Prop :=
  ∀ (s : State) (b : Byte), s.pos + 1 ≤ s.inLen →
    (b.extractLsb' 6 2 ≠ 1 → exec (.flg b) s = .next (errorEntry .badFlgVersion { s with flg := b })) ∧
    (b.extractLsb' 6 2 = 1 → b.getLsbD 1 = true →
      exec (.flg b) s = .next (errorEntry .badFlgReserved { s with flg := b })) ∧
    (b.extractLsb' 6 2 = 1 → b.getLsbD 1 = false →
      exec (.flg b) s = .next { s with flg := b, pos := s.pos + 1, fsm := .expectBd })

/-- EXPECT_BD: the byte is captured always; any block maximum size passes; the next element follows the wire order
CSIZE, DICTID, HC (R185). -/
def Obligations.BdIsCapturedThenChecked : Prop :=
  ∀ (s : State) (b : Byte), s.pos + 1 ≤ s.inLen →
    (b &&& 0x8F ≠ 0 → exec (.bd b) s = .next (errorEntry .badBdReserved { s with bd := b })) ∧
    (b &&& 0x8F = 0 →
      exec (.bd b) s = .next { s with
        bd := b
        pos := s.pos + 1
        fsm := if s.flg.getLsbD 3 then .expectCsize else if s.flg.getLsbD 0 then .expectDictid else .expectHc })

/-- EXPECT_CSIZE: 13 bytes must remain; then the value is captured; then it must not exceed LEN_MAX (R188). -/
def Obligations.CsizeIsCapturedThenRangeChecked : Prop :=
  ∀ (s : State) (v : Word),
    (s.inLen - s.pos < 13 → exec (.csize v) s = .next (errorEntry .truncCsize s)) ∧
    (s.pos + 13 ≤ s.inLen → s.cfg.lenMax < v.toNat →
      exec (.csize v) s = .next (errorEntry .csizeRange { s with csize := v })) ∧
    (s.pos + 13 ≤ s.inLen → v.toNat ≤ s.cfg.lenMax →
      exec (.csize v) s = .next { s with
        csize := v
        pos := s.pos + 8
        fsm := if s.flg.getLsbD 0 then .expectDictid else .expectHc })

/-- EXPECT_DICTID: always UNSUPPORTED_FEATURE, at the offset of the ID, with the error record the only thing written
(R189). -/
def Obligations.DictidIsAlwaysRejected : Prop :=
  ∀ (s : State) (id : BitVec 32),
    exec (.dictid id) s = .next { s with
      fsm := .error, bsub := .none, errKind := .unsupportedFeature, errCause := .dictidPresent, errPos := s.pos }

/-- EXPECT_HC: bits 15..8 of the hash of the header's bytes from offset 4 to the HC byte are compared, for whatever
function the hash is (R190, R191). -/
def Obligations.HeaderChecksumIsComparedWithTheHash : Prop :=
  ∀ (s : State) (c : Byte), s.pos + 1 ≤ s.inLen →
    (c = (hash s.cfg (inBytes s 4 s.pos)).extractLsb' 8 8 →
      exec (.hc c) s = .next { s with pos := s.pos + 1, fsm := .expectBlockmark }) ∧
    (c ≠ (hash s.cfg (inBytes s 4 s.pos)).extractLsb' 8 8 → exec (.hc c) s = .next (errorEntry .badHc s))

/-! ## The block loop and the trailer (43_frame_blocks.md) -/

/-- EXPECT_BLOCKMARK with the EndMark (R210). -/
def Obligations.EndmarkEndsTheBlocks : Prop :=
  ∀ s : State, s.pos + 4 ≤ s.inLen → exec .endmark s = .next { s with pos := s.pos + 4, fsm := .endFrame }

/-- EXPECT_BLOCKMARK with the mark of a compressed or of a stored block: the pre-flight counts the payload, the block
checksum and an EndMark; then the payload is framed and skipped, and its checksum or the payload itself is next (R211
to R213). -/
def Obligations.BlockMarkFramesThePayload : Prop :=
  ∀ (s : State) (size : BitVec 31), s.pos + 4 ≤ s.inLen →
    (s.inLen - (s.pos + 4) < size.toNat + (if s.flg.getLsbD 4 then 4 else 0) + 4 →
      exec (.bmarkC size) s = .next (errorEntry .truncBlock s) ∧
      exec (.bmarkS size) s = .next (errorEntry .truncBlock s)) ∧
    (size.toNat + (if s.flg.getLsbD 4 then 4 else 0) + 4 ≤ s.inLen - (s.pos + 4) →
      exec (.bmarkC size) s = .next { s with
        blkStored := false
        blkStart := s.pos + 4
        blkEnd := s.pos + 4 + size.toNat
        bpos := s.pos + 4
        blkOutBase := s.outLen
        winBase := if s.flg.getLsbD 5 then s.outLen else s.outLen - min s.outLen 65536
        pos := s.pos + 4 + size.toNat
        fsm := if s.flg.getLsbD 4 then .expectBlockchk else .expectBlock
        bsub := if s.flg.getLsbD 4 then s.bsub else .token } ∧
      exec (.bmarkS size) s = .next { s with
        blkStored := true
        blkStart := s.pos + 4
        blkEnd := s.pos + 4 + size.toNat
        bpos := s.pos + 4
        blkOutBase := s.outLen
        winBase := if s.flg.getLsbD 5 then s.outLen else s.outLen - min s.outLen 65536
        pos := s.pos + 4 + size.toNat
        fsm := if s.flg.getLsbD 4 then .expectBlockchk else .expectBlock
        bsub := if s.flg.getLsbD 4 then s.bsub else .stored })

/-- In dependent mode the window base admits exactly the offsets that the running output length admits; in independent
mode a block starts with reach 0 (R141, R155, R217, R218). -/
def Obligations.WindowBaseAdmitsTheRunningLength : Prop :=
  ∀ (s : State) (out o : Nat), s.outLen ≤ out → o ≤ 65535 →
    (independentBlocks s.flg = false → (o ≤ out - windowBase s ↔ o ≤ out)) ∧
    (independentBlocks s.flg = true → (o ≤ out - windowBase s ↔ o + s.outLen ≤ out))

/-- EXPECT_BLOCKCHK: the checksum of the payload as stored on the wire is compared before any of it is decoded; a
mismatch is CORRUPTED (R214). -/
def Obligations.BlockChecksumIsComparedBeforeDecoding : Prop :=
  ∀ (s : State) (c : BitVec 32), s.pos + 4 ≤ s.inLen →
    (c = hash s.cfg (inBytes s s.blkStart s.blkEnd) →
      exec (.bchk c) s = .next { s with
        pos := s.pos + 4, fsm := .expectBlock, bsub := if s.blkStored then .stored else .token }) ∧
    (c ≠ hash s.cfg (inBytes s s.blkStart s.blkEnd) →
      exec (.bchk c) s = .next { s with
        fsm := .error, bsub := .none, errKind := .corrupted, errCause := .badBlockChecksum, errPos := s.pos })

/-- A stored block's payload goes to OUT unread, whole or not at all, and the block is done; WIN gets the same bytes in
its ring places (of a payload longer than WIN, the last 65536); no other byte of OUT or WIN changes (R215). -/
def Obligations.StoredPayloadIsCopiedToTheOutput : Prop :=
  ∀ s : State,
    (s.cfg.outCap < s.outLen + (s.blkEnd - s.blkStart) → exec .payloadS s = .next (errorEntry .outCapacity s)) ∧
    (s.outLen + (s.blkEnd - s.blkStart) ≤ s.cfg.outCap →
      ∃ t, exec .payloadS s = .next t ∧
        t = { s with
          outMem := t.outMem
          winMem := t.winMem
          outLen := s.outLen + (s.blkEnd - s.blkStart)
          bpos := s.blkEnd
          bsub := .none
          fsm := .expectBlockmark } ∧
        (∀ k, k < s.blkEnd - s.blkStart → outByte t (s.outLen + k) = inByte s (s.blkStart + k)) ∧
        (∀ a, a < s.outLen ∨ s.outLen + (s.blkEnd - s.blkStart) ≤ a → outByte t a = outByte s a) ∧
        (∀ k, k < s.blkEnd - s.blkStart → s.blkEnd - s.blkStart ≤ k + 65536 →
          winByte t ((s.outLen + k) % 65536) = inByte s (s.blkStart + k)) ∧
        (∀ a, (∀ k, k < s.blkEnd - s.blkStart → a ≠ (s.outLen + k) % 65536) → winByte t a = winByte s a))

/-- END: the produced length must equal the announced content size; then the content checksum or DONE is next (R220). -/
def Obligations.EndChecksTheContentSize : Prop :=
  ∀ s : State, isEngineTurn s = true → s.fsm = .endFrame →
    (s.flg.getLsbD 3 = true → s.outLen ≠ s.csize.toNat → step s = .next (errorEntry .csizeMismatch (takeTurn s))) ∧
    (s.flg.getLsbD 3 = false ∨ s.outLen = s.csize.toNat →
      step s = .next { takeTurn s with fsm := if s.flg.getLsbD 2 then .expectContentchk else .done })

/-- EXPECT_CONTENTCHK: the hash of the whole output is compared; a mismatch is CHECKSUM_MISMATCH, and the output stays a
valid result (R221, R274). -/
def Obligations.ContentChecksumIsComparedWithTheOutput : Prop :=
  ∀ (s : State) (c : BitVec 32),
    (s.inLen - s.pos < 4 → exec (.cchk c) s = .next (errorEntry .truncCchk s)) ∧
    (s.pos + 4 ≤ s.inLen → c = hash s.cfg (outBytes s 0 s.outLen) →
      exec (.cchk c) s = .next { s with pos := s.pos + 4, fsm := .done }) ∧
    (s.pos + 4 ≤ s.inLen → c ≠ hash s.cfg (outBytes s 0 s.outLen) →
      exec (.cchk c) s = .next { s with
        fsm := .error, bsub := .none, errKind := .checksumMismatch, errCause := .contentChecksum, errPos := s.pos } ∧
      resultValid (errorEntry .contentChecksum s) = true)

/-! ## The block decoder (41_block_decoder.md) -/

/-- B_TOKEN: the block is done when its payload is exhausted, else the token's nibbles are taken (R142, R148). -/
def Obligations.TokenIsParsedOrTheBlockEnds : Prop :=
  ∀ (s : State) (lit mlb : BitVec 4),
    (s.bpos = s.blkEnd → exec (.token lit mlb) s = .next { s with bsub := .none, fsm := .expectBlockmark }) ∧
    (s.bpos < s.blkEnd → exec (.token lit mlb) s = .next { s with
      bpos := s.bpos + 1
      litLen := lit.toNat
      mlb := mlb
      bsub := if lit = 15 then .litext else .litcopy })

/-- B_LITEXT: the byte is added and consumed, unless the payload is exhausted or the sum would exceed LEN_MAX (R143). -/
def Obligations.LiteralExtensionIsAdded : Prop :=
  ∀ (s : State) (b : Byte),
    (s.bpos = s.blkEnd → exec (.litext b) s = .next (errorEntry .truncBlockRead s)) ∧
    (s.bpos < s.blkEnd → s.cfg.lenMax < s.litLen + b.toNat →
      exec (.litext b) s = .next (errorEntry .litlenOverflow s)) ∧
    (s.bpos < s.blkEnd → s.litLen + b.toNat ≤ s.cfg.lenMax → exec (.litext b) s = .next { s with
      litLen := s.litLen + b.toNat
      bpos := s.bpos + 1
      bsub := if b.toNat < 255 then .litcopy else .litext })

/-- B_LITCOPY: the run is checked for presence and then for capacity, and copied whole; the block is done when its
payload is exhausted; WIN gets the same bytes in its ring places; no other byte of OUT or WIN changes (R144). -/
def Obligations.LiteralRunIsCopiedToTheOutput : Prop :=
  ∀ s : State,
    (s.blkEnd - s.bpos < s.litLen → exec .literals s = .next (errorEntry .truncBlockRead s)) ∧
    (s.litLen ≤ s.blkEnd - s.bpos → s.cfg.outCap < s.outLen + s.litLen →
      exec .literals s = .next (errorEntry .outCapacity s)) ∧
    (s.litLen ≤ s.blkEnd - s.bpos → s.outLen + s.litLen ≤ s.cfg.outCap →
      ∃ t, exec .literals s = .next t ∧
        t = { s with
          outMem := t.outMem
          winMem := t.winMem
          outLen := s.outLen + s.litLen
          bpos := s.bpos + s.litLen
          bsub := if s.bpos + s.litLen = s.blkEnd then .none else .offset
          fsm := if s.bpos + s.litLen = s.blkEnd then .expectBlockmark else s.fsm } ∧
        (∀ k, k < s.litLen → outByte t (s.outLen + k) = inByte s (s.bpos + k)) ∧
        (∀ a, a < s.outLen ∨ s.outLen + s.litLen ≤ a → outByte t a = outByte s a) ∧
        (∀ k, k < s.litLen → s.litLen ≤ k + 65536 →
          winByte t ((s.outLen + k) % 65536) = inByte s (s.bpos + k)) ∧
        (∀ a, (∀ k, k < s.litLen → a ≠ (s.outLen + k) % 65536) → winByte t a = winByte s a))

/-- B_OFFSET: fewer than 2 bytes are TRUNCATED, then 0 and offsets beyond the reach are CORRUPTED; else the offset is taken and the match length
starts at 4 plus the token's nibble (R145). -/
def Obligations.OffsetIsCheckedAgainstTheReach : Prop :=
  ∀ (s : State) (o : BitVec 16),
    (s.blkEnd - s.bpos < 2 → exec (.offset o) s = .next (errorEntry .truncBlockRead s)) ∧
    (s.bpos + 2 ≤ s.blkEnd → exec (.offset 0) s = .next (errorEntry .badOffsetZero s)) ∧
    (s.bpos + 2 ≤ s.blkEnd → o ≠ 0 → s.outLen - s.winBase < o.toNat →
      exec (.offset o) s = .next (errorEntry .badOffsetRange s)) ∧
    (s.bpos + 2 ≤ s.blkEnd → o ≠ 0 → o.toNat ≤ s.outLen - s.winBase → exec (.offset o) s = .next { s with
      offset := o
      bpos := s.bpos + 2
      matchLen := 4 + s.mlb.toNat
      bsub := if s.mlb = 15 then .matchext else .matchcopy })

/-- B_MATCHEXT: the byte is added and consumed, unless the payload is exhausted or the sum would exceed LEN_MAX
(R146). -/
def Obligations.MatchExtensionIsAdded : Prop :=
  ∀ (s : State) (b : Byte),
    (s.bpos = s.blkEnd → exec (.mlext b) s = .next (errorEntry .truncBlockRead s)) ∧
    (s.bpos < s.blkEnd → s.cfg.lenMax < s.matchLen + b.toNat →
      exec (.mlext b) s = .next (errorEntry .matchlenOverflow s)) ∧
    (s.bpos < s.blkEnd → s.matchLen + b.toNat ≤ s.cfg.lenMax → exec (.mlext b) s = .next { s with
      matchLen := s.matchLen + b.toNat
      bpos := s.bpos + 1
      bsub := if b.toNat < 255 then .matchcopy else .matchext })

/-- B_MATCHCOPY: capacity is checked up front; each byte copied equals the byte of OUT that lies `offset` before it,
also where that byte is one the same copy produced; WIN gets the same bytes in its ring places; no other byte of OUT or
WIN changes (R147). That WIN mirrors OUT and that the offset is within the output are invariants stated below. -/
def Obligations.MatchCopyRepeatsTheOutputBehindIt : Prop :=
  ∀ s : State,
    (s.cfg.outCap < s.outLen + s.matchLen → exec .matchcopy s = .next (errorEntry .outCapacity s)) ∧
    (s.outLen + s.matchLen ≤ s.cfg.outCap →
      ∃ t, exec .matchcopy s = .next t ∧
        t = { s with
          outMem := t.outMem, winMem := t.winMem, outLen := s.outLen + s.matchLen, bsub := .token } ∧
        (WindowMirrors s → 1 ≤ s.offset.toNat → s.offset.toNat ≤ s.outLen →
          ∀ k, k < s.matchLen → outByte t (s.outLen + k) = outByte t (s.outLen + k - s.offset.toNat)) ∧
        (∀ a, a < s.outLen ∨ s.outLen + s.matchLen ≤ a → outByte t a = outByte s a) ∧
        (∀ k, k < s.matchLen → s.matchLen ≤ k + 65536 →
          winByte t ((s.outLen + k) % 65536) = outByte t (s.outLen + k)) ∧
        (∀ a, (∀ k, k < s.matchLen → a ≠ (s.outLen + k) % 65536) → winByte t a = winByte s a))

/-- A match at offset 1 replicates the last byte of the output (R158). -/
def Obligations.OffsetOneReplicatesTheLastByte : Prop :=
  ∀ s t : State, WindowMirrors s → s.offset = 1 → 1 ≤ s.outLen → s.outLen + s.matchLen ≤ s.cfg.outCap →
    exec .matchcopy s = .next t →
    ∀ j, s.outLen - 1 ≤ j → j < s.outLen + s.matchLen → outByte t j = outByte s (s.outLen - 1)

/-- One step of a compressed block, in each of its sub-states, is `payload.c` (R216). -/
def Obligations.CompressedPayloadStepsByItsSubState : Prop :=
  ∀ s : State, isEngineTurn s = true → s.fsm = .expectBlock → s.bsub ≠ .none → s.bsub ≠ .stored →
    step s = exec .payloadC (takeTurn s)

/-- `payload.c` is the block decoder's rule for the current sub-state, on the payload's own bytes: it parses a token or
ends the block, adds an extension byte, copies the literals, takes an offset, or copies the match; a payload exhausted
inside an extension chain or an offset is TRUNC_BLOCK_READ, and a length above LEN_MAX its overflow (R216). -/
def Obligations.CompressedPayloadRunsTheRuleOfItsSubState : Prop :=
  ∀ s : State,
    (s.bsub = .token → s.bpos = s.blkEnd →
      exec .payloadC s = .next { s with bsub := .none, fsm := .expectBlockmark }) ∧
    (s.bsub = .token → s.bpos < s.blkEnd →
      exec .payloadC s = .next { s with
        bpos := s.bpos + 1
        litLen := ((inByte s s.bpos).extractLsb' 4 4).toNat
        mlb := (inByte s s.bpos).extractLsb' 0 4
        bsub := if (inByte s s.bpos).extractLsb' 4 4 = 15 then .litext else .litcopy }) ∧
    (s.bsub = .litext → s.bpos < s.blkEnd → s.litLen + (inByte s s.bpos).toNat ≤ s.cfg.lenMax →
      exec .payloadC s = .next { s with
        litLen := s.litLen + (inByte s s.bpos).toNat
        bpos := s.bpos + 1
        bsub := if (inByte s s.bpos).toNat < 255 then .litcopy else .litext }) ∧
    (s.bsub = .litext → s.bpos = s.blkEnd → exec .payloadC s = .next (errorEntry .truncBlockRead s)) ∧
    (s.bsub = .litext → s.bpos < s.blkEnd → s.cfg.lenMax < s.litLen + (inByte s s.bpos).toNat →
      exec .payloadC s = .next (errorEntry .litlenOverflow s)) ∧
    (s.bsub = .litcopy → exec .payloadC s = exec .literals s) ∧
    (s.bsub = .offset → s.blkEnd - s.bpos < 2 → exec .payloadC s = .next (errorEntry .truncBlockRead s)) ∧
    (s.bsub = .offset → s.bpos + 2 ≤ s.blkEnd →
      exec .payloadC s = exec (.offset (inByte s (s.bpos + 1) ++ inByte s s.bpos)) s) ∧
    (s.bsub = .matchext → s.bpos < s.blkEnd → s.matchLen + (inByte s s.bpos).toNat ≤ s.cfg.lenMax →
      exec .payloadC s = .next { s with
        matchLen := s.matchLen + (inByte s s.bpos).toNat
        bpos := s.bpos + 1
        bsub := if (inByte s s.bpos).toNat < 255 then .matchcopy else .matchext }) ∧
    (s.bsub = .matchext → s.bpos = s.blkEnd → exec .payloadC s = .next (errorEntry .truncBlockRead s)) ∧
    (s.bsub = .matchext → s.bpos < s.blkEnd → s.cfg.lenMax < s.matchLen + (inByte s s.bpos).toNat →
      exec .payloadC s = .next (errorEntry .matchlenOverflow s)) ∧
    (s.bsub = .matchcopy → exec .payloadC s = exec .matchcopy s)

/-! ## The host's commands (44_host_interface.md) -/

/-- START when not BUSY clears the run and makes the prelude check, in one step; IN, `in_len`, OUT and WIN stay
(R180, R250). -/
def Obligations.StartBeginsARun : Prop :=
  ∀ (s : State) (v : Word), busy s = false →
    (11 ≤ s.inLen →
      exec (.start v) s = .next { s with
        irqEn := v.getLsbD 1, fsm := .expectMagic, bsub := .none, pos := 0, bpos := 0, outLen := 0, blkStart := 0,
        blkEnd := 0, blkStored := false, blkOutBase := 0, winBase := 0, litLen := 0, matchLen := 0, mlb := 0,
        offset := 0, flg := 0, bd := 0, csize := 0, errKind := .none, errCause := .none, errPos := 0 }) ∧
    (s.inLen < 11 →
      exec (.start v) s = .next { s with
        irqEn := v.getLsbD 1, fsm := .error, bsub := .none, pos := 0, bpos := 0, outLen := 0, blkStart := 0,
        blkEnd := 0, blkStored := false, blkOutBase := 0, winBase := 0, litLen := 0, matchLen := 0, mlb := 0,
        offset := 0, flg := 0, bd := 0, csize := 0, errKind := .truncated, errCause := .truncPrelude, errPos := 0 })

/-- Every CTRL write sets IRQ_EN to bit 1; with START clear, or while BUSY, it changes nothing else (R251, R252). -/
def Obligations.CtrlWriteSetsTheInterruptEnable : Prop :=
  ∀ (s : State) (v : Word),
    exec (.ctrlW v) s = .next { s with irqEn := v.getLsbD 1 } ∧
    (∃ t, exec (.start v) s = .next t ∧ t.irqEn = v.getLsbD 1) ∧
    (busy s = true → exec (.start v) s = .next { s with irqEn := v.getLsbD 1 })

/-- IN_LEN takes the smaller of the value and IN_CAP when not BUSY, and ignores the write while BUSY (R253). -/
def Obligations.InLenWriteClampsToTheCapacity : Prop :=
  ∀ (s : State) (v : Word),
    (busy s = false → exec (.inLenW v) s = .next { s with inLen := min v.toNat s.cfg.inCap }) ∧
    (busy s = true → exec (.inLenW v) s = .next s)

/-- A host write of IN changes that byte alone when not BUSY, and nothing while BUSY (R254). -/
def Obligations.InputWriteChangesOneByte : Prop :=
  ∀ (s : State) (i : Nat) (b : Byte), i < s.cfg.inCap →
    (busy s = true → exec (.inW i b) s = .next s) ∧
    (busy s = false → ∃ t, exec (.inW i b) s = .next t ∧ t = { s with inMem := t.inMem } ∧
      inByte t i = b ∧ ∀ a, a ≠ i → inByte t a = inByte s a)

/-- Writes to OUT and to read-only or reserved registers are ignored in every state (R255, R258). That R255's "every
index" means the indices below OUT_CAP is the model's reading beside R64 (DEDUCED, log 22). -/
def Obligations.IgnoredWritesChangeNothing : Prop :=
  ∀ (s : State) (v : Word),
    (∀ (i : Nat) (b : Byte), i < s.cfg.outCap → exec (.outW i b) s = .next s) ∧
    (∀ r : Reg, r ≠ .ctrl → r ≠ .inLen → exec (.roW r v) s = .next s ∧ decodeRegWrite r v = .roW r v)

/-- A register read hands the host the register's value and changes nothing of the core (R67, R256). That the value
stands in the field `hostData` is the model's choice (log 6). -/
def Obligations.RegisterReadReturnsTheRegister : Prop :=
  ∀ (s : State) (r : Reg), exec (.regR r) s = .next { s with hostData := regValue r s }

/-- What every register holds: CTRL, STATUS, ERRINFO, HDR and the reserved registers bit by bit (R45, R46, R47, R52,
R54); and the registers that show a count show it exactly in every state in bounds, during a run and after it, since no
value exceeds its 64 bits (R48 to R51, R53). -/
def Obligations.RegisterFieldsAreTheStates : Prop :=
  ∀ s : State,
    ((regValue .ctrl s).getLsbD 1 = s.irqEn ∧ ∀ n, n ≠ 1 → (regValue .ctrl s).getLsbD n = false) ∧
    ((regValue .status s).extractLsb' 0 4 = BitVec.ofNat 4 (fsmCode s.fsm) ∧
      (regValue .status s).extractLsb' 4 3 = BitVec.ofNat 3 (bsubCode s.bsub) ∧
      (regValue .status s).getLsbD 7 = false ∧
      (regValue .status s).getLsbD 8 = busy s ∧
      (regValue .status s).getLsbD 9 = decide (s.fsm = .done) ∧
      (regValue .status s).getLsbD 10 = decide (s.fsm = .error) ∧
      (regValue .status s).getLsbD 11 =
        decide (s.fsm = .done ∨ (s.fsm = .error ∧ s.errKind = .checksumMismatch)) ∧
      (regValue .status s).getLsbD 12 = (s.irqEn && decide (s.fsm = .done ∨ s.fsm = .error)) ∧
      (regValue .status s).extractLsb' 13 51 = 0) ∧
    ((regValue .errinfo s).extractLsb' 0 3 = BitVec.ofNat 3 (kindCode s.errKind) ∧
      (regValue .errinfo s).extractLsb' 3 5 = 0 ∧
      (regValue .errinfo s).extractLsb' 8 8 = BitVec.ofNat 8 (causeCode s.errCause) ∧
      (regValue .errinfo s).extractLsb' 16 48 = 0) ∧
    ((regValue .hdr s).extractLsb' 0 8 = s.flg ∧ (regValue .hdr s).extractLsb' 8 8 = s.bd ∧
      (regValue .hdr s).extractLsb' 16 48 = 0) ∧
    (∀ k, regValue (.reserved k) s = 0) ∧
    regValue .contentSize s = s.csize ∧
    (s.cfg.Ok → RunBounds s →
      (regValue .inLen s).toNat = s.inLen ∧ (regValue .outLen s).toNat = s.outLen ∧
      (regValue .inPos s).toNat = s.pos ∧ (regValue .blkPos s).toNat = s.bpos ∧
      (regValue .errPos s).toNat = s.errPos)

/-- A read of OUT returns the byte the run appended there when not BUSY, and a free value otherwise (R257); a read of IN
returns the byte (R60); neither changes anything of the core (R67). The fields `hostData` and `draws` are the model's
(log 5, log 6). -/
def Obligations.MemoryReadsReturnTheByte : Prop :=
  (∀ (s : State) (i : Nat), i < s.cfg.outCap →
    (busy s = false → i < s.outLen → exec (.outR i) s = .next { s with hostData := (outByte s i).setWidth 64 }) ∧
    (busy s = true ∨ s.outLen ≤ i → exec (.outR i) s = .next { s with
      hostData := (Config.drawByte s.draws).setWidth 64, draws := s.draws + 1 })) ∧
  (∀ (s : State) (rest : List Turn) (i : Nat), s.cfg.Ok → i < s.cfg.inCap →
    step { s with agenda := .host (.read (s.cfg.inBase + i) 1) :: rest } =
      .next { s with agenda := rest, hostData := (inByte s i).setWidth 64 })

/-- Reset, in any state, gives every register and field its reset value and every memory byte a new free value (R300,
R301). That the free values are named by a count of resets is the model's choice (log 4). -/
def Obligations.ResetGivesEveryFieldItsResetValue : Prop :=
  ∀ s : State, ∃ t, exec .reset s = .next t ∧
    t.fsm = .idle ∧ t.bsub = .none ∧ t.pos = 0 ∧ t.bpos = 0 ∧
    t.blkStart = 0 ∧ t.blkEnd = 0 ∧ t.blkStored = false ∧ t.blkOutBase = 0 ∧ t.winBase = 0 ∧
    t.litLen = 0 ∧ t.matchLen = 0 ∧ t.mlb = 0 ∧ t.offset = 0 ∧ t.outLen = 0 ∧
    t.flg = 0 ∧ t.bd = 0 ∧ t.csize = 0 ∧ t.errKind = .none ∧ t.errCause = .none ∧ t.errPos = 0 ∧
    t.irqEn = false ∧ t.inLen = 0 ∧ t.cfg = s.cfg ∧
    busy t = false ∧ isDone t = false ∧ isError t = false ∧ resultValid t = false ∧ irq t = false ∧
    (∀ r, regValue r t = 0) ∧
    (∀ i, inByte t i = Config.resetByte .input (s.epoch + 1) i ∧
      outByte t i = Config.resetByte .output (s.epoch + 1) i ∧
      winByte t i = Config.resetByte .window (s.epoch + 1) i)

/-! ## Errors (60_exceptions.md) -/

/-- Taking an error writes the record, with the kind and the position of the cause, stops the FSM, and changes nothing
else (R272, R273). -/
def Obligations.ErrorEntryWritesOnlyTheRecord : Prop :=
  ∀ (s : State) (c : Cause),
    raise c s = .next { s with
      fsm := .error
      bsub := .none
      errKind := causeKind c
      errCause := c
      errPos := match c with
        | .none => 0
        | .truncPrelude => 0
        | .truncBlockRead => s.bpos
        | .badOffsetZero => s.bpos
        | .badOffsetRange => s.bpos
        | .litlenOverflow => s.bpos
        | .matchlenOverflow => s.bpos
        | .outCapacity => s.bpos
        | _ => s.pos }

/-- The codes of the four tables: FSM states (10_state.md R21), sub-states (R22), error kinds (60_exceptions.md R270) and
causes (R271), each table complete; a cause's code names its kind by its high nibble, and no two causes share a code. -/
def Obligations.CauseCodesNameTheirKind : Prop :=
  (∀ c : Cause, c ≠ .none → kindCode (causeKind c) = causeCode c / 16 + 1) ∧
  (causeKind .none = .none ∧ causeCode .none = 0) ∧
  (∀ c d : Cause, causeCode c = causeCode d → c = d) ∧
  ([Fsm.idle, .expectMagic, .expectFlg, .expectBd, .expectCsize, .expectDictid, .expectHc, .expectBlockmark,
      .expectBlockchk, .expectBlock, .endFrame, .expectContentchk, .done, .error].map fsmCode =
    [0, 1, 2, 3, 4, 5, 6, 7, 8, 9, 10, 11, 12, 13] ∧ ∀ f, fsmCode f < 14) ∧
  ([Bsub.none, .token, .litext, .litcopy, .offset, .matchext, .matchcopy, .stored].map bsubCode =
    [0, 1, 2, 3, 4, 5, 6, 7] ∧ ∀ b, bsubCode b < 8) ∧
  ([ErrKind.none, .truncated, .corrupted, .checksumMismatch, .unsupportedFeature].map kindCode = [0, 1, 2, 3, 4] ∧
    ∀ k, kindCode k < 5) ∧
  [Cause.none, .truncPrelude, .truncRead, .truncCsize, .truncBlock, .truncCchk, .truncBlockRead].map causeCode =
    [0x00, 0x01, 0x02, 0x03, 0x04, 0x05, 0x06] ∧
  [Cause.badMagic, .badFlgVersion, .badFlgReserved, .badBdReserved, .badHc, .badBlockChecksum, .badOffsetZero,
      .badOffsetRange, .csizeMismatch].map causeCode =
    [0x10, 0x11, 0x12, 0x13, 0x14, 0x15, 0x16, 0x17, 0x18] ∧
  causeCode .contentChecksum = 0x20 ∧
  [Cause.dictidPresent, .csizeRange, .litlenOverflow, .matchlenOverflow, .outCapacity].map causeCode =
    [0x30, 0x31, 0x32, 0x33, 0x34]

/-- Errors are precise: a step of the engine that ends in ERROR has written nothing but the error record and the capture
registers (R276). -/
def Obligations.ErrorsArePrecise : Prop :=
  ∀ s t : State, isEngineTurn s = true → s.fsm ≠ .error → step s = .next t → t.fsm = .error →
    t = { takeTurn s with
      fsm := .error, bsub := .none, errKind := t.errKind, errCause := t.errCause, errPos := t.errPos,
      flg := t.flg, bd := t.bd, csize := t.csize }

/-- In IDLE, DONE and ERROR the engine takes no step, and only START and reset leave them: until then the error record
holds, and so do the output and the window (R275, R281). -/
def Obligations.OnlyStartAndResetLeaveAQuiescentState : Prop :=
  ∀ s t : State, busy s = false → step s = .next t →
    (isEngineTurn s = true → t = takeTurn s) ∧
    ((t.fsm = s.fsm ∧ t.errKind = s.errKind ∧ t.errCause = s.errCause ∧ t.errPos = s.errPos ∧ t.outLen = s.outLen ∧
      t.outMem = s.outMem ∧ t.winMem = s.winMem) ∨
    (∃ v, fetch s = .instr (.start v)) ∨ fetch s = .instr .reset)

/-- The interrupt line rises on the very step that ends a run, exactly if it is enabled (R71, R279). -/
def Obligations.InterruptRisesWhenTheRunEnds : Prop :=
  ∀ s t : State, isEngineTurn s = true → busy s = true → step s = .next t →
    irq s = false ∧ (busy t = false → irq t = s.irqEn ∧ (t.fsm = .done ∨ t.fsm = .error))

/-! ## Frames over families -/

/-- A block decoder step changes neither the frame cursor, nor the frame descriptor, nor the input, nor the block's
bounds, nor anything of the host; it writes OUT only at the indices it appends, WIN only at their ring places, and nothing
at all where it parses a token, an extension byte or an offset (R159). -/
def Obligations.BlockDecoderIsConfined : Prop :=
  ∀ (s t : State) (lit mlb : BitVec 4) (b : Byte) (o : BitVec 16) (i : Instr),
    i ∈ [Instr.token lit mlb, .litext b, .literals, .offset o, .mlext b, .matchcopy, .payloadC] →
    exec i s = .next t →
    t = { s with
      fsm := t.fsm, bsub := t.bsub, bpos := t.bpos, litLen := t.litLen, matchLen := t.matchLen, mlb := t.mlb,
      offset := t.offset, outLen := t.outLen, outMem := t.outMem, winMem := t.winMem,
      errKind := t.errKind, errCause := t.errCause, errPos := t.errPos } ∧
    s.outLen ≤ t.outLen ∧
    (∀ a, a < s.outLen ∨ t.outLen ≤ a → outByte t a = outByte s a) ∧
    (∀ a, (∀ j, s.outLen ≤ j → j < t.outLen → a ≠ j % 65536) → winByte t a = winByte s a) ∧
    (i ∈ [Instr.token lit mlb, .litext b, .offset o, .mlext b] ∨
        (i = .payloadC ∧ s.bsub ∈ [Bsub.token, .litext, .offset, .matchext]) →
      t.outLen = s.outLen ∧ t.outMem = s.outMem ∧ t.winMem = s.winMem)

/-- A header element, a block mark, a block checksum, an EndMark or a content checksum writes no memory and no datapath
register, and leaves the output length alone (R56, R181 to R214, R221). -/
def Obligations.FrameStepsWriteNoOutput : Prop :=
  ∀ (s t : State) (m : BitVec 32) (b : Byte) (v : Word) (size : BitVec 31) (i : Instr),
    i ∈ [Instr.magic m, .flg b, .bd b, .csize v, .dictid m, .hc b, .endmark, .bmarkC size, .bmarkS size, .bchk m,
      .cchk m] →
    exec i s = .next t →
    t = { s with
      fsm := t.fsm, bsub := t.bsub, pos := t.pos, bpos := t.bpos, flg := t.flg, bd := t.bd, csize := t.csize,
      blkStart := t.blkStart, blkEnd := t.blkEnd, blkStored := t.blkStored, blkOutBase := t.blkOutBase,
      winBase := t.winBase, errKind := t.errKind, errCause := t.errCause, errPos := t.errPos } ∧
    (∀ a, inByte t a = inByte s a ∧ outByte t a = outByte s a ∧ winByte t a = winByte s a)

/-! ## Invariants and whole-machine rules -/

/-- Every step keeps the memories inside their spaces (20_memory.md R60, 60_exceptions.md R289) and in the model's
canonical form (DESIGN CHOICE, log 4). -/
def Obligations.StepKeepsMemoryCanonical : Prop :=
  ∀ s t : State, MemoryCanonical s → step s = .next t → MemoryCanonical t

/-- Every step keeps the control state consistent: BSUB is NONE outside EXPECT_BLOCK, and the error record is set exactly
in ERROR with the kind of its cause (R22, R36). -/
def Obligations.StepKeepsControlConsistent : Prop :=
  ∀ s t : State, ControlConsistent s → step s = .next t → ControlConsistent t

/-- Every step keeps the frame descriptor checked: no block is reached in a frame with a reserved bit, a wrong version, a
dictionary ID or a content size out of range (R184, R187, R189). -/
def Obligations.StepKeepsHeaderChecked : Prop :=
  ∀ s t : State, HeaderChecked s → step s = .next t → HeaderChecked t

/-- Every step keeps the cursors and lengths in range (R23 to R32, R36, R156): in each state of a run what earlier checks
reserved, and in every state the cursors and the error position at most IN_CAP (log 13). -/
def Obligations.StepKeepsRunBounds : Prop :=
  ∀ s t : State, s.cfg.Ok → RunBounds s → step s = .next t → RunBounds t

/-- Every step keeps WIN a mirror of the last 64 KiB of OUT (R41). -/
def Obligations.StepKeepsWindowMirror : Prop :=
  ∀ s t : State, WindowMirrors s → step s = .next t → WindowMirrors t

/-- The state after reset is sound on every admissible instance (R300). -/
def Obligations.ResetStateIsSound : Prop :=
  ∀ p : Params, p.Ok → Sound (State.resetWith p)

/-- TRUNC_READ is never raised: every frame read is covered by an earlier check (R286). -/
def Obligations.TruncReadIsNeverRaised : Prop :=
  ∀ s t : State, s.cfg.Ok → RunBounds s → s.errCause ≠ .truncRead → step s = .next t → t.errCause ≠ .truncRead

/-- In a sound state the engine's turn always completes: no input makes the model stop, and every byte the engine
appends lies in OUT (R289). -/
def Obligations.EngineTurnAlwaysCompletes : Prop :=
  ∀ s : State, Sound s → isEngineTurn s = true → ∃ t, step s = .next t ∧ Sound t

/-- A run left to itself ends in DONE or ERROR, within 8 steps an input byte and 16 more; the bound is the model's own
(R225, R289). -/
def Obligations.EveryRunTerminates : Prop :=
  ∀ s : State, Sound s → busy s = true → s.agenda = [] →
    ∃ (n : Nat) (t : State), n ≤ 8 * s.inLen + 16 ∧ Host.Core.run Sys2Proof.core n s = .next t ∧
      (t.fsm = .done ∨ t.fsm = .error)

/-- During a run neither the input nor its length changes, whatever the host does short of a reset (R74). -/
def Obligations.InputIsFixedDuringARun : Prop :=
  ∀ s t : State, busy s = true → fetch s ≠ .instr .reset → step s = .next t →
    t.inLen = s.inLen ∧ ∀ a, inByte t a = inByte s a

/-- While BUSY, no host access short of a reset touches the run: only IRQ_EN and what belongs to the host side of the
model can change (R251, R253, R254, R302). -/
def Obligations.OnlyResetCancelsARun : Prop :=
  ∀ s t : State, busy s = true → isEngineTurn s = false → fetch s ≠ .instr .reset → step s = .next t →
    t = { s with agenda := s.agenda.tail, irqEn := t.irqEn, hostData := t.hostData, draws := t.draws }

/-- Within a run the output only grows: a step that is neither START nor reset shortens nothing and changes no byte
already produced (R32). -/
def Obligations.OutputGrowsMonotonically : Prop :=
  ∀ s t : State, (∀ v, fetch s ≠ .instr (.start v)) → fetch s ≠ .instr .reset → step s = .next t →
    s.outLen ≤ t.outLen ∧ ∀ a, a < s.outLen → outByte t a = outByte s a

/-- The engine depends only on the bytes of the frame: with IN changed at or above `in_len`, a step of the engine does
the same (R39, R289). -/
def Obligations.EngineReadsOnlyTheFrame : Prop :=
  ∀ (s t : State) (m : Mem), RunBounds s → isEngineTurn s = true →
    (∀ a, a < s.inLen → inByte { s with inMem := m } a = inByte s a) →
    step s = .next t → step { s with inMem := m } = .next { t with inMem := m }
end

