-- ==== Sys2Proof/Laws/Memory.lean ====
section
/-! SUPPORT. The byte memories: a read after a write, and the canonical form, which every write keeps (log 4). -/

namespace Sys2Proof.Laws

open Sys2Proof.Machine

@[simp] theorem memGet_memSet_same (m : Mem) (x : Nat) (v : Byte) : memGet (memSet m x v) x = some v := by
  induction m with
  | nil => simp [memSet, memGet]
  | cons c m ih =>
    obtain ⟨a, b⟩ := c
    simp only [memSet]
    split
    · simp [memGet]
    · split
      · simp [memGet]
      · next h => simp [memGet, h, ih]

theorem memGet_memSet_ne (m : Mem) {x y : Nat} (v : Byte) (h : y ≠ x) : memGet (memSet m x v) y = memGet m y := by
  induction m with
  | nil => simp [memSet, memGet, h]
  | cons c m ih =>
    obtain ⟨a, b⟩ := c
    simp only [memSet]
    split
    · simp [memGet, h]
    · split
      · next e => subst e; simp [memGet, h]
      · simp [memGet, ih]

theorem memGet_memSet (m : Mem) (x y : Nat) (v : Byte) :
    memGet (memSet m x v) y = if y = x then some v else memGet m y := by
  split
  · next h => subst h; simp
  · next h => exact memGet_memSet_ne m v h

/-- A canonical memory that begins with an address below `a` may be extended at the front by one below it. -/
theorem memWf_cons {a : Nat} {b : Byte} {m : Mem} :
    memWf ((a, b) :: m) = true ↔ (∀ c ∈ m.head?, a < c.1) ∧ memWf m = true := by
  cases m with
  | nil => simp [memWf]
  | cons c m => obtain ⟨a', b'⟩ := c; simp [memWf]

theorem memSet_head (m : Mem) (x : Nat) (v : Byte) :
    ∀ c ∈ (memSet m x v).head?, c.1 = x ∨ c ∈ m.head? := by
  cases m with
  | nil => simp [memSet]
  | cons d m =>
    obtain ⟨a, b⟩ := d
    simp only [memSet]
    split
    · simp
    · split
      · simp
      · simp

/-- Writing keeps the canonical form. -/
theorem memWf_memSet {m : Mem} (x : Nat) (v : Byte) (h : memWf m = true) : memWf (memSet m x v) = true := by
  induction m with
  | nil => simp [memSet, memWf]
  | cons c m ih =>
    obtain ⟨a, b⟩ := c
    rw [memWf_cons] at h
    simp only [memSet]
    split
    · next hlt => rw [memWf_cons, memWf_cons]; simpa [hlt] using h
    · next hge =>
      split
      · next e => subst e; rw [memWf_cons]; exact h
      · next hne =>
        rw [memWf_cons]
        refine ⟨fun c hc => ?_, ih h.2⟩
        rcases memSet_head m x v c hc with e | e
        · omega
        · exact h.1 c e

theorem mem_memSet {m : Mem} {x : Nat} {v : Byte} {c : Host.Cell} (h : c ∈ memSet m x v) : c = (x, v) ∨ c ∈ m := by
  induction m with
  | nil => simpa [memSet] using h
  | cons d m ih =>
    obtain ⟨a, b⟩ := d
    simp only [memSet] at h
    split at h
    · simpa using h
    · split at h
      · rcases List.mem_cons.1 h with e | e
        · exact .inl e
        · exact .inr (List.mem_cons_of_mem _ e)
      · rcases List.mem_cons.1 h with e | e
        · exact .inr (by simp [e])
        · rcases ih e with e | e
          · exact .inl e
          · exact .inr (List.mem_cons_of_mem _ e)

/-- Writing below the bound keeps every address below it. -/
theorem memBelow_memSet {n : Nat} {m : Mem} {x : Nat} (v : Byte) (hx : x < n) (h : memBelow n m = true) :
    memBelow n (memSet m x v) = true := by
  simp only [memBelow, List.all_eq_true, decide_eq_true_eq] at h ⊢
  intro c hc
  rcases mem_memSet hc with e | e
  · subst e; exact hx
  · exact h c e

end Sys2Proof.Laws
end

