-- ==== Sys2Proof/Laws/State.lean ====
section
/-! SUPPORT. What each named update of the state leaves in each field, one lemma per field per update, so that no proof
unfolds a record update. -/

namespace Sys2Proof.Laws

open Sys2Proof.Machine

/-! ### appendByte -/

@[simp] theorem appendByte_cfg (b : Byte) (s : State) : (appendByte b s).cfg = s.cfg := rfl
@[simp] theorem appendByte_fsm (b : Byte) (s : State) : (appendByte b s).fsm = s.fsm := rfl
@[simp] theorem appendByte_bsub (b : Byte) (s : State) : (appendByte b s).bsub = s.bsub := rfl
@[simp] theorem appendByte_pos (b : Byte) (s : State) : (appendByte b s).pos = s.pos := rfl
@[simp] theorem appendByte_bpos (b : Byte) (s : State) : (appendByte b s).bpos = s.bpos := rfl
@[simp] theorem appendByte_inLen (b : Byte) (s : State) : (appendByte b s).inLen = s.inLen := rfl
@[simp] theorem appendByte_blkStart (b : Byte) (s : State) : (appendByte b s).blkStart = s.blkStart := rfl
@[simp] theorem appendByte_blkEnd (b : Byte) (s : State) : (appendByte b s).blkEnd = s.blkEnd := rfl
@[simp] theorem appendByte_blkStored (b : Byte) (s : State) : (appendByte b s).blkStored = s.blkStored := rfl
@[simp] theorem appendByte_blkOutBase (b : Byte) (s : State) : (appendByte b s).blkOutBase = s.blkOutBase := rfl
@[simp] theorem appendByte_winBase (b : Byte) (s : State) : (appendByte b s).winBase = s.winBase := rfl
@[simp] theorem appendByte_litLen (b : Byte) (s : State) : (appendByte b s).litLen = s.litLen := rfl
@[simp] theorem appendByte_matchLen (b : Byte) (s : State) : (appendByte b s).matchLen = s.matchLen := rfl
@[simp] theorem appendByte_mlb (b : Byte) (s : State) : (appendByte b s).mlb = s.mlb := rfl
@[simp] theorem appendByte_offset (b : Byte) (s : State) : (appendByte b s).offset = s.offset := rfl
@[simp] theorem appendByte_outLen (b : Byte) (s : State) : (appendByte b s).outLen = s.outLen + 1 := rfl
@[simp] theorem appendByte_flg (b : Byte) (s : State) : (appendByte b s).flg = s.flg := rfl
@[simp] theorem appendByte_bd (b : Byte) (s : State) : (appendByte b s).bd = s.bd := rfl
@[simp] theorem appendByte_csize (b : Byte) (s : State) : (appendByte b s).csize = s.csize := rfl
@[simp] theorem appendByte_errKind (b : Byte) (s : State) : (appendByte b s).errKind = s.errKind := rfl
@[simp] theorem appendByte_errCause (b : Byte) (s : State) : (appendByte b s).errCause = s.errCause := rfl
@[simp] theorem appendByte_errPos (b : Byte) (s : State) : (appendByte b s).errPos = s.errPos := rfl
@[simp] theorem appendByte_irqEn (b : Byte) (s : State) : (appendByte b s).irqEn = s.irqEn := rfl
@[simp] theorem appendByte_inMem (b : Byte) (s : State) : (appendByte b s).inMem = s.inMem := rfl
@[simp] theorem appendByte_outMem (b : Byte) (s : State) : (appendByte b s).outMem = memSet s.outMem s.outLen b := rfl
@[simp] theorem appendByte_winMem (b : Byte) (s : State) : (appendByte b s).winMem = memSet s.winMem (s.outLen % windowSize) b := rfl
@[simp] theorem appendByte_agenda (b : Byte) (s : State) : (appendByte b s).agenda = s.agenda := rfl
@[simp] theorem appendByte_hostData (b : Byte) (s : State) : (appendByte b s).hostData = s.hostData := rfl
@[simp] theorem appendByte_draws (b : Byte) (s : State) : (appendByte b s).draws = s.draws := rfl
@[simp] theorem appendByte_epoch (b : Byte) (s : State) : (appendByte b s).epoch = s.epoch := rfl

/-! ### errorEntry -/

@[simp] theorem errorEntry_cfg (c : Cause) (s : State) : (errorEntry c s).cfg = s.cfg := rfl
@[simp] theorem errorEntry_fsm (c : Cause) (s : State) : (errorEntry c s).fsm = .error := rfl
@[simp] theorem errorEntry_bsub (c : Cause) (s : State) : (errorEntry c s).bsub = .none := rfl
@[simp] theorem errorEntry_pos (c : Cause) (s : State) : (errorEntry c s).pos = s.pos := rfl
@[simp] theorem errorEntry_bpos (c : Cause) (s : State) : (errorEntry c s).bpos = s.bpos := rfl
@[simp] theorem errorEntry_inLen (c : Cause) (s : State) : (errorEntry c s).inLen = s.inLen := rfl
@[simp] theorem errorEntry_blkStart (c : Cause) (s : State) : (errorEntry c s).blkStart = s.blkStart := rfl
@[simp] theorem errorEntry_blkEnd (c : Cause) (s : State) : (errorEntry c s).blkEnd = s.blkEnd := rfl
@[simp] theorem errorEntry_blkStored (c : Cause) (s : State) : (errorEntry c s).blkStored = s.blkStored := rfl
@[simp] theorem errorEntry_blkOutBase (c : Cause) (s : State) : (errorEntry c s).blkOutBase = s.blkOutBase := rfl
@[simp] theorem errorEntry_winBase (c : Cause) (s : State) : (errorEntry c s).winBase = s.winBase := rfl
@[simp] theorem errorEntry_litLen (c : Cause) (s : State) : (errorEntry c s).litLen = s.litLen := rfl
@[simp] theorem errorEntry_matchLen (c : Cause) (s : State) : (errorEntry c s).matchLen = s.matchLen := rfl
@[simp] theorem errorEntry_mlb (c : Cause) (s : State) : (errorEntry c s).mlb = s.mlb := rfl
@[simp] theorem errorEntry_offset (c : Cause) (s : State) : (errorEntry c s).offset = s.offset := rfl
@[simp] theorem errorEntry_outLen (c : Cause) (s : State) : (errorEntry c s).outLen = s.outLen := rfl
@[simp] theorem errorEntry_flg (c : Cause) (s : State) : (errorEntry c s).flg = s.flg := rfl
@[simp] theorem errorEntry_bd (c : Cause) (s : State) : (errorEntry c s).bd = s.bd := rfl
@[simp] theorem errorEntry_csize (c : Cause) (s : State) : (errorEntry c s).csize = s.csize := rfl
@[simp] theorem errorEntry_errKind (c : Cause) (s : State) : (errorEntry c s).errKind = causeKind c := rfl
@[simp] theorem errorEntry_errCause (c : Cause) (s : State) : (errorEntry c s).errCause = c := rfl
@[simp] theorem errorEntry_errPos (c : Cause) (s : State) : (errorEntry c s).errPos = errPosOf c s := rfl
@[simp] theorem errorEntry_irqEn (c : Cause) (s : State) : (errorEntry c s).irqEn = s.irqEn := rfl
@[simp] theorem errorEntry_inMem (c : Cause) (s : State) : (errorEntry c s).inMem = s.inMem := rfl
@[simp] theorem errorEntry_outMem (c : Cause) (s : State) : (errorEntry c s).outMem = s.outMem := rfl
@[simp] theorem errorEntry_winMem (c : Cause) (s : State) : (errorEntry c s).winMem = s.winMem := rfl
@[simp] theorem errorEntry_agenda (c : Cause) (s : State) : (errorEntry c s).agenda = s.agenda := rfl
@[simp] theorem errorEntry_hostData (c : Cause) (s : State) : (errorEntry c s).hostData = s.hostData := rfl
@[simp] theorem errorEntry_draws (c : Cause) (s : State) : (errorEntry c s).draws = s.draws := rfl
@[simp] theorem errorEntry_epoch (c : Cause) (s : State) : (errorEntry c s).epoch = s.epoch := rfl

/-! ### clearRun -/

@[simp] theorem clearRun_cfg (s : State) : (clearRun s).cfg = s.cfg := rfl
@[simp] theorem clearRun_fsm (s : State) : (clearRun s).fsm = .idle := rfl
@[simp] theorem clearRun_bsub (s : State) : (clearRun s).bsub = .none := rfl
@[simp] theorem clearRun_pos (s : State) : (clearRun s).pos = 0 := rfl
@[simp] theorem clearRun_bpos (s : State) : (clearRun s).bpos = 0 := rfl
@[simp] theorem clearRun_inLen (s : State) : (clearRun s).inLen = s.inLen := rfl
@[simp] theorem clearRun_blkStart (s : State) : (clearRun s).blkStart = 0 := rfl
@[simp] theorem clearRun_blkEnd (s : State) : (clearRun s).blkEnd = 0 := rfl
@[simp] theorem clearRun_blkStored (s : State) : (clearRun s).blkStored = false := rfl
@[simp] theorem clearRun_blkOutBase (s : State) : (clearRun s).blkOutBase = 0 := rfl
@[simp] theorem clearRun_winBase (s : State) : (clearRun s).winBase = 0 := rfl
@[simp] theorem clearRun_litLen (s : State) : (clearRun s).litLen = 0 := rfl
@[simp] theorem clearRun_matchLen (s : State) : (clearRun s).matchLen = 0 := rfl
@[simp] theorem clearRun_mlb (s : State) : (clearRun s).mlb = 0 := rfl
@[simp] theorem clearRun_offset (s : State) : (clearRun s).offset = 0 := rfl
@[simp] theorem clearRun_outLen (s : State) : (clearRun s).outLen = 0 := rfl
@[simp] theorem clearRun_flg (s : State) : (clearRun s).flg = 0 := rfl
@[simp] theorem clearRun_bd (s : State) : (clearRun s).bd = 0 := rfl
@[simp] theorem clearRun_csize (s : State) : (clearRun s).csize = 0 := rfl
@[simp] theorem clearRun_errKind (s : State) : (clearRun s).errKind = .none := rfl
@[simp] theorem clearRun_errCause (s : State) : (clearRun s).errCause = .none := rfl
@[simp] theorem clearRun_errPos (s : State) : (clearRun s).errPos = 0 := rfl
@[simp] theorem clearRun_irqEn (s : State) : (clearRun s).irqEn = s.irqEn := rfl
@[simp] theorem clearRun_inMem (s : State) : (clearRun s).inMem = s.inMem := rfl
@[simp] theorem clearRun_outMem (s : State) : (clearRun s).outMem = s.outMem := rfl
@[simp] theorem clearRun_winMem (s : State) : (clearRun s).winMem = s.winMem := rfl
@[simp] theorem clearRun_agenda (s : State) : (clearRun s).agenda = s.agenda := rfl
@[simp] theorem clearRun_hostData (s : State) : (clearRun s).hostData = s.hostData := rfl
@[simp] theorem clearRun_draws (s : State) : (clearRun s).draws = s.draws := rfl
@[simp] theorem clearRun_epoch (s : State) : (clearRun s).epoch = s.epoch := rfl

/-! ### blockDone -/

@[simp] theorem blockDone_cfg (s : State) : (blockDone s).cfg = s.cfg := rfl
@[simp] theorem blockDone_fsm (s : State) : (blockDone s).fsm = .expectBlockmark := rfl
@[simp] theorem blockDone_bsub (s : State) : (blockDone s).bsub = .none := rfl
@[simp] theorem blockDone_pos (s : State) : (blockDone s).pos = s.pos := rfl
@[simp] theorem blockDone_bpos (s : State) : (blockDone s).bpos = s.bpos := rfl
@[simp] theorem blockDone_inLen (s : State) : (blockDone s).inLen = s.inLen := rfl
@[simp] theorem blockDone_blkStart (s : State) : (blockDone s).blkStart = s.blkStart := rfl
@[simp] theorem blockDone_blkEnd (s : State) : (blockDone s).blkEnd = s.blkEnd := rfl
@[simp] theorem blockDone_blkStored (s : State) : (blockDone s).blkStored = s.blkStored := rfl
@[simp] theorem blockDone_blkOutBase (s : State) : (blockDone s).blkOutBase = s.blkOutBase := rfl
@[simp] theorem blockDone_winBase (s : State) : (blockDone s).winBase = s.winBase := rfl
@[simp] theorem blockDone_litLen (s : State) : (blockDone s).litLen = s.litLen := rfl
@[simp] theorem blockDone_matchLen (s : State) : (blockDone s).matchLen = s.matchLen := rfl
@[simp] theorem blockDone_mlb (s : State) : (blockDone s).mlb = s.mlb := rfl
@[simp] theorem blockDone_offset (s : State) : (blockDone s).offset = s.offset := rfl
@[simp] theorem blockDone_outLen (s : State) : (blockDone s).outLen = s.outLen := rfl
@[simp] theorem blockDone_flg (s : State) : (blockDone s).flg = s.flg := rfl
@[simp] theorem blockDone_bd (s : State) : (blockDone s).bd = s.bd := rfl
@[simp] theorem blockDone_csize (s : State) : (blockDone s).csize = s.csize := rfl
@[simp] theorem blockDone_errKind (s : State) : (blockDone s).errKind = s.errKind := rfl
@[simp] theorem blockDone_errCause (s : State) : (blockDone s).errCause = s.errCause := rfl
@[simp] theorem blockDone_errPos (s : State) : (blockDone s).errPos = s.errPos := rfl
@[simp] theorem blockDone_irqEn (s : State) : (blockDone s).irqEn = s.irqEn := rfl
@[simp] theorem blockDone_inMem (s : State) : (blockDone s).inMem = s.inMem := rfl
@[simp] theorem blockDone_outMem (s : State) : (blockDone s).outMem = s.outMem := rfl
@[simp] theorem blockDone_winMem (s : State) : (blockDone s).winMem = s.winMem := rfl
@[simp] theorem blockDone_agenda (s : State) : (blockDone s).agenda = s.agenda := rfl
@[simp] theorem blockDone_hostData (s : State) : (blockDone s).hostData = s.hostData := rfl
@[simp] theorem blockDone_draws (s : State) : (blockDone s).draws = s.draws := rfl
@[simp] theorem blockDone_epoch (s : State) : (blockDone s).epoch = s.epoch := rfl

/-! ### takeTurn -/

@[simp] theorem takeTurn_cfg (s : State) : (takeTurn s).cfg = s.cfg := rfl
@[simp] theorem takeTurn_fsm (s : State) : (takeTurn s).fsm = s.fsm := rfl
@[simp] theorem takeTurn_bsub (s : State) : (takeTurn s).bsub = s.bsub := rfl
@[simp] theorem takeTurn_pos (s : State) : (takeTurn s).pos = s.pos := rfl
@[simp] theorem takeTurn_bpos (s : State) : (takeTurn s).bpos = s.bpos := rfl
@[simp] theorem takeTurn_inLen (s : State) : (takeTurn s).inLen = s.inLen := rfl
@[simp] theorem takeTurn_blkStart (s : State) : (takeTurn s).blkStart = s.blkStart := rfl
@[simp] theorem takeTurn_blkEnd (s : State) : (takeTurn s).blkEnd = s.blkEnd := rfl
@[simp] theorem takeTurn_blkStored (s : State) : (takeTurn s).blkStored = s.blkStored := rfl
@[simp] theorem takeTurn_blkOutBase (s : State) : (takeTurn s).blkOutBase = s.blkOutBase := rfl
@[simp] theorem takeTurn_winBase (s : State) : (takeTurn s).winBase = s.winBase := rfl
@[simp] theorem takeTurn_litLen (s : State) : (takeTurn s).litLen = s.litLen := rfl
@[simp] theorem takeTurn_matchLen (s : State) : (takeTurn s).matchLen = s.matchLen := rfl
@[simp] theorem takeTurn_mlb (s : State) : (takeTurn s).mlb = s.mlb := rfl
@[simp] theorem takeTurn_offset (s : State) : (takeTurn s).offset = s.offset := rfl
@[simp] theorem takeTurn_outLen (s : State) : (takeTurn s).outLen = s.outLen := rfl
@[simp] theorem takeTurn_flg (s : State) : (takeTurn s).flg = s.flg := rfl
@[simp] theorem takeTurn_bd (s : State) : (takeTurn s).bd = s.bd := rfl
@[simp] theorem takeTurn_csize (s : State) : (takeTurn s).csize = s.csize := rfl
@[simp] theorem takeTurn_errKind (s : State) : (takeTurn s).errKind = s.errKind := rfl
@[simp] theorem takeTurn_errCause (s : State) : (takeTurn s).errCause = s.errCause := rfl
@[simp] theorem takeTurn_errPos (s : State) : (takeTurn s).errPos = s.errPos := rfl
@[simp] theorem takeTurn_irqEn (s : State) : (takeTurn s).irqEn = s.irqEn := rfl
@[simp] theorem takeTurn_inMem (s : State) : (takeTurn s).inMem = s.inMem := rfl
@[simp] theorem takeTurn_outMem (s : State) : (takeTurn s).outMem = s.outMem := rfl
@[simp] theorem takeTurn_winMem (s : State) : (takeTurn s).winMem = s.winMem := rfl
@[simp] theorem takeTurn_agenda (s : State) : (takeTurn s).agenda = s.agenda.tail := rfl
@[simp] theorem takeTurn_hostData (s : State) : (takeTurn s).hostData = s.hostData := rfl
@[simp] theorem takeTurn_draws (s : State) : (takeTurn s).draws = s.draws := rfl
@[simp] theorem takeTurn_epoch (s : State) : (takeTurn s).epoch = s.epoch := rfl

/-! ### writeIrqEn -/

@[simp] theorem writeIrqEn_cfg (v : Word) (s : State) : (writeIrqEn v s).cfg = s.cfg := rfl
@[simp] theorem writeIrqEn_fsm (v : Word) (s : State) : (writeIrqEn v s).fsm = s.fsm := rfl
@[simp] theorem writeIrqEn_bsub (v : Word) (s : State) : (writeIrqEn v s).bsub = s.bsub := rfl
@[simp] theorem writeIrqEn_pos (v : Word) (s : State) : (writeIrqEn v s).pos = s.pos := rfl
@[simp] theorem writeIrqEn_bpos (v : Word) (s : State) : (writeIrqEn v s).bpos = s.bpos := rfl
@[simp] theorem writeIrqEn_inLen (v : Word) (s : State) : (writeIrqEn v s).inLen = s.inLen := rfl
@[simp] theorem writeIrqEn_blkStart (v : Word) (s : State) : (writeIrqEn v s).blkStart = s.blkStart := rfl
@[simp] theorem writeIrqEn_blkEnd (v : Word) (s : State) : (writeIrqEn v s).blkEnd = s.blkEnd := rfl
@[simp] theorem writeIrqEn_blkStored (v : Word) (s : State) : (writeIrqEn v s).blkStored = s.blkStored := rfl
@[simp] theorem writeIrqEn_blkOutBase (v : Word) (s : State) : (writeIrqEn v s).blkOutBase = s.blkOutBase := rfl
@[simp] theorem writeIrqEn_winBase (v : Word) (s : State) : (writeIrqEn v s).winBase = s.winBase := rfl
@[simp] theorem writeIrqEn_litLen (v : Word) (s : State) : (writeIrqEn v s).litLen = s.litLen := rfl
@[simp] theorem writeIrqEn_matchLen (v : Word) (s : State) : (writeIrqEn v s).matchLen = s.matchLen := rfl
@[simp] theorem writeIrqEn_mlb (v : Word) (s : State) : (writeIrqEn v s).mlb = s.mlb := rfl
@[simp] theorem writeIrqEn_offset (v : Word) (s : State) : (writeIrqEn v s).offset = s.offset := rfl
@[simp] theorem writeIrqEn_outLen (v : Word) (s : State) : (writeIrqEn v s).outLen = s.outLen := rfl
@[simp] theorem writeIrqEn_flg (v : Word) (s : State) : (writeIrqEn v s).flg = s.flg := rfl
@[simp] theorem writeIrqEn_bd (v : Word) (s : State) : (writeIrqEn v s).bd = s.bd := rfl
@[simp] theorem writeIrqEn_csize (v : Word) (s : State) : (writeIrqEn v s).csize = s.csize := rfl
@[simp] theorem writeIrqEn_errKind (v : Word) (s : State) : (writeIrqEn v s).errKind = s.errKind := rfl
@[simp] theorem writeIrqEn_errCause (v : Word) (s : State) : (writeIrqEn v s).errCause = s.errCause := rfl
@[simp] theorem writeIrqEn_errPos (v : Word) (s : State) : (writeIrqEn v s).errPos = s.errPos := rfl
@[simp] theorem writeIrqEn_irqEn (v : Word) (s : State) : (writeIrqEn v s).irqEn = v.getLsbD 1 := rfl
@[simp] theorem writeIrqEn_inMem (v : Word) (s : State) : (writeIrqEn v s).inMem = s.inMem := rfl
@[simp] theorem writeIrqEn_outMem (v : Word) (s : State) : (writeIrqEn v s).outMem = s.outMem := rfl
@[simp] theorem writeIrqEn_winMem (v : Word) (s : State) : (writeIrqEn v s).winMem = s.winMem := rfl
@[simp] theorem writeIrqEn_agenda (v : Word) (s : State) : (writeIrqEn v s).agenda = s.agenda := rfl
@[simp] theorem writeIrqEn_hostData (v : Word) (s : State) : (writeIrqEn v s).hostData = s.hostData := rfl
@[simp] theorem writeIrqEn_draws (v : Word) (s : State) : (writeIrqEn v s).draws = s.draws := rfl
@[simp] theorem writeIrqEn_epoch (v : Word) (s : State) : (writeIrqEn v s).epoch = s.epoch := rfl

/-! ### framePayload -/

@[simp] theorem framePayload_cfg (st : Bool) (n : Nat) (s : State) : (framePayload st n s).cfg = s.cfg := rfl
@[simp] theorem framePayload_fsm (st : Bool) (n : Nat) (s : State) : (framePayload st n s).fsm = s.fsm := rfl
@[simp] theorem framePayload_bsub (st : Bool) (n : Nat) (s : State) : (framePayload st n s).bsub = s.bsub := rfl
@[simp] theorem framePayload_pos (st : Bool) (n : Nat) (s : State) : (framePayload st n s).pos = s.pos + 4 + n := rfl
@[simp] theorem framePayload_bpos (st : Bool) (n : Nat) (s : State) : (framePayload st n s).bpos = s.pos + 4 := rfl
@[simp] theorem framePayload_inLen (st : Bool) (n : Nat) (s : State) : (framePayload st n s).inLen = s.inLen := rfl
@[simp] theorem framePayload_blkStart (st : Bool) (n : Nat) (s : State) : (framePayload st n s).blkStart = s.pos + 4 := rfl
@[simp] theorem framePayload_blkEnd (st : Bool) (n : Nat) (s : State) : (framePayload st n s).blkEnd = s.pos + 4 + n := rfl
@[simp] theorem framePayload_blkStored (st : Bool) (n : Nat) (s : State) : (framePayload st n s).blkStored = st := rfl
@[simp] theorem framePayload_blkOutBase (st : Bool) (n : Nat) (s : State) : (framePayload st n s).blkOutBase = s.outLen := rfl
@[simp] theorem framePayload_winBase (st : Bool) (n : Nat) (s : State) : (framePayload st n s).winBase = windowBase s := rfl
@[simp] theorem framePayload_litLen (st : Bool) (n : Nat) (s : State) : (framePayload st n s).litLen = s.litLen := rfl
@[simp] theorem framePayload_matchLen (st : Bool) (n : Nat) (s : State) : (framePayload st n s).matchLen = s.matchLen := rfl
@[simp] theorem framePayload_mlb (st : Bool) (n : Nat) (s : State) : (framePayload st n s).mlb = s.mlb := rfl
@[simp] theorem framePayload_offset (st : Bool) (n : Nat) (s : State) : (framePayload st n s).offset = s.offset := rfl
@[simp] theorem framePayload_outLen (st : Bool) (n : Nat) (s : State) : (framePayload st n s).outLen = s.outLen := rfl
@[simp] theorem framePayload_flg (st : Bool) (n : Nat) (s : State) : (framePayload st n s).flg = s.flg := rfl
@[simp] theorem framePayload_bd (st : Bool) (n : Nat) (s : State) : (framePayload st n s).bd = s.bd := rfl
@[simp] theorem framePayload_csize (st : Bool) (n : Nat) (s : State) : (framePayload st n s).csize = s.csize := rfl
@[simp] theorem framePayload_errKind (st : Bool) (n : Nat) (s : State) : (framePayload st n s).errKind = s.errKind := rfl
@[simp] theorem framePayload_errCause (st : Bool) (n : Nat) (s : State) : (framePayload st n s).errCause = s.errCause := rfl
@[simp] theorem framePayload_errPos (st : Bool) (n : Nat) (s : State) : (framePayload st n s).errPos = s.errPos := rfl
@[simp] theorem framePayload_irqEn (st : Bool) (n : Nat) (s : State) : (framePayload st n s).irqEn = s.irqEn := rfl
@[simp] theorem framePayload_inMem (st : Bool) (n : Nat) (s : State) : (framePayload st n s).inMem = s.inMem := rfl
@[simp] theorem framePayload_outMem (st : Bool) (n : Nat) (s : State) : (framePayload st n s).outMem = s.outMem := rfl
@[simp] theorem framePayload_winMem (st : Bool) (n : Nat) (s : State) : (framePayload st n s).winMem = s.winMem := rfl
@[simp] theorem framePayload_agenda (st : Bool) (n : Nat) (s : State) : (framePayload st n s).agenda = s.agenda := rfl
@[simp] theorem framePayload_hostData (st : Bool) (n : Nat) (s : State) : (framePayload st n s).hostData = s.hostData := rfl
@[simp] theorem framePayload_draws (st : Bool) (n : Nat) (s : State) : (framePayload st n s).draws = s.draws := rfl
@[simp] theorem framePayload_epoch (st : Bool) (n : Nat) (s : State) : (framePayload st n s).epoch = s.epoch := rfl

/-! ### readerAdvance, frame reader -/

@[simp] theorem advanceFrame_cfg (n : Nat) (s : State) : (readerAdvance .frame n s).cfg = s.cfg := rfl
@[simp] theorem advanceFrame_fsm (n : Nat) (s : State) : (readerAdvance .frame n s).fsm = s.fsm := rfl
@[simp] theorem advanceFrame_bsub (n : Nat) (s : State) : (readerAdvance .frame n s).bsub = s.bsub := rfl
@[simp] theorem advanceFrame_pos (n : Nat) (s : State) : (readerAdvance .frame n s).pos = s.pos + n := rfl
@[simp] theorem advanceFrame_bpos (n : Nat) (s : State) : (readerAdvance .frame n s).bpos = s.bpos := rfl
@[simp] theorem advanceFrame_inLen (n : Nat) (s : State) : (readerAdvance .frame n s).inLen = s.inLen := rfl
@[simp] theorem advanceFrame_blkStart (n : Nat) (s : State) : (readerAdvance .frame n s).blkStart = s.blkStart := rfl
@[simp] theorem advanceFrame_blkEnd (n : Nat) (s : State) : (readerAdvance .frame n s).blkEnd = s.blkEnd := rfl
@[simp] theorem advanceFrame_blkStored (n : Nat) (s : State) : (readerAdvance .frame n s).blkStored = s.blkStored := rfl
@[simp] theorem advanceFrame_blkOutBase (n : Nat) (s : State) : (readerAdvance .frame n s).blkOutBase = s.blkOutBase := rfl
@[simp] theorem advanceFrame_winBase (n : Nat) (s : State) : (readerAdvance .frame n s).winBase = s.winBase := rfl
@[simp] theorem advanceFrame_litLen (n : Nat) (s : State) : (readerAdvance .frame n s).litLen = s.litLen := rfl
@[simp] theorem advanceFrame_matchLen (n : Nat) (s : State) : (readerAdvance .frame n s).matchLen = s.matchLen := rfl
@[simp] theorem advanceFrame_mlb (n : Nat) (s : State) : (readerAdvance .frame n s).mlb = s.mlb := rfl
@[simp] theorem advanceFrame_offset (n : Nat) (s : State) : (readerAdvance .frame n s).offset = s.offset := rfl
@[simp] theorem advanceFrame_outLen (n : Nat) (s : State) : (readerAdvance .frame n s).outLen = s.outLen := rfl
@[simp] theorem advanceFrame_flg (n : Nat) (s : State) : (readerAdvance .frame n s).flg = s.flg := rfl
@[simp] theorem advanceFrame_bd (n : Nat) (s : State) : (readerAdvance .frame n s).bd = s.bd := rfl
@[simp] theorem advanceFrame_csize (n : Nat) (s : State) : (readerAdvance .frame n s).csize = s.csize := rfl
@[simp] theorem advanceFrame_errKind (n : Nat) (s : State) : (readerAdvance .frame n s).errKind = s.errKind := rfl
@[simp] theorem advanceFrame_errCause (n : Nat) (s : State) : (readerAdvance .frame n s).errCause = s.errCause := rfl
@[simp] theorem advanceFrame_errPos (n : Nat) (s : State) : (readerAdvance .frame n s).errPos = s.errPos := rfl
@[simp] theorem advanceFrame_irqEn (n : Nat) (s : State) : (readerAdvance .frame n s).irqEn = s.irqEn := rfl
@[simp] theorem advanceFrame_inMem (n : Nat) (s : State) : (readerAdvance .frame n s).inMem = s.inMem := rfl
@[simp] theorem advanceFrame_outMem (n : Nat) (s : State) : (readerAdvance .frame n s).outMem = s.outMem := rfl
@[simp] theorem advanceFrame_winMem (n : Nat) (s : State) : (readerAdvance .frame n s).winMem = s.winMem := rfl
@[simp] theorem advanceFrame_agenda (n : Nat) (s : State) : (readerAdvance .frame n s).agenda = s.agenda := rfl
@[simp] theorem advanceFrame_hostData (n : Nat) (s : State) : (readerAdvance .frame n s).hostData = s.hostData := rfl
@[simp] theorem advanceFrame_draws (n : Nat) (s : State) : (readerAdvance .frame n s).draws = s.draws := rfl
@[simp] theorem advanceFrame_epoch (n : Nat) (s : State) : (readerAdvance .frame n s).epoch = s.epoch := rfl

/-! ### readerAdvance, block reader -/

@[simp] theorem advanceBlock_cfg (n : Nat) (s : State) : (readerAdvance .block n s).cfg = s.cfg := rfl
@[simp] theorem advanceBlock_fsm (n : Nat) (s : State) : (readerAdvance .block n s).fsm = s.fsm := rfl
@[simp] theorem advanceBlock_bsub (n : Nat) (s : State) : (readerAdvance .block n s).bsub = s.bsub := rfl
@[simp] theorem advanceBlock_pos (n : Nat) (s : State) : (readerAdvance .block n s).pos = s.pos := rfl
@[simp] theorem advanceBlock_bpos (n : Nat) (s : State) : (readerAdvance .block n s).bpos = s.bpos + n := rfl
@[simp] theorem advanceBlock_inLen (n : Nat) (s : State) : (readerAdvance .block n s).inLen = s.inLen := rfl
@[simp] theorem advanceBlock_blkStart (n : Nat) (s : State) : (readerAdvance .block n s).blkStart = s.blkStart := rfl
@[simp] theorem advanceBlock_blkEnd (n : Nat) (s : State) : (readerAdvance .block n s).blkEnd = s.blkEnd := rfl
@[simp] theorem advanceBlock_blkStored (n : Nat) (s : State) : (readerAdvance .block n s).blkStored = s.blkStored := rfl
@[simp] theorem advanceBlock_blkOutBase (n : Nat) (s : State) : (readerAdvance .block n s).blkOutBase = s.blkOutBase := rfl
@[simp] theorem advanceBlock_winBase (n : Nat) (s : State) : (readerAdvance .block n s).winBase = s.winBase := rfl
@[simp] theorem advanceBlock_litLen (n : Nat) (s : State) : (readerAdvance .block n s).litLen = s.litLen := rfl
@[simp] theorem advanceBlock_matchLen (n : Nat) (s : State) : (readerAdvance .block n s).matchLen = s.matchLen := rfl
@[simp] theorem advanceBlock_mlb (n : Nat) (s : State) : (readerAdvance .block n s).mlb = s.mlb := rfl
@[simp] theorem advanceBlock_offset (n : Nat) (s : State) : (readerAdvance .block n s).offset = s.offset := rfl
@[simp] theorem advanceBlock_outLen (n : Nat) (s : State) : (readerAdvance .block n s).outLen = s.outLen := rfl
@[simp] theorem advanceBlock_flg (n : Nat) (s : State) : (readerAdvance .block n s).flg = s.flg := rfl
@[simp] theorem advanceBlock_bd (n : Nat) (s : State) : (readerAdvance .block n s).bd = s.bd := rfl
@[simp] theorem advanceBlock_csize (n : Nat) (s : State) : (readerAdvance .block n s).csize = s.csize := rfl
@[simp] theorem advanceBlock_errKind (n : Nat) (s : State) : (readerAdvance .block n s).errKind = s.errKind := rfl
@[simp] theorem advanceBlock_errCause (n : Nat) (s : State) : (readerAdvance .block n s).errCause = s.errCause := rfl
@[simp] theorem advanceBlock_errPos (n : Nat) (s : State) : (readerAdvance .block n s).errPos = s.errPos := rfl
@[simp] theorem advanceBlock_irqEn (n : Nat) (s : State) : (readerAdvance .block n s).irqEn = s.irqEn := rfl
@[simp] theorem advanceBlock_inMem (n : Nat) (s : State) : (readerAdvance .block n s).inMem = s.inMem := rfl
@[simp] theorem advanceBlock_outMem (n : Nat) (s : State) : (readerAdvance .block n s).outMem = s.outMem := rfl
@[simp] theorem advanceBlock_winMem (n : Nat) (s : State) : (readerAdvance .block n s).winMem = s.winMem := rfl
@[simp] theorem advanceBlock_agenda (n : Nat) (s : State) : (readerAdvance .block n s).agenda = s.agenda := rfl
@[simp] theorem advanceBlock_hostData (n : Nat) (s : State) : (readerAdvance .block n s).hostData = s.hostData := rfl
@[simp] theorem advanceBlock_draws (n : Nat) (s : State) : (readerAdvance .block n s).draws = s.draws := rfl
@[simp] theorem advanceBlock_epoch (n : Nat) (s : State) : (readerAdvance .block n s).epoch = s.epoch := rfl

end Sys2Proof.Laws
end

