-- ==== Sys2Proof/Laws/Append.lean ====
section
/-! SUPPORT. What appending does: one byte, a byte string, a match copy (00_scope.md R11; 41_block_decoder.md R147,
R153). Each says what the new bytes are, that every other byte of OUT and every other place of WIN stays, and that no
other field changes. -/

namespace Sys2Proof.Laws

open Sys2Proof.Machine

/-! ## One byte -/

theorem outByte_appendByte (b : Byte) (s : State) (a : Nat) :
    outByte (appendByte b s) a = if a = s.outLen then b else outByte s a := by
  simp only [outByte, appendByte_outMem, appendByte_epoch, memGet_memSet]
  split <;> simp

theorem winByte_appendByte (b : Byte) (s : State) (a : Nat) :
    winByte (appendByte b s) a = if a = s.outLen % windowSize then b else winByte s a := by
  simp only [winByte, appendByte_winMem, appendByte_epoch, memGet_memSet]
  split <;> simp

@[simp] theorem inByte_appendByte (b : Byte) (s : State) (a : Nat) : inByte (appendByte b s) a = inByte s a := rfl

/-- Appending keeps WIN a mirror of OUT's last 64 KiB (10_state.md R41). -/
theorem windowMirrors_appendByte {s : State} (b : Byte)
    (h : ∀ i, s.outLen - min s.outLen windowSize ≤ i → i < s.outLen → winByte s (i % windowSize) = outByte s i) :
    ∀ i, (appendByte b s).outLen - min (appendByte b s).outLen windowSize ≤ i → i < (appendByte b s).outLen →
      winByte (appendByte b s) (i % windowSize) = outByte (appendByte b s) i := by
  intro i h1 h2
  rw [winByte_appendByte, outByte_appendByte]
  rw [appendByte_outLen] at h1 h2
  have hw : windowSize = 65536 := rfl
  by_cases hi : i = s.outLen
  · subst hi; simp
  · have hne : i % windowSize ≠ s.outLen % windowSize := by
      rw [hw] at h1 ⊢
      omega
    rw [if_neg hne, if_neg hi]
    exact h i (by omega) (by omega)

/-! ## A byte string -/

/-- Appending a string changes OUT, WIN and `out_len` only. -/
theorem appendBytes_frame (bs : List Byte) (s : State) :
    appendBytes bs s = { s with
      outMem := (appendBytes bs s).outMem
      winMem := (appendBytes bs s).winMem
      outLen := s.outLen + bs.length } := by
  induction bs generalizing s with
  | nil => rfl
  | cons b bs ih =>
    rw [appendBytes, ih (appendByte b s)]
    simp only [List.length_cons, appendByte]
    congr 1
    omega

@[simp] theorem appendBytes_outLen (bs : List Byte) (s : State) :
    (appendBytes bs s).outLen = s.outLen + bs.length := by rw [appendBytes_frame]

@[simp] theorem appendBytes_epoch (bs : List Byte) (s : State) : (appendBytes bs s).epoch = s.epoch := by
  rw [appendBytes_frame]

@[simp] theorem appendBytes_cfg (bs : List Byte) (s : State) : (appendBytes bs s).cfg = s.cfg := by
  rw [appendBytes_frame]

@[simp] theorem appendBytes_inMem (bs : List Byte) (s : State) : (appendBytes bs s).inMem = s.inMem := by
  rw [appendBytes_frame]

/-- A byte of OUT that lies outside the appended string stays. -/
theorem outByte_appendBytes_of_outside (bs : List Byte) (s : State) {a : Nat}
    (h : a < s.outLen ∨ s.outLen + bs.length ≤ a) : outByte (appendBytes bs s) a = outByte s a := by
  induction bs generalizing s with
  | nil => rfl
  | cons b bs ih =>
    simp only [List.length_cons] at h
    rw [appendBytes, ih _ (by simp only [appendByte_outLen]; omega), outByte_appendByte, if_neg (by omega)]

/-- The appended bytes stand in OUT in their order. -/
theorem outByte_appendBytes (bs : List Byte) (s : State) {k : Nat} (h : k < bs.length) :
    outByte (appendBytes bs s) (s.outLen + k) = bs[k] := by
  induction bs generalizing s k with
  | nil => simp at h
  | cons b bs ih =>
    rw [appendBytes]
    cases k with
    | zero =>
      rw [outByte_appendBytes_of_outside bs _ (by simp), outByte_appendByte]
      simp
    | succ k =>
      have := ih (appendByte b s) (k := k) (by simpa using h)
      simp only [appendByte_outLen] at this
      rw [show s.outLen + (k + 1) = s.outLen + 1 + k by omega, this]
      simp

/-- A place of WIN that none of the appended bytes falls on stays. -/
theorem winByte_appendBytes_of_outside (bs : List Byte) (s : State) {a : Nat}
    (h : ∀ k, k < bs.length → a ≠ (s.outLen + k) % windowSize) : winByte (appendBytes bs s) a = winByte s a := by
  induction bs generalizing s with
  | nil => rfl
  | cons b bs ih =>
    rw [appendBytes, ih, winByte_appendByte, if_neg]
    · simpa using h 0 (by simp)
    · intro k hk
      have := h (k + 1) (by simpa using hk)
      rw [appendByte_outLen]
      rwa [show s.outLen + 1 + k = s.outLen + (k + 1) by omega]

/-- The last 65536 appended bytes stand in WIN, each at its ring place. -/
theorem winByte_appendBytes (bs : List Byte) (s : State) {k : Nat} (h : k < bs.length) (hw : bs.length ≤ k + windowSize) :
    winByte (appendBytes bs s) ((s.outLen + k) % windowSize) = bs[k] := by
  induction bs generalizing s k with
  | nil => simp at h
  | cons b bs ih =>
    simp only [List.length_cons] at h hw
    rw [appendBytes]
    cases k with
    | zero =>
      rw [winByte_appendBytes_of_outside, winByte_appendByte]
      · simp
      · intro j hj
        have e : windowSize = 65536 := rfl
        rw [e] at hw ⊢
        rw [appendByte_outLen]
        omega
    | succ k =>
      have := ih (appendByte b s) (k := k) (by omega) (by omega)
      simp only [appendByte_outLen] at this
      rw [show s.outLen + (k + 1) = s.outLen + 1 + k by omega, this]
      simp

/-- Appending a string keeps WIN a mirror. -/
theorem windowMirrors_appendBytes (bs : List Byte) {s : State}
    (h : ∀ i, s.outLen - min s.outLen windowSize ≤ i → i < s.outLen → winByte s (i % windowSize) = outByte s i) :
    ∀ i, (appendBytes bs s).outLen - min (appendBytes bs s).outLen windowSize ≤ i → i < (appendBytes bs s).outLen →
      winByte (appendBytes bs s) (i % windowSize) = outByte (appendBytes bs s) i := by
  induction bs generalizing s with
  | nil => exact h
  | cons b bs ih => exact ih (windowMirrors_appendByte b h)

/-- Appending keeps OUT and WIN canonical and inside their spaces, when the string fits. -/
theorem memories_appendBytes (bs : List Byte) {s : State} {cap : Nat} (hfit : s.outLen + bs.length ≤ cap)
    (ho : memWf s.outMem = true) (hob : memBelow cap s.outMem = true)
    (hw : memWf s.winMem = true) (hwb : memBelow windowSize s.winMem = true) :
    memWf (appendBytes bs s).outMem = true ∧ memBelow cap (appendBytes bs s).outMem = true ∧
      memWf (appendBytes bs s).winMem = true ∧ memBelow windowSize (appendBytes bs s).winMem = true := by
  induction bs generalizing s with
  | nil => exact ⟨ho, hob, hw, hwb⟩
  | cons b bs ih =>
    simp only [List.length_cons] at hfit
    refine ih (by simp only [appendByte_outLen]; omega) ?_ ?_ ?_ ?_ <;> simp only [appendByte_outMem, appendByte_winMem]
    · exact memWf_memSet _ _ ho
    · exact memBelow_memSet _ (by omega) hob
    · exact memWf_memSet _ _ hw
    · exact memBelow_memSet _ (Nat.mod_lt _ (by decide)) hwb

/-! ## A match copy is an append of the bytes it reads -/

/-- The bytes a match copy of `n` bytes appends, each read from WIN as the copy goes. -/
def copiedBytes : Nat → State → List Byte
  | 0, _ => []
  | n + 1, s => winByte s (matchSource s) :: copiedBytes n (appendByte (winByte s (matchSource s)) s)

@[simp] theorem copiedBytes_length (n : Nat) (s : State) : (copiedBytes n s).length = n := by
  induction n generalizing s with
  | zero => rfl
  | succ n ih => simp [copiedBytes, ih]

theorem copyMatch_eq_appendBytes (n : Nat) (s : State) : copyMatch n s = appendBytes (copiedBytes n s) s := by
  induction n generalizing s with
  | zero => rfl
  | succ n ih => rw [copyMatch, copiedBytes, appendBytes, ih]

/-- Each copied byte equals the byte of the final OUT that lies `offset` before it, the ones the same copy produced
included (41_block_decoder.md R147, R154). -/
theorem outByte_copyMatch (n : Nat) {s : State} {o : Nat} (ho : s.offset.toNat = o) (h1 : 1 ≤ o) (h2 : o ≤ s.outLen)
    (hm : ∀ i, s.outLen - min s.outLen windowSize ≤ i → i < s.outLen → winByte s (i % windowSize) = outByte s i)
    {k : Nat} (hk : k < n) :
    outByte (copyMatch n s) (s.outLen + k) = outByte (copyMatch n s) (s.outLen + k - o) := by
  have hlt : o < 65536 := ho ▸ s.offset.isLt
  induction n generalizing s k with
  | zero => omega
  | succ n ih =>
    rw [copyMatch]
    cases k with
    | zero =>
      rw [copyMatch_eq_appendBytes, outByte_appendBytes_of_outside _ _ (by simp),
        outByte_appendBytes_of_outside _ _ (by left; simp only [appendByte_outLen]; omega), outByte_appendByte,
        outByte_appendByte, if_pos (by omega), if_neg (by omega), matchSource, ho]
      exact hm _ (by have : windowSize = 65536 := rfl; omega) (by omega)
    | succ k =>
      have := ih (s := appendByte (winByte s (matchSource s)) s) ho (by simp only [appendByte_outLen]; omega)
        (windowMirrors_appendByte _ hm) (k := k) (by omega)
      simp only [appendByte_outLen] at this
      rw [show s.outLen + (k + 1) = s.outLen + 1 + k by omega]
      exact this

end Sys2Proof.Laws
end

