-- ==== Sys2Proof/Laws/Bytes.lean ====
section
/-! SUPPORT. Little-endian byte strings: the two directions are inverse (20_memory.md R61). -/

namespace Sys2Proof.Laws

@[simp] theorem leBytes_length (n v : Nat) : (leBytes n v).length = n := by
  induction n generalizing v with
  | zero => rfl
  | succ n ih => simp [leBytes, ih]

theorem leNat_leBytes (n v : Nat) : leNat (leBytes n v) = v % 256 ^ n := by
  induction n generalizing v with
  | zero => simp [leBytes, leNat, Nat.mod_one]
  | succ n ih =>
    have h : 256 ^ (n + 1) = 256 * 256 ^ n := by ring
    rw [leBytes, leNat, ih, BitVec.toNat_ofNat, h, Nat.mod_mul]

theorem leNat_leBytes_of_lt {n v : Nat} (h : v < 256 ^ n) : leNat (leBytes n v) = v := by
  rw [leNat_leBytes, Nat.mod_eq_of_lt h]

theorem leBytes_leNat (bs : List Byte) : leBytes bs.length (leNat bs) = bs := by
  induction bs with
  | nil => rfl
  | cons b bs ih =>
    have hb : (b.toNat + 256 * leNat bs) / 256 = leNat bs := by
      have := b.isLt
      omega
    have hl : BitVec.ofNat 8 (b.toNat + 256 * leNat bs) = b := by
      apply BitVec.eq_of_toNat_eq
      have := b.isLt
      simp
      omega
    rw [List.length_cons, leNat, leBytes, hb, hl, ih]

theorem leNat_lt (bs : List Byte) : leNat bs < 256 ^ bs.length := by
  induction bs with
  | nil => simp [leNat]
  | cons b bs ih =>
    have := b.isLt
    have h : 256 ^ (bs.length + 1) = 256 * 256 ^ bs.length := by ring
    rw [leNat, List.length_cons, h]
    omega

/-- Byte `k` of a little-endian value is byte `k` of the string. -/
theorem leNat_byte (bs : List Byte) {k : Nat} (h : k < bs.length) : leNat bs / 256 ^ k % 256 = bs[k].toNat := by
  induction bs generalizing k with
  | nil => simp at h
  | cons b bs ih =>
    have hb := b.isLt
    cases k with
    | zero => simp [leNat]; omega
    | succ k =>
      have e : 256 ^ (k + 1) = 256 * 256 ^ k := by ring
      have d : (b.toNat + 256 * leNat bs) / 256 = leNat bs := by omega
      rw [leNat, e, ← Nat.div_div_eq_div_mul, d, ih (by simpa using h)]
      simp

/-- A field of `w` bits reads the same from `n` bytes that hold all of them. -/
theorem ofNat_leNat_leBytes {w n : Nat} (v : Nat) (h : 2 ^ w ∣ 256 ^ n) :
    BitVec.ofNat w (leNat (leBytes n v)) = BitVec.ofNat w v := by
  apply BitVec.eq_of_toNat_eq
  rw [leNat_leBytes, BitVec.toNat_ofNat, BitVec.toNat_ofNat, Nat.mod_mod_of_dvd v h]

end Sys2Proof.Laws
end

