-- ==== Sys2Proof/Laws/Reader.lean ====
section
/-! SUPPORT. The readers (40_reader.md): what taking bytes off one does, and what it presents to the decoder. -/

namespace Sys2Proof.Laws

open Sys2Proof.Machine

@[simp] theorem readerLeft_frame (s : State) : readerLeft .frame s = s.inLen - s.pos := rfl

@[simp] theorem readerLeft_block (s : State) : readerLeft .block s = s.blkEnd - s.bpos := rfl

@[simp] theorem readerCause_frame : readerCause .frame = .truncRead := rfl

@[simp] theorem readerCause_block : readerCause .block = .truncBlockRead := rfl

/-! ## Byte strings of IN and OUT -/

@[simp] theorem inBytes_length (s : State) (a b : Nat) : (inBytes s a b).length = b - a := by simp [inBytes]

theorem inBytes_getElem (s : State) (a b k : Nat) (h : k < (inBytes s a b).length) :
    (inBytes s a b)[k] = inByte s (a + k) := by simp [inBytes]

theorem inBytes_succ (s : State) (a n : Nat) : inBytes s a (a + (n + 1)) = inByte s a :: inBytes s (a + 1) (a + 1 + n) := by
  simp only [inBytes, show a + (n + 1) - a = n + 1 by omega, show a + 1 + n - (a + 1) = n by omega, List.range'_succ,
    List.map_cons]

theorem inBytes_self (s : State) (a : Nat) : inBytes s a a = [] := by simp [inBytes]

/-- Two states whose bytes of IN agree from `a` up to `b` have the same string there. -/
theorem inBytes_congr {s t : State} {a b : Nat} (h : ∀ i, a ≤ i → i < b → inByte s i = inByte t i) :
    inBytes s a b = inBytes t a b := by
  apply List.map_congr_left
  intro i hi
  rw [List.mem_range'_1] at hi
  exact h i hi.1 (by omega)

/-! ## Taking bytes -/

theorem consume_of_le {r : Reader} {n : Nat} {s : State} {k : State → Result} (h : n ≤ readerLeft r s) :
    consume r n s k = k (readerAdvance r n s) := by
  simp [consume, readSkip, Nat.not_lt.2 h]

theorem consume_of_lt {r : Reader} {n : Nat} {s : State} {k : State → Result} (h : readerLeft r s < n) :
    consume r n s k = raise (readerCause r) s := by
  simp [consume, readSkip, h]

/-- All that taking bytes can do before the rest of the meaning goes on. -/
theorem consume_cases {r : Reader} {n : Nat} {s t : State} {k : State → Result} (h : consume r n s k = .next t) :
    (readerLeft r s < n ∧ t = errorEntry (readerCause r) s) ∨
      (n ≤ readerLeft r s ∧ k (readerAdvance r n s) = .next t) := by
  by_cases hl : readerLeft r s < n
  · rw [consume_of_lt hl, raise] at h
    injection h with h
    exact .inl ⟨hl, h.symm⟩
  · rw [consume_of_le (Nat.not_lt.1 hl)] at h
    exact .inr ⟨Nat.not_lt.1 hl, h⟩

/-! ## What is presented to the decoder -/

@[simp] theorem elementBytes_length (r : Reader) (n : Nat) (s : State) : (elementBytes r n s).length = n := by
  simp [elementBytes]

theorem elementField_lt (r : Reader) (n : Nat) (s : State) : elementField r n s < 256 ^ n := by
  have := leNat_lt (elementBytes r n s)
  rwa [elementBytes_length] at this

/-- Where the reader has all bytes of an element, it presents exactly those. -/
theorem elementBytes_of_le {r : Reader} {n : Nat} {s : State} (h : n ≤ readerLeft r s) :
    elementBytes r n s = inBytes s (readerCur r s) (readerCur r s + n) := by
  simp [elementBytes, Nat.min_eq_left h]

/-- The byte at the block reader's cursor. -/
theorem blockByte_of_lt {s : State} (h : s.bpos < s.blkEnd) : blockByte s = inByte s s.bpos := by
  rw [blockByte, elementField, elementBytes_of_le (by rw [readerLeft_block]; omega), inBytes_succ]
  simp [inBytes_self, leNat, readerCur]

end Sys2Proof.Laws
end

