-- ==== Sys2Proof/Laws/Fetch.lean ====
section
/-! SUPPORT. What a turn runs: the element decoded at the engine's cursor, or the host's access (00_scope.md R12, R13). -/

namespace Sys2Proof.Laws

open Sys2Proof.Machine

theorem slotField_lt (k : Slot) (s : State) : slotField k s < 256 ^ k.width := by
  cases k <;> first | exact elementField_lt _ _ _ | (simp [slotField])

/-- The engine's element is always decoded: the bytes presented are as many as its width. -/
theorem fetchSlot_eq (k : Slot) (s : State) : fetchSlot k s = .instr (decodeField k (slotField k s)) := by
  have h : (leBytes k.width (slotField k s)).take k.width = leBytes k.width (slotField k s) :=
    List.take_of_length_le (by simp)
  simp only [fetchSlot, decodeWire, leBytes_length, Nat.lt_irrefl, if_false, h, leNat_leBytes_of_lt (slotField_lt k s)]

/-- The engine's turn, without the fetch. -/
def engineStep (s : State) : Result :=
  match expectedSlot s with
  | some k => exec (decodeField k (slotField k s)) s
  | none =>
    if s.fsm = .endFrame then execEnd s
    else if s.fsm = .expectBlock then .fault .noBlockStep
    else .next s

/-- The host's turn, without the fetch. -/
def hostStep (a : Access) (s : State) : Result :=
  match decodeAccess s.cfg a with
  | .ok (.instr i) => exec i s
  | .ok (.inputRead idx) => hostReadIn idx s
  | .error r => .refused (rejectRefusal r)

/-- A step on the engine's turn. -/
theorem step_of_engine {s : State} (h : isEngineTurn s = true) : step s = engineStep (takeTurn s) := by
  have hf : fetch s = engineFetch (takeTurn s) := by
    unfold isEngineTurn at h
    unfold fetch
    split <;> simp_all
  rw [step, hf, engineFetch, engineStep]
  cases expectedSlot (takeTurn s) with
  | some k => simp only [fetchSlot_eq]
  | none =>
    by_cases h1 : (takeTurn s).fsm = .endFrame
    · simp only [h1, if_true]
    · by_cases h2 : (takeTurn s).fsm = .expectBlock
      · rw [if_neg h1, if_neg h1, if_pos h2, if_pos h2]
      · simp only [h1, h2, if_false]

/-- A step on the host's turn. -/
theorem step_of_host {s : State} {a : Access} {rest : List Turn} (h : s.agenda = .host a :: rest) :
    step s = hostStep a (takeTurn s) := by
  have hf : fetch s = hostFetch a (takeTurn s) := by unfold fetch; rw [h]
  rw [step, hf, hostFetch, hostStep]
  cases decodeAccess (takeTurn s).cfg a with
  | error r => rfl
  | ok o => cases o <;> rfl

theorem engineTurn_or_host (s : State) : isEngineTurn s = true ∨ ∃ a rest, s.agenda = .host a :: rest := by
  unfold isEngineTurn
  split
  · exact .inr ⟨_, _, by assumption⟩
  · exact .inl rfl
  · exact .inl rfl

end Sys2Proof.Laws
end

