-- ==== Sys2Proof/Laws/Meanings.lean ====
section
/-! SUPPORT. Everything each meaning can do when it answers a next state: one lemma per meaning, with the guards that
led there. The invariants are read off these cases. -/

namespace Sys2Proof.Laws

open Sys2Proof.Machine

variable {s t : State}

theorem raise_eq {c : Cause} (h : raise c s = .next t) : t = errorEntry c s := by
  injection h with h
  exact h.symm

theorem next_eq {u : State} (h : (Host.Outcome.next u : Result) = .next t) : t = u := by
  injection h with h
  exact h.symm

/-! ## Header -/

theorem execMagic_cases {m : BitVec 32} (h : execMagic m s = .next t) :
    (s.inLen - s.pos < 4 ∧ t = errorEntry .truncRead s) ∨ t = errorEntry .badMagic s ∨
      (4 ≤ s.inLen - s.pos ∧ t = { s with pos := s.pos + 4, fsm := .expectFlg }) := by
  rcases consume_cases h with ⟨hl, h⟩ | ⟨hl, h⟩
  · exact .inl ⟨hl, h⟩
  · split at h
    · exact .inr (.inr ⟨hl, next_eq h⟩)
    · exact .inr (.inl (raise_eq h))

theorem execFlg_cases {b : Byte} (h : execFlg b s = .next t) :
    (s.inLen - s.pos < 1 ∧ t = errorEntry .truncRead s) ∨ t = errorEntry .badFlgVersion { s with flg := b } ∨
      t = errorEntry .badFlgReserved { s with flg := b } ∨
      (1 ≤ s.inLen - s.pos ∧ flgVersion b = 1 ∧ flgReserved b = false ∧
        t = { s with pos := s.pos + 1, flg := b, fsm := .expectBd }) := by
  rcases consume_cases h with ⟨hl, h⟩ | ⟨hl, h⟩
  · exact .inl ⟨hl, h⟩
  · split at h
    · exact .inr (.inl (raise_eq h))
    · next hv =>
      split at h
      · exact .inr (.inr (.inl (raise_eq h)))
      · next hr => exact .inr (.inr (.inr ⟨hl, not_not.1 hv, by simpa using hr, next_eq h⟩))

theorem execBd_cases {b : Byte} (h : execBd b s = .next t) :
    (s.inLen - s.pos < 1 ∧ t = errorEntry .truncRead s) ∨ t = errorEntry .badBdReserved { s with bd := b } ∨
      (1 ≤ s.inLen - s.pos ∧ bdReserved b = false ∧
        t = { s with pos := s.pos + 1, bd := b, fsm := afterBd s.flg }) := by
  rcases consume_cases h with ⟨hl, h⟩ | ⟨hl, h⟩
  · exact .inl ⟨hl, h⟩
  · split at h
    · exact .inr (.inl (raise_eq h))
    · next hr => exact .inr (.inr ⟨hl, by simpa using hr, next_eq h⟩)

theorem execCsize_cases {v : Word} (h : execCsize v s = .next t) :
    t = errorEntry .truncCsize s ∨ t = errorEntry .csizeRange { s with csize := v } ∨
      (13 ≤ s.inLen - s.pos ∧ v.toNat ≤ s.cfg.lenMax ∧
        t = { s with csize := v, pos := s.pos + 8, fsm := afterCsize s.flg }) := by
  unfold execCsize at h
  split at h
  · exact .inl (raise_eq h)
  · next hl =>
    split at h
    · exact .inr (.inl (raise_eq h))
    · next hv => exact .inr (.inr ⟨Nat.not_lt.1 hl, Nat.not_lt.1 hv, next_eq h⟩)

theorem execDictid_cases {id : BitVec 32} (h : execDictid id s = .next t) : t = errorEntry .dictidPresent s := raise_eq h

theorem execHc_cases {c : Byte} (h : execHc c s = .next t) :
    (s.inLen - s.pos < 1 ∧ t = errorEntry .truncRead s) ∨ t = errorEntry .badHc s ∨
      (1 ≤ s.inLen - s.pos ∧ t = { s with pos := s.pos + 1, fsm := .expectBlockmark }) := by
  rcases consume_cases h with ⟨hl, h⟩ | ⟨hl, h⟩
  · exact .inl ⟨hl, h⟩
  · split at h
    · exact .inr (.inr ⟨hl, next_eq h⟩)
    · exact .inr (.inl (raise_eq h))

/-! ## Blocks and trailer -/

theorem execEndmark_cases (h : execEndmark s = .next t) :
    (s.inLen - s.pos < 4 ∧ t = errorEntry .truncRead s) ∨
      (4 ≤ s.inLen - s.pos ∧ t = { s with pos := s.pos + 4, fsm := .endFrame }) := by
  rcases consume_cases h with ⟨hl, h⟩ | ⟨hl, h⟩
  · exact .inl ⟨hl, h⟩
  · exact .inr ⟨hl, next_eq h⟩

theorem frameBlock_cases {stored : Bool} {n : Nat} (h : frameBlock stored n s = .next t) :
    (s.inLen - s.pos < 4 ∧ t = errorEntry .truncRead s) ∨ t = errorEntry .truncBlock s ∨
      (4 ≤ s.inLen - s.pos ∧ blockNeed s.flg n ≤ s.inLen - (s.pos + 4) ∧
        ((blockChecksumPresent s.flg = true ∧ t = { framePayload stored n s with fsm := .expectBlockchk }) ∨
          (blockChecksumPresent s.flg = false ∧
            t = { framePayload stored n s with fsm := .expectBlock, bsub := blockEntry stored }))) := by
  rcases consume_cases h with ⟨hl, h⟩ | ⟨hl, h⟩
  · exact .inl ⟨hl, h⟩
  · split at h
    · exact .inr (.inl (raise_eq h))
    · next hn =>
      refine .inr (.inr ⟨hl, Nat.not_lt.1 hn, ?_⟩)
      have h := next_eq h
      cases hb : blockChecksumPresent s.flg with
      | true => exact .inl ⟨rfl, by rw [h, enterBlock]; exact if_pos hb⟩
      | false => exact .inr ⟨rfl, by rw [h, enterBlock]; exact if_neg (by simp [hb])⟩

theorem execBchk_cases {c : BitVec 32} (h : execBchk c s = .next t) :
    (s.inLen - s.pos < 4 ∧ t = errorEntry .truncRead s) ∨ t = errorEntry .badBlockChecksum s ∨
      (4 ≤ s.inLen - s.pos ∧
        t = { s with pos := s.pos + 4, fsm := .expectBlock, bsub := blockEntry s.blkStored }) := by
  rcases consume_cases h with ⟨hl, h⟩ | ⟨hl, h⟩
  · exact .inl ⟨hl, h⟩
  · split at h
    · exact .inr (.inr ⟨hl, next_eq h⟩)
    · exact .inr (.inl (raise_eq h))

theorem execPayloadS_cases (h : execPayloadS s = .next t) :
    t = errorEntry .outCapacity s ∨
      (s.outLen + (s.blkEnd - s.blkStart) ≤ s.cfg.outCap ∧
        t = blockDone { appendBytes (inBytes s s.blkStart s.blkEnd) s with bpos := s.blkEnd }) := by
  unfold execPayloadS at h
  split at h
  · exact .inl (raise_eq h)
  · next hc => exact .inr ⟨Nat.not_lt.1 hc, next_eq h⟩

theorem execEnd_cases (h : execEnd s = .next t) :
    t = errorEntry .csizeMismatch s ∨
      (contentChecksumPresent s.flg = true ∧ t = { s with fsm := .expectContentchk }) ∨
      (contentChecksumPresent s.flg = false ∧ t = { s with fsm := .done }) := by
  unfold execEnd at h
  split at h
  · exact .inl (raise_eq h)
  · have h := next_eq h
    cases hc : contentChecksumPresent s.flg with
    | true => exact .inr (.inl ⟨rfl, by rw [h]; simp [hc]⟩)
    | false => exact .inr (.inr ⟨rfl, by rw [h]; simp [hc]⟩)

theorem execCchk_cases {c : BitVec 32} (h : execCchk c s = .next t) :
    t = errorEntry .truncCchk s ∨ t = errorEntry .contentChecksum s ∨
      (4 ≤ s.inLen - s.pos ∧ t = { s with pos := s.pos + 4, fsm := .done }) := by
  unfold execCchk at h
  split at h
  · exact .inl (raise_eq h)
  · next hl =>
    split at h
    · exact .inr (.inr ⟨Nat.not_lt.1 hl, next_eq h⟩)
    · exact .inr (.inl (raise_eq h))

/-! ## Block decoder -/

theorem execToken_cases {lit mlb : BitVec 4} (h : execToken lit mlb s = .next t) :
    (s.bpos = s.blkEnd ∧ t = blockDone s) ∨ t = errorEntry .truncBlockRead s ∨
      (1 ≤ s.blkEnd - s.bpos ∧
        t = { s with
          bpos := s.bpos + 1, litLen := lit.toNat, mlb := mlb, bsub := if lit = 15 then .litext else .litcopy }) := by
  unfold execToken at h
  split at h
  · next hf => exact .inl ⟨by simpa [readerFinished, readerCur, readerHi] using hf, next_eq h⟩
  · rcases consume_cases h with ⟨_, h⟩ | ⟨hl, h⟩
    · exact .inr (.inl h)
    · exact .inr (.inr ⟨hl, next_eq h⟩)

theorem execLitext_cases {b : Byte} (h : execLitext b s = .next t) :
    t = errorEntry .truncBlockRead s ∨ t = errorEntry .litlenOverflow s ∨
      (1 ≤ s.blkEnd - s.bpos ∧ s.litLen + b.toNat ≤ s.cfg.lenMax ∧
        t = { s with
          bpos := s.bpos + 1, litLen := s.litLen + b.toNat, bsub := if b.toNat < 255 then .litcopy else .litext }) := by
  rcases consume_cases h with ⟨_, h⟩ | ⟨hl, h⟩
  · exact .inl h
  · split at h
    · exact .inr (.inl (raise_eq h))
    · next hv => exact .inr (.inr ⟨hl, Nat.not_lt.1 hv, next_eq h⟩)

theorem execLiterals_cases (h : execLiterals s = .next t) :
    t = errorEntry .truncBlockRead s ∨ t = errorEntry .outCapacity s ∨
      (s.litLen ≤ s.blkEnd - s.bpos ∧ s.outLen + s.litLen ≤ s.cfg.outCap ∧
        ((s.bpos + s.litLen = s.blkEnd ∧
            t = blockDone { appendBytes (inBytes s s.bpos (s.bpos + s.litLen)) s with bpos := s.bpos + s.litLen }) ∨
          (s.bpos + s.litLen ≠ s.blkEnd ∧
            t = { appendBytes (inBytes s s.bpos (s.bpos + s.litLen)) s with
              bpos := s.bpos + s.litLen, bsub := .offset }))) := by
  unfold execLiterals at h
  split at h
  · exact .inl (raise_eq h)
  · next hl =>
    split at h
    · exact .inr (.inl (raise_eq h))
    · next hc =>
      refine .inr (.inr ⟨Nat.not_lt.1 hl, Nat.not_lt.1 hc, ?_⟩)
      dsimp only at h
      split at h
      · next he => exact .inl ⟨he, next_eq h⟩
      · next he => exact .inr ⟨he, next_eq h⟩

theorem execOffset_cases {o : BitVec 16} (h : execOffset o s = .next t) :
    t = errorEntry .truncBlockRead s ∨ t = errorEntry .badOffsetZero s ∨ t = errorEntry .badOffsetRange s ∨
      (2 ≤ s.blkEnd - s.bpos ∧ o ≠ 0 ∧ o.toNat ≤ s.outLen - s.winBase ∧
        t = { s with
          bpos := s.bpos + 2, offset := o, matchLen := 4 + s.mlb.toNat
          bsub := if s.mlb = 15 then .matchext else .matchcopy }) := by
  rcases consume_cases h with ⟨_, h⟩ | ⟨hl, h⟩
  · exact .inl h
  · split at h
    · exact .inr (.inl (raise_eq h))
    · next hz =>
      split at h
      · exact .inr (.inr (.inl (raise_eq h)))
      · next hr => exact .inr (.inr (.inr ⟨hl, hz, Nat.not_lt.1 hr, next_eq h⟩))

theorem execMlext_cases {b : Byte} (h : execMlext b s = .next t) :
    t = errorEntry .truncBlockRead s ∨ t = errorEntry .matchlenOverflow s ∨
      (1 ≤ s.blkEnd - s.bpos ∧ s.matchLen + b.toNat ≤ s.cfg.lenMax ∧
        t = { s with
          bpos := s.bpos + 1, matchLen := s.matchLen + b.toNat
          bsub := if b.toNat < 255 then .matchcopy else .matchext }) := by
  rcases consume_cases h with ⟨_, h⟩ | ⟨hl, h⟩
  · exact .inl h
  · split at h
    · exact .inr (.inl (raise_eq h))
    · next hv => exact .inr (.inr ⟨hl, Nat.not_lt.1 hv, next_eq h⟩)

theorem execMatchcopy_cases (h : execMatchcopy s = .next t) :
    t = errorEntry .outCapacity s ∨
      (s.outLen + s.matchLen ≤ s.cfg.outCap ∧
        t = { appendBytes (copiedBytes s.matchLen s) s with bsub := .token }) := by
  unfold execMatchcopy at h
  split at h
  · exact .inl (raise_eq h)
  · next hc => exact .inr ⟨Nat.not_lt.1 hc, by rw [next_eq h, copyMatch_eq_appendBytes]⟩

/-! ## Host commands -/

theorem execStart_cases {v : Word} (h : execStart v s = .next t) :
    (busy s = true ∧ t = { s with irqEn := v.getLsbD 1 }) ∨
      (busy s = false ∧ s.inLen < 11 ∧ t = errorEntry .truncPrelude (clearRun (writeIrqEn v s))) ∨
      (busy s = false ∧ 11 ≤ s.inLen ∧ t = { clearRun (writeIrqEn v s) with fsm := .expectMagic }) := by
  unfold execStart at h
  split at h
  · next hb => exact .inl ⟨hb, next_eq h⟩
  · next hb =>
    have hb : busy s = false := by simpa using hb
    unfold preludeCheck at h
    split at h
    · next hl => exact .inr (.inl ⟨hb, hl, raise_eq h⟩)
    · next hl => exact .inr (.inr ⟨hb, Nat.not_lt.1 hl, next_eq h⟩)

theorem execInLenW_cases {v : Word} (h : execInLenW v s = .next t) :
    (busy s = true ∧ t = s) ∨ (busy s = false ∧ t = { s with inLen := min v.toNat s.cfg.inCap }) := by
  unfold execInLenW at h
  split at h
  · next hb => exact .inl ⟨hb, next_eq h⟩
  · next hb => exact .inr ⟨by simpa using hb, next_eq h⟩

theorem execInW_cases {i : Nat} {b : Byte} (h : execInW i b s = .next t) :
    (busy s = true ∧ t = s) ∨
      (busy s = false ∧ i < s.cfg.inCap ∧ t = { s with inMem := memSet s.inMem i b }) := by
  unfold execInW at h
  split at h
  · cases h
  · next hi =>
    split at h
    · next hb => exact .inl ⟨hb, next_eq h⟩
    · next hb => exact .inr ⟨by simpa using hb, Nat.not_le.1 hi, next_eq h⟩

theorem execOutW_cases {i : Nat} {b : Byte} (h : execOutW i b s = .next t) : t = s := by
  unfold execOutW at h
  split at h
  · cases h
  · exact next_eq h

theorem execOutR_cases {i : Nat} (h : execOutR i s = .next t) :
    t = { s with hostData := t.hostData, draws := t.draws } := by
  unfold execOutR at h
  split at h
  · cases h
  · split at h <;> rw [next_eq h]

theorem hostReadIn_cases {i : Nat} (h : hostReadIn i s = .next t) : t = { s with hostData := t.hostData } := by
  unfold hostReadIn at h
  split at h
  · cases h
  · rw [next_eq h]

end Sys2Proof.Laws
end

