-- ==== Sys2Proof/Laws/PerInstr.lean ====
section
/-! SUPPORT. Statements made per instruction. `CodeIsDefined`: the code of a well-formed instruction is one the spec
defines, of the element's width on the wire (30_encoding.md), and of the width, alignment and range of 20_memory.md R64
on the host port. -/

namespace Sys2Proof.Laws.CodeIsDefined

/-- A host access of `width` bytes at `addr` that 20_memory.md R64 defines. -/
def accessDefined (p : Params) (addr width : Nat) : Prop :=
  (∃ off, off < 256 ∧ off % 8 = 0 ∧ addr = p.regBase + off ∧ width = 8) ∨
  (∃ i, i < p.inCap ∧ addr = p.inBase + i ∧ width = 1) ∨
  (∃ i, i < p.outCap ∧ addr = p.outBase + i ∧ width = 1)

/-- A code the spec defines. -/
def codeDefined (p : Params) : Code → Prop
  | .wire k bytes => bytes.length = k.width
  | .bus (.read addr width) => accessDefined p addr width
  | .bus (.write addr width _) => accessDefined p addr width
  | .bus .reset => True

/-- The instruction's code is defined on every instance on which the instruction is well-formed. -/
def Statement (i : Instr) : Prop := ∀ p : Params, i.wellFormed p = true → codeDefined p (encode p i)

theorem offset_defined (r : Reg) : r.offset < 256 ∧ r.offset % 8 = 0 := by
  cases r with
  | reserved k => have := k.isLt; simp only [Reg.offset]; omega
  | _ => decide

theorem regAccess_defined (p : Params) (r : Reg) : accessDefined p (p.regBase + r.offset) 8 :=
  .inl ⟨_, (offset_defined r).1, (offset_defined r).2, rfl, rfl⟩

theorem wireCode_defined (p : Params) (k : Slot) (v : Nat) : codeDefined p (wireCode k v) := leBytes_length _ _

theorem magic (m : BitVec 32) : Statement (.magic m) := fun p _ => wireCode_defined p .magic _
theorem flg (b : Byte) : Statement (.flg b) := fun p _ => wireCode_defined p .flg _
theorem bd (b : Byte) : Statement (.bd b) := fun p _ => wireCode_defined p .bd _
theorem csize (v : Word) : Statement (.csize v) := fun p _ => wireCode_defined p .csize _
theorem dictid (id : BitVec 32) : Statement (.dictid id) := fun p _ => wireCode_defined p .dictid _
theorem hc (c : Byte) : Statement (.hc c) := fun p _ => wireCode_defined p .hc _
theorem endmark : Statement .endmark := fun p _ => wireCode_defined p .blockmark _
theorem bmarkC (size : BitVec 31) : Statement (.bmarkC size) := fun p _ => wireCode_defined p .blockmark _
theorem bmarkS (size : BitVec 31) : Statement (.bmarkS size) := fun p _ => wireCode_defined p .blockmark _
theorem bchk (c : BitVec 32) : Statement (.bchk c) := fun p _ => wireCode_defined p .bchk _
theorem payloadS : Statement .payloadS := fun p _ => wireCode_defined p .payloadS _
theorem payloadC : Statement .payloadC := fun p _ => wireCode_defined p .payloadC _
theorem cchk (c : BitVec 32) : Statement (.cchk c) := fun p _ => wireCode_defined p .cchk _
theorem token (lit mlb : BitVec 4) : Statement (.token lit mlb) := fun p _ => wireCode_defined p .token _
theorem litext (b : Byte) : Statement (.litext b) := fun p _ => wireCode_defined p .litext _
theorem literals : Statement .literals := fun p _ => wireCode_defined p .literals _
theorem offset (o : BitVec 16) : Statement (.offset o) := fun p _ => wireCode_defined p .offset _
theorem mlext (b : Byte) : Statement (.mlext b) := fun p _ => wireCode_defined p .mlext _
theorem matchcopy : Statement .matchcopy := fun p _ => wireCode_defined p .matchcopy _
theorem start (v : Word) : Statement (.start v) := fun p _ => regAccess_defined p .ctrl
theorem ctrlW (v : Word) : Statement (.ctrlW v) := fun p _ => regAccess_defined p .ctrl
theorem inLenW (v : Word) : Statement (.inLenW v) := fun p _ => regAccess_defined p .inLen
theorem regR (r : Reg) : Statement (.regR r) := fun p _ => regAccess_defined p r
theorem roW (r : Reg) (v : Word) : Statement (.roW r v) := fun p _ => regAccess_defined p r
theorem reset : Statement .reset := fun _ _ => trivial

theorem inW (i : Nat) (b : Byte) : Statement (.inW i b) :=
  fun _ h => .inr (.inl ⟨i, by simpa [Instr.wellFormed] using h, rfl, rfl⟩)

theorem outW (i : Nat) (b : Byte) : Statement (.outW i b) :=
  fun _ h => .inr (.inr ⟨i, by simpa [Instr.wellFormed] using h, rfl, rfl⟩)

theorem outR (i : Nat) : Statement (.outR i) :=
  fun _ h => .inr (.inr ⟨i, by simpa [Instr.wellFormed] using h, rfl, rfl⟩)

end Sys2Proof.Laws.CodeIsDefined
end

