-- ==== Sys2Proof/Laws/Step.lean ====
section
/-! SUPPORT. All a step can do, said once: the engine's turn is one meaning, named by the FSM state; the host's turn is one
of nine effects. Every invariant is derived from these two lists. -/

namespace Sys2Proof.Laws

open Sys2Proof.Machine

/-- What the engine's turn does, by the state it finds. -/
inductive EngineEffect (s t : State) : Prop
  | rest (hb : busy s = false) (h : t = s)
  | magic (hf : s.fsm = .expectMagic) (m : BitVec 32) (h : execMagic m s = .next t)
  | flg (hf : s.fsm = .expectFlg) (b : Byte) (h : execFlg b s = .next t)
  | bd (hf : s.fsm = .expectBd) (b : Byte) (h : execBd b s = .next t)
  | csize (hf : s.fsm = .expectCsize) (v : Word) (h : execCsize v s = .next t)
  | dictid (hf : s.fsm = .expectDictid) (id : BitVec 32) (h : execDictid id s = .next t)
  | hc (hf : s.fsm = .expectHc) (c : Byte) (h : execHc c s = .next t)
  | endmark (hf : s.fsm = .expectBlockmark) (h : execEndmark s = .next t)
  | mark (hf : s.fsm = .expectBlockmark) (stored : Bool) (n : Nat) (h : frameBlock stored n s = .next t)
  | bchk (hf : s.fsm = .expectBlockchk) (c : BitVec 32) (h : execBchk c s = .next t)
  | payloadS (hf : s.fsm = .expectBlock) (hs : s.bsub = .stored) (h : execPayloadS s = .next t)
  | endCheck (hf : s.fsm = .endFrame) (h : execEnd s = .next t)
  | cchk (hf : s.fsm = .expectContentchk) (c : BitVec 32) (h : execCchk c s = .next t)
  | token (hf : s.fsm = .expectBlock) (hs : s.bsub = .token) (lit mlb : BitVec 4) (h : execToken lit mlb s = .next t)
  | litext (hf : s.fsm = .expectBlock) (hs : s.bsub = .litext) (b : Byte) (h : execLitext b s = .next t)
  | literals (hf : s.fsm = .expectBlock) (hs : s.bsub = .litcopy) (h : execLiterals s = .next t)
  | offset (hf : s.fsm = .expectBlock) (hs : s.bsub = .offset) (o : BitVec 16) (h : execOffset o s = .next t)
  | mlext (hf : s.fsm = .expectBlock) (hs : s.bsub = .matchext) (b : Byte) (h : execMlext b s = .next t)
  | matchcopy (hf : s.fsm = .expectBlock) (hs : s.bsub = .matchcopy) (h : execMatchcopy s = .next t)

theorem engineStep_effect {s t : State} (h : engineStep s = .next t) : EngineEffect s t := by
  unfold engineStep at h
  cases hf : s.fsm with
  | expectBlock =>
    cases hs : s.bsub <;> simp only [expectedSlot, hf, hs, blockSlot, decodeField, exec] at h
    case none => simp at h
    case token => exact .token hf hs _ _ h
    case litext => exact .litext hf hs _ h
    case litcopy => exact .literals hf hs h
    case offset => exact .offset hf hs _ h
    case matchext => exact .mlext hf hs _ h
    case matchcopy => exact .matchcopy hf hs h
    case stored => exact .payloadS hf hs h
  | expectBlockmark =>
    simp only [expectedSlot, hf, decodeField, decodeMark] at h
    split at h
    · exact .endmark hf h
    · split at h
      · exact .mark hf true _ h
      · exact .mark hf false _ h
  | idle =>
    simp only [expectedSlot, hf] at h
    exact .rest (by simp [busy, hf]) (next_eq h)
  | done =>
    simp only [expectedSlot, hf] at h
    exact .rest (by simp [busy, hf]) (next_eq h)
  | error =>
    simp only [expectedSlot, hf] at h
    exact .rest (by simp [busy, hf]) (next_eq h)
  | endFrame =>
    simp only [expectedSlot, hf] at h
    exact .endCheck hf h
  | expectMagic => simp only [expectedSlot, hf, decodeField, exec] at h; exact .magic hf _ h
  | expectFlg => simp only [expectedSlot, hf, decodeField, exec] at h; exact .flg hf _ h
  | expectBd => simp only [expectedSlot, hf, decodeField, exec] at h; exact .bd hf _ h
  | expectCsize => simp only [expectedSlot, hf, decodeField, exec] at h; exact .csize hf _ h
  | expectDictid => simp only [expectedSlot, hf, decodeField, exec] at h; exact .dictid hf _ h
  | expectHc => simp only [expectedSlot, hf, decodeField, exec] at h; exact .hc hf _ h
  | expectBlockchk => simp only [expectedSlot, hf, decodeField, exec] at h; exact .bchk hf _ h
  | expectContentchk => simp only [expectedSlot, hf, decodeField, exec] at h; exact .cchk hf _ h

/-- What the host's turn does. -/
inductive HostEffect (s t : State) : Prop
  | nothing (h : t = s)
  | irqEn (v : Word) (h : t = writeIrqEn v s)
  | start (v : Word) (hb : busy s = false) (hl : 11 ≤ s.inLen)
      (h : t = { clearRun (writeIrqEn v s) with fsm := .expectMagic })
  | startShort (v : Word) (hb : busy s = false) (hl : s.inLen < 11)
      (h : t = errorEntry .truncPrelude (clearRun (writeIrqEn v s)))
  | inLen (v : Word) (hb : busy s = false) (h : t = { s with inLen := min v.toNat s.cfg.inCap })
  | inByte (i : Nat) (b : Byte) (hb : busy s = false) (hi : i < s.cfg.inCap)
      (h : t = { s with inMem := memSet s.inMem i b })
  | read (h : t = { s with hostData := t.hostData, draws := t.draws })
  | reset (h : execReset s = .next t)

/-- The instructions a host access decodes to. -/
def isHostInstr : Instr → Bool
  | .start _ => true
  | .ctrlW _ => true
  | .inLenW _ => true
  | .inW _ _ => true
  | .outW _ _ => true
  | .regR _ => true
  | .outR _ => true
  | .roW _ _ => true
  | .reset => true
  | _ => false

theorem isHostInstr_decodeRegWrite (r : Reg) (v : Word) : isHostInstr (decodeRegWrite r v) = true := by
  unfold decodeRegWrite
  split
  · split <;> rfl
  · rfl
  · rfl

theorem decodeAccess_isHostInstr {p : Params} {a : Access} {i : Instr} (h : decodeAccess p a = .ok (.instr i)) :
    isHostInstr i = true := by
  cases a with
  | reset => simp only [decodeAccess, Except.ok.injEq, HostOp.instr.injEq] at h; subst h; rfl
  | read addr width =>
    simp only [decodeAccess] at h
    split at h <;> repeat' (split at h)
    all_goals first
      | (simp only [Except.ok.injEq, HostOp.instr.injEq] at h; subst h; rfl)
      | cases h
  | write addr width data =>
    simp only [decodeAccess] at h
    split at h <;> repeat' (split at h)
    all_goals first
      | (simp only [Except.ok.injEq, HostOp.instr.injEq] at h; subst h; first | rfl | exact isHostInstr_decodeRegWrite _ _)
      | cases h

theorem exec_hostEffect {i : Instr} {s t : State} (hi : isHostInstr i = true) (h : exec i s = .next t) :
    HostEffect s t := by
  cases i with
  | start v =>
    rcases execStart_cases h with ⟨_, h⟩ | ⟨hb, hl, h⟩ | ⟨hb, hl, h⟩
    · exact .irqEn v h
    · exact .startShort v hb hl h
    · exact .start v hb hl h
  | ctrlW v => exact .irqEn v (next_eq h)
  | inLenW v =>
    rcases execInLenW_cases h with ⟨_, h⟩ | ⟨hb, h⟩
    · exact .nothing h
    · exact .inLen v hb h
  | inW i b =>
    rcases execInW_cases h with ⟨_, h⟩ | ⟨hb, hi, h⟩
    · exact .nothing h
    · exact .inByte i b hb hi h
  | outW i b => exact .nothing (execOutW_cases (b := b) h)
  | regR r => exact .read (by rw [next_eq h])
  | outR i => exact .read (execOutR_cases h)
  | roW r v => exact .nothing (next_eq h)
  | reset => exact .reset h
  | _ => cases hi

theorem hostStep_effect {a : Access} {s t : State} (h : hostStep a s = .next t) : HostEffect s t := by
  unfold hostStep at h
  split at h
  · next hd => exact exec_hostEffect (decodeAccess_isHostInstr hd) h
  · refine .read ?_
    rw [hostReadIn_cases h]
  · cases h

/-- All a step can do. -/
theorem step_effect {s t : State} (h : step s = .next t) :
    (isEngineTurn s = true ∧ EngineEffect (takeTurn s) t) ∨
      (isEngineTurn s = false ∧ HostEffect (takeTurn s) t) := by
  rcases engineTurn_or_host s with he | ⟨a, rest, ha⟩
  · rw [step_of_engine he] at h
    exact .inl ⟨he, engineStep_effect h⟩
  · rw [step_of_host ha] at h
    exact .inr ⟨by simp [isEngineTurn, ha], hostStep_effect h⟩

end Sys2Proof.Laws
end

