-- ==== Sys2Proof/Machine/Run.lean ====
section
/-! DEFINITION. A whole run as one function (43_frame_blocks.md R224): a frame loaded after reset by the boot steps of
70_reset_and_hazards.md R304, START, and the outcome the run ends in. No step of the core depends on this file. -/

namespace Sys2Proof.Machine

/-- What a run ends in (R224). -/
inductive RunOutcome
  /-- The plaintext, and the offset just past the frame. -/
  | ok (out : List Byte) (endPos : Nat)
  /-- The error record. -/
  | err (kind : ErrKind) (cause : Cause) (pos : Nat)
deriving DecidableEq, Repr

/-- The outcome a state shows, if its run has ended (R222, 60_exceptions.md R275). -/
def runOutcome (s : State) : Option RunOutcome :=
  if s.fsm = .done then some (.ok (outBytes s 0 s.outLen) s.pos)
  else if s.fsm = .error then some (.err s.errKind s.errCause s.errPos)
  else none

/-- The state after reset with a frame in IN and its length in IN_LEN (70_reset_and_hazards.md R304, steps 1 to 4, for
a frame of at most IN_CAP bytes). Of a longer one the spec says only that it cannot be presented (00_scope.md R5,
92_eei_decisions.md D1): here it is placed past IN and its length is not clamped, a state that no host access reaches
(DESIGN CHOICE, log 24). -/
def loadFrame (p : Params) (frame : List Byte) : State :=
  { State.resetWith p with inMem := placeBytes frame 0 [], inLen := frame.length }

/-- The state after START on a loaded frame (R304, step 5). -/
def startFrame (p : Params) (frame : List Byte) : State :=
  match exec (.start 1) (loadFrame p frame) with
  | .next s => s
  | .fault _ => loadFrame p frame
  | .refused _ => loadFrame p frame

/-- Run the engine until a state that `stop` names, for at most `n` steps. -/
def runUntil (stop : State → Bool) : Nat → State → State
  | 0, s => s
  | n + 1, s =>
    if stop s then s
    else match step s with
      | .next t => runUntil stop n t
      | .fault _ => s
      | .refused _ => s

/-- More steps than any run over `n` input bytes takes (R225). -/
def runFuel (n : Nat) : Nat := 8 * n + 16

/-- Decode(I): the outcome of the run from START over a frame (R224); none for a frame longer than IN_CAP, to which the
spec gives no outcome (DESIGN CHOICE, log 24). -/
def decodeFrame (p : Params) (frame : List Byte) : Option RunOutcome :=
  if p.inCap < frame.length then none
  else runOutcome (runUntil (fun s => !busy s) (runFuel frame.length) (startFrame p frame))

end Sys2Proof.Machine
end

