-- ==== Sys2Proof/Machine/Listing.lean ====
section
/-! DEFINITION. Frame listings, the spec's own notation for the bytes of a frame (30_encoding.md R109), with its
pseudo-directives and their expansions (R110). No step of the core depends on this file. -/

namespace Sys2Proof.Machine

/-- The directives that emit bytes whatever stands around them (R109), and the two sequence shapes (R110). -/
inductive Element
  | magic
  | flg (b : Byte)
  | flgFields (v : BitVec 2) (bi bc cs cc did : Bool)
  | bd (b : Byte)
  | bdMax (k : BitVec 3)
  | csize (n : Word)
  | dictid (n : BitVec 32)
  | hc (b : Byte)
  | mark (m : BitVec 32)
  | tok (b : Byte)
  | litext (b : Byte)
  | mlext (b : Byte)
  | lits (bs : List Byte)
  | off (n : BitVec 16)
  | bchk (c : BitVec 32)
  | cchk (c : BitVec 32)
  | endmark
  | raw (bs : List Byte)
  | seq (lit : List Byte) (off : BitVec 16) (ml : Nat)
  | last (lit : List Byte)
deriving DecidableEq, Repr

/-- One line of a listing: an element, a block, or a checksum computed from what precedes it (R110). -/
inductive Directive
  | element (e : Element)
  | blockC (body : List Element)
  | blockS (payload : List Byte)
  | hcAuto
  | bchkAuto
  | cchkAuto
deriving DecidableEq, Repr

/-- The FLG byte of the named form: the fields of 30_encoding.md R92, reserved bit 0. -/
def flgByte (v : BitVec 2) (bi bc cs cc did : Bool) : Byte :=
  BitVec.ofNat 8
    (64 * v.toNat + 32 * bit bi + 16 * bit bc + 8 * bit cs + 4 * bit cc + bit did)

/-- A token byte from its two nibbles (30_encoding.md R101). -/
def tokenByte (lit mlb : BitVec 4) : Byte := lit ++ mlb

/-- The bytes an element emits (R109, R110). The spec gives `seq` with a match length below 4 no bytes; here the length
less 4 is 0 (DESIGN CHOICE, log 26). -/
def elementEmit : Element → List Byte
  | .magic => [0x04, 0x22, 0x4D, 0x18]
  | .flg b => [b]
  | .flgFields v bi bc cs cc did => [flgByte v bi bc cs cc did]
  | .bd b => [b]
  | .bdMax k => [BitVec.ofNat 8 (16 * k.toNat)]
  | .csize n => leBytes 8 n.toNat
  | .dictid n => leBytes 4 n.toNat
  | .hc b => [b]
  | .mark m => leBytes 4 m.toNat
  | .tok b => [b]
  | .litext b => [b]
  | .mlext b => [b]
  | .lits bs => bs
  | .off n => leBytes 2 n.toNat
  | .bchk c => leBytes 4 c.toNat
  | .cchk c => leBytes 4 c.toNat
  | .endmark => [0, 0, 0, 0]
  | .raw bs => bs
  | .seq lit off ml =>
    tokenByte (lengthNibble lit.length) (lengthNibble (ml - 4)) :: lengthExtension lit.length ++ lit ++
      leBytes 2 off.toNat ++ lengthExtension (ml - 4)
  | .last lit => tokenByte (lengthNibble lit.length) 0 :: lengthExtension lit.length ++ lit

/-- The plaintext that the blocks of a frame without its content checksum decode to, by the core's own steps
(R110 `cchk auto`). The spec speaks of the blocks alone. Where the core's run does not get through all of them (it
rejects the header, a block does not decode, the EndMark does not precede the line, the bytes are more than IN_CAP or the
output more than OUT_CAP), it is here what OUT holds where the run stops: nothing, if no block was reached (DESIGN CHOICE,
log 25). -/
def plaintext (p : Params) (frame : List Byte) : List Byte :=
  let t := runUntil (fun s => s.fsm == .expectContentchk) (runFuel frame.length) (startFrame p frame)
  outBytes t 0 t.outLen

/-- The bytes emitted so far and the payload of the last block. -/
structure Assembly where
  bytes : List Byte
  payload : List Byte
deriving DecidableEq, Repr

/-- Append one line's bytes (R109, R110). The spec gives an ill-formed line no bytes; here a block's mark is the low 32
bits of its size (with bit 31 added for a stored block) whatever the size, `bchk auto` takes the payload of the last block
before it, or the empty string if there is none, and `hc auto` takes the bytes from the fifth on, whatever the first four
are (DESIGN CHOICE, log 26). -/
def emit (p : Params) (a : Assembly) : Directive → Assembly
  | .element e => { a with bytes := a.bytes ++ elementEmit e }
  | .blockC body =>
    let payload := (body.map elementEmit).flatten
    { bytes := a.bytes ++ leBytes 4 payload.length ++ payload, payload := payload }
  | .blockS payload =>
    { bytes := a.bytes ++ leBytes 4 (2 ^ 31 + payload.length) ++ payload, payload := payload }
  | .hcAuto => { a with bytes := a.bytes ++ [(hash p (a.bytes.drop 4)).extractLsb' 8 8] }
  | .bchkAuto => { a with bytes := a.bytes ++ leBytes 4 (hash p a.payload).toNat }
  | .cchkAuto => { a with bytes := a.bytes ++ leBytes 4 (hash p (plaintext p a.bytes)).toNat }

/-- The bytes of a listing (R109, R110). -/
def assemble (p : Params) (listing : List Directive) : List Byte :=
  (listing.foldl (emit p) { bytes := [], payload := [] }).bytes

end Sys2Proof.Machine
end

