-- ==== Sys2Proof/Tests/Slice0.lean ====
section
/-! SUPPORT. Tests: ill-formed instructions are refused, words written out from the spec decode to what they stand for, one
step of each instruction on a vector of 95_test_vectors.md, and a witness for the hypotheses of every statement.
Expected values are the spec's own (the file and vector stand in each section), never the model's answers. -/

namespace Sys2Proof.Tests

open Sys2Proof.Machine

/-! ## Helpers -/

/-- A small instance: IN of 4096 bytes as in 95_test_vectors.md L2.11, OUT of 64 bytes, LEN_MAX 4096. -/
def small : Params where
  lenMax := 4096
  inCap := 4096
  outCap := 64
  regBase := 0
  inBase := 4096
  outBase := 8192
  hash := .informative

/-- A state of the small instance with a frame in IN, in a given FSM state with the frame cursor at `pos`. -/
def at_ (frame : List Byte) (fsm : Fsm) (pos : Nat) : State :=
  { State.resetWith small with
    inMem := placeBytes frame 0 []
    inLen := frame.length
    fsm := fsm
    pos := pos
    flg := 0x60
    bd := 0x40 }

/-- A state inside a compressed block whose payload is the whole of IN but the last 4 bytes. -/
def inBlock (frame : List Byte) (bsub : Bsub) (bpos : Nat) : State :=
  { at_ frame .expectBlock (frame.length - 4) with bsub := bsub, blkEnd := frame.length - 4, bpos := bpos }

/-- The same with bytes already produced. -/
def withOut (bytes : List Byte) (s : State) : State := appendBytes bytes s

/-- A fact of the state a step ends in. -/
def seen {α : Type} (r : Result) (f : State → α) : Option α :=
  match r with
  | .next s => some (f s)
  | .fault _ => none
  | .refused _ => none

/-- The FSM state, the error cause and the error position a step ends in. -/
def outcome (s : State) : Fsm × Cause × Nat := (s.fsm, s.errCause, s.errPos)

/-- What a refused step names. -/
def refusal (r : Result) : Option Refusal :=
  match r with
  | .next _ => none
  | .fault _ => none
  | .refused x => some x

/-- Scenario 1 (95_test_vectors.md L1.1). -/
def scenario1 : List Byte := [0x04, 0x22, 0x4d, 0x18, 0x60, 0x40, 0x82, 0, 0, 0, 0]

/-- The payload and EndMark of scenario 4 (95_test_vectors.md L1.5): token, literal, offset 1, extension 0x2D. -/
def payload4 : List Byte := [0x1f, 0x58, 0x01, 0x00, 0x2d, 0, 0, 0, 0]

/-- Scenario 4 (95_test_vectors.md L1.5) before its match copy: a sound state in the middle of a run. -/
def midRun : State :=
  { State.resetWith Params.reference with
    inMem := placeBytes [0x04, 0x22, 0x4d, 0x18, 0x60, 0x40, 0x82, 5, 0, 0, 0, 0x1f, 0x58, 1, 0, 0x2d, 0, 0, 0, 0] 0 []
    inLen := 20
    fsm := .expectBlock
    bsub := .matchcopy
    pos := 16
    bpos := 16
    blkStart := 11
    blkEnd := 16
    litLen := 1
    matchLen := 64
    mlb := 15
    offset := 1
    outLen := 1
    outMem := [(0, 0x58)]
    winMem := [(0, 0x58)]
    flg := 0x60
    bd := 0x40 }

/-! ## Well-formedness: one ill-formed term for each check -/

theorem test_wf_bmarkC_size_zero : (Instr.bmarkC 0).wellFormed small = false := by decide
theorem test_wf_start_bit_clear : (Instr.start 2).wellFormed small = false := by decide
theorem test_wf_ctrlW_bit_set : (Instr.ctrlW 3).wellFormed small = false := by decide
theorem test_wf_inW_index : (Instr.inW 4096 0).wellFormed small = false := by decide
theorem test_wf_outW_index : (Instr.outW 64 0).wellFormed small = false := by decide
theorem test_wf_outR_index : (Instr.outR 64).wellFormed small = false := by decide
theorem test_wf_roW_ctrl : (Instr.roW .ctrl 0).wellFormed small = false := by decide
theorem test_wf_roW_inLen : (Instr.roW .inLen 0).wellFormed small = false := by decide
theorem test_wf_smallest_block : (Instr.bmarkC 1).wellFormed small = true := by decide

/-! ## Decoding: one word of each row, written out from 30_encoding.md R91 to R104 and 10_state.md R44 -/

theorem test_decode_magic : decode small (.wire .magic [0x04, 0x22, 0x4d, 0x18]) = .ok (.magic 0x184D2204) := by decide
theorem test_decode_flg : decode small (.wire .flg [0x64]) = .ok (.flg 0x64) := by decide
theorem test_decode_bd : decode small (.wire .bd [0x40]) = .ok (.bd 0x40) := by decide
theorem test_decode_csize :
    decode small (.wire .csize [0x05, 0, 0, 0, 0, 0, 0, 0x80]) = .ok (.csize 0x8000000000000005) := by decide
theorem test_decode_dictid : decode small (.wire .dictid [1, 0, 0, 2]) = .ok (.dictid 0x02000001) := by decide
theorem test_decode_hc : decode small (.wire .hc [0x82]) = .ok (.hc 0x82) := by decide
theorem test_decode_endmark : decode small (.wire .blockmark [0, 0, 0, 0]) = .ok .endmark := by decide
theorem test_decode_bmarkC : decode small (.wire .blockmark [0x1b, 0x01, 0, 0]) = .ok (.bmarkC 283) := by decide
theorem test_decode_bmarkS_empty : decode small (.wire .blockmark [0, 0, 0, 0x80]) = .ok (.bmarkS 0) := by decide
theorem test_decode_bchk : decode small (.wire .bchk [0xfa, 0x04, 0x9a, 0x8f]) = .ok (.bchk 0x8F9A04FA) := by decide
theorem test_decode_payloadS : decode small (.wire .payloadS []) = .ok .payloadS := by decide
theorem test_decode_payloadC : decode small (.wire .payloadC []) = .ok .payloadC := by decide
theorem test_decode_cchk : decode small (.wire .cchk [0xf5, 0xa9, 0xb6, 0x02]) = .ok (.cchk 0x02B6A9F5) := by decide
theorem test_decode_token : decode small (.wire .token [0x25]) = .ok (.token 2 5) := by decide
theorem test_decode_litext : decode small (.wire .litext [0xfe]) = .ok (.litext 0xfe) := by decide
theorem test_decode_literals : decode small (.wire .literals []) = .ok .literals := by decide
theorem test_decode_offset : decode small (.wire .offset [0x00, 0x03]) = .ok (.offset 768) := by decide
theorem test_decode_mlext : decode small (.wire .mlext [0x2d]) = .ok (.mlext 0x2d) := by decide
theorem test_decode_matchcopy : decode small (.wire .matchcopy []) = .ok .matchcopy := by decide
theorem test_decode_start : decode small (.bus (.write 0x00 8 3)) = .ok (.start 3) := by decide
theorem test_decode_ctrlW : decode small (.bus (.write 0x00 8 2)) = .ok (.ctrlW 2) := by decide
theorem test_decode_inLenW : decode small (.bus (.write 0x20 8 5000)) = .ok (.inLenW 5000) := by decide
theorem test_decode_inW : decode small (.bus (.write (4096 + 6) 1 0x182)) = .ok (.inW 6 0x82) := by decide
theorem test_decode_outW : decode small (.bus (.write (8192 + 9) 1 7)) = .ok (.outW 9 7) := by decide
theorem test_decode_regR : decode small (.bus (.read 0x38 8)) = .ok (.regR .outLen) := by decide
theorem test_decode_regR_last : decode small (.bus (.read 0xF8 8)) = .ok (.regR (.reserved 21)) := by decide
theorem test_decode_outR : decode small (.bus (.read 8192 1)) = .ok (.outR 0) := by decide
theorem test_decode_roW : decode small (.bus (.write 0x80 8 7)) = .ok (.roW (.reserved 6) 7) := by decide
theorem test_decode_reset : decode small (.bus .reset) = .ok .reset := by decide
theorem test_decode_short : decode small (.wire .magic [0x04, 0x22]) = .error (.shortElement .magic) := by decide

/-! ## XXH32: the check values of 93_implementation_defined.md 2.1 -/

theorem test_xxh32_empty : xxh32Informative [] = 0x02CC5D05 := by decide
theorem test_xxh32_hello : xxh32Informative [0x48, 0x65, 0x6c, 0x6c, 0x6f] = 0xF206D28F := by decide
theorem test_xxh32_header : xxh32Informative [0x60, 0x40] = 0x301A8268 := by decide
theorem test_xxh32_one_stripe :
    xxh32Informative
      [0x30, 0x31, 0x32, 0x33, 0x34, 0x35, 0x36, 0x37, 0x38, 0x39, 0x61, 0x62, 0x63, 0x64, 0x65, 0x66, 0x58, 0x59, 0x5a] =
      0x855ED232 := by decide

/-! ## The listing notation (30_encoding.md R109, R110): scenarios 3 and 4 -/

theorem test_listing_match :
    assemble Params.reference
      [.element .magic, .element (.flg 0x60), .element (.bdMax 4), .hcAuto, .blockC [.seq [0x58] 1 64], .element .endmark] =
      [0x04, 0x22, 0x4d, 0x18, 0x60, 0x40, 0x82, 5, 0, 0, 0, 0x1f, 0x58, 1, 0, 0x2d, 0, 0, 0, 0] := by decide
theorem test_flg_named_form : flgByte 1 true false false true false = 0x64 := by decide

/-! ## The frame header (95_test_vectors.md L1.1, L1.8, L1.9, L2.2, L2.3, L2.4) -/

theorem test_magic :
    seen (step (at_ scenario1 .expectMagic 0)) (fun t => (t.fsm, t.pos)) = some (.expectFlg, 4) := by decide
theorem test_magic_skippable :
    seen (exec (.magic 0x184D2A50) (at_ scenario1 .expectMagic 0)) outcome = some (.error, .badMagic, 0) := by decide
theorem test_flg_version_before_reserved :
    seen (exec (.flg 0x02) (at_ scenario1 .expectFlg 4)) (fun t => (outcome t, t.flg)) =
      some ((.error, .badFlgVersion, 4), 0x02) := by decide
theorem test_flg_reserved :
    seen (exec (.flg 0x7E) (at_ scenario1 .expectFlg 4)) outcome = some (.error, .badFlgReserved, 4) := by decide
theorem test_bd_any_bmax :
    seen (exec (.bd 0x70) (at_ scenario1 .expectBd 5)) (fun t => (t.fsm, t.pos, t.bd)) = some (.expectHc, 6, 0x70) := by
  decide
theorem test_bd_reserved :
    seen (exec (.bd 0x0F) (at_ scenario1 .expectBd 5)) (fun t => (outcome t, t.bd)) =
      some ((.error, .badBdReserved, 5), 0x0F) := by decide
theorem test_csize_short :
    seen (exec (.csize 0) (at_ (List.replicate 18 0) .expectCsize 6)) outcome = some (.error, .truncCsize, 6) := by decide
theorem test_csize_range :
    seen (exec (.csize 0x8000000000000000) (at_ (List.replicate 19 0) .expectCsize 6)) (fun t => (outcome t, t.csize)) =
      some ((.error, .csizeRange, 6), 0x8000000000000000) := by decide
theorem test_dictid :
    seen (exec (.dictid 1) (at_ scenario1 .expectDictid 6)) outcome = some (.error, .dictidPresent, 6) := by decide
theorem test_hc_good :
    seen (step (at_ scenario1 .expectHc 6)) (fun t => (t.fsm, t.pos)) = some (.expectBlockmark, 7) := by decide
theorem test_hc_bad :
    seen (exec (.hc 0x83) (at_ scenario1 .expectHc 6)) outcome = some (.error, .badHc, 6) := by decide

/-! ## The block loop and the trailer (95_test_vectors.md L1.3, L1.4, L1.13, L2.8, L2.9, L2.10) -/

theorem test_endmark :
    seen (step (at_ scenario1 .expectBlockmark 7)) (fun t => (t.fsm, t.pos)) = some (.endFrame, 11) := by decide
theorem test_bmarkC_short_by_one :
    seen (exec (.bmarkC 10) (at_ (List.replicate 24 0) .expectBlockmark 7)) outcome = some (.error, .truncBlock, 7) := by
  decide
theorem test_bmarkC_window_base_independent :
    seen (exec (.bmarkC 4) (withOut (List.replicate 12 0x61) (at_ (List.replicate 30 0) .expectBlockmark 18)))
      (fun t => (t.winBase, t.pos, t.bpos, t.bsub)) = some (12, 26, 22, .token) := by decide
theorem test_bmarkS_exact :
    seen (exec (.bmarkS 5) (at_ (List.replicate 20 0) .expectBlockmark 7)) (fun t => (t.bsub, t.pos, t.bpos)) =
      some (.stored, 16, 11) := by decide
/-- The stored payload 40 41 41 41 41 and its checksum fe 45 21 48 (L1.13). -/
def checkedBlock : State :=
  { at_ [0x40, 0x41, 0x41, 0x41, 0x41, 0xfe, 0x45, 0x21, 0x48, 0, 0, 0, 0] .expectBlockchk 5 with
    blkEnd := 5, blkStored := true }
theorem test_bchk_good :
    seen (step checkedBlock) (fun t => (t.fsm, t.bsub, t.pos)) = some (.expectBlock, .stored, 9) := by decide
theorem test_bchk_bad :
    seen (exec (.bchk 0) checkedBlock) (fun t => (outcome t, t.errKind)) =
      some ((.error, .badBlockChecksum, 5), .corrupted) := by decide
/-- "Hello" stored, at index 4. -/
def storedBlock : State :=
  { at_ [0x05, 0, 0, 0x80, 0x48, 0x65, 0x6c, 0x6c, 0x6f, 0, 0, 0, 0] .expectBlock 9 with
    bsub := .stored, blkStored := true, blkStart := 4, blkEnd := 9, bpos := 4 }
theorem test_payloadS :
    seen (step storedBlock) (fun t => (t.fsm, t.bpos, outBytes t 0 t.outLen)) =
      some (.expectBlockmark, 9, [0x48, 0x65, 0x6c, 0x6c, 0x6f]) := by decide
theorem test_payloadS_capacity :
    seen (exec .payloadS { storedBlock with cfg := { small with outCap := 4 } }) (fun t => (outcome t, t.outLen)) =
      some ((.error, .outCapacity, 4), 0) := by decide
theorem test_payloadC_parses_token :
    seen (exec .payloadC (inBlock payload4 .token 0)) (fun t => (t.litLen, t.mlb, t.bsub)) = some (1, 15, .litcopy) := by
  decide
theorem test_end_size_mismatch :
    seen (step { withOut [0x48, 0x65, 0x6c, 0x6c, 0x6f] (at_ (List.replicate 28 0) .endFrame 28) with
      flg := 0x6c, csize := 6 }) outcome = some (.error, .csizeMismatch, 28) := by decide
theorem test_end_done :
    seen (step (at_ scenario1 .endFrame 11)) (fun t => (t.fsm, statusValue t)) = some (.done, 0xA0C) := by decide
/-- "AAAA" decoded, its checksum f5 a9 b6 02 at 20 (L1.4). -/
def trailer : State :=
  withOut [0x41, 0x41, 0x41, 0x41]
    (at_ (List.replicate 20 0 ++ [0xf5, 0xa9, 0xb6, 0x02]) .expectContentchk 20)
theorem test_cchk_good : seen (step trailer) (fun t => (t.fsm, t.pos)) = some (.done, 24) := by decide
theorem test_cchk_bad :
    seen (exec (.cchk 0) trailer) (fun t => (outcome t, statusValue t, regValue .errinfo t)) =
      some ((.error, .contentChecksum, 20), 0xC0D, 0x2003) := by decide

/-! ## The block decoder (95_test_vectors.md L1.5, L2.5, L2.6, L2.8) -/

theorem test_token :
    seen (step (inBlock payload4 .token 0)) (fun t => (t.litLen, t.mlb, t.bsub, t.bpos)) = some (1, 15, .litcopy, 1) := by
  decide
theorem test_token_at_end :
    seen (exec (.token 0 0) (inBlock payload4 .token 5)) (fun t => (t.fsm, t.bsub)) = some (.expectBlockmark, .none) := by
  decide
theorem test_litext_continues :
    seen (exec (.litext 0xff) { inBlock payload4 .litext 1 with litLen := 15 }) (fun t => (t.litLen, t.bsub)) =
      some (270, .litext) := by decide
theorem test_litext_overflow :
    seen (exec (.litext 0xff) { inBlock payload4 .litext 1 with litLen := 270, cfg := { small with lenMax := 300 } })
      (fun t => (outcome t, t.bpos)) = some ((.error, .litlenOverflow, 1), 1) := by decide
theorem test_literals_missing :
    seen (exec .literals { inBlock [0x50, 0x41, 0x41, 0, 0, 0, 0] .litcopy 1 with litLen := 5 })
      (fun t => (outcome t, t.outLen)) = some ((.error, .truncBlockRead, 1), 0) := by decide
theorem test_literals_end_of_block :
    seen (exec .literals { inBlock [0x10, 0x41, 0, 0, 0, 0] .litcopy 1 with litLen := 1 })
      (fun t => (t.fsm, t.bsub, outBytes t 0 t.outLen)) = some (.expectBlockmark, .none, [0x41]) := by decide
theorem test_offset_equal_to_reach :
    seen (step (withOut [0x61, 0x62, 0x63] (inBlock [0x30, 0x61, 0x62, 0x63, 3, 0, 0, 0, 0, 0] .offset 4)))
      (fun t => (t.offset, t.matchLen, t.bsub, t.bpos)) = some (3, 4, .matchcopy, 6) := by decide
theorem test_offset_little_endian :
    seen (step (withOut [0x61, 0x62, 0x63] (inBlock [0x30, 0x61, 0x62, 0x63, 0, 3, 0, 0, 0, 0] .offset 4))) outcome =
      some (.error, .badOffsetRange, 4) := by decide
theorem test_mlext :
    seen (step { inBlock payload4 .matchext 4 with matchLen := 19 }) (fun t => (t.matchLen, t.bsub)) =
      some (64, .matchcopy) := by decide
theorem test_mlext_overflow :
    seen (exec (.mlext 27) { inBlock payload4 .matchext 4 with matchLen := 274, cfg := { small with lenMax := 300 } })
      outcome = some (.error, .matchlenOverflow, 4) := by decide
theorem test_matchcopy_overlaps :
    seen (exec .matchcopy { withOut [0x61, 0x62] (inBlock payload4 .matchcopy 5) with offset := 2, matchLen := 9 })
      (fun t => (t.bsub, outBytes t 0 t.outLen)) =
      some (.token, [0x61, 0x62, 0x61, 0x62, 0x61, 0x62, 0x61, 0x62, 0x61, 0x62, 0x61]) := by decide
theorem test_matchcopy_capacity :
    seen (exec .matchcopy { withOut [0x58] (inBlock payload4 .matchcopy 5) with offset := 1, matchLen := 64 })
      (fun t => (outcome t, t.outLen)) = some ((.error, .outCapacity, 5), 1) := by decide

/-! ## The host's commands (95_test_vectors.md L2.11: H1 to H10) -/

theorem test_start :
    seen (exec (.start 3) (at_ scenario1 .idle 0)) (fun t => (t.fsm, statusValue t, regValue .ctrl t)) =
      some (.expectMagic, 0x101, 2) := by decide
theorem test_start_prelude :
    seen (exec (.start 3) { at_ scenario1 .done 11 with inLen := 10 })
      (fun t => (statusValue t, regValue .errinfo t, t.errPos, irq t)) = some (0x140D, 0x101, 0, true) := by decide
theorem test_ctrlW_clears_irq :
    seen (exec (.ctrlW 0) { at_ scenario1 .done 11 with irqEn := true }) (fun t => (statusValue t, irq t)) =
      some (0xA0C, false) := by decide
theorem test_inLenW_clamps : seen (exec (.inLenW 5000) (at_ [] .idle 0)) (fun t => t.inLen) = some 4096 := by decide
theorem test_inLenW_busy : seen (exec (.inLenW 0) (at_ scenario1 .expectMagic 0)) (fun t => t.inLen) = some 11 := by decide
theorem test_inW : seen (exec (.inW 6 0x83) (at_ scenario1 .idle 0)) (fun t => inByte t 6) = some 0x83 := by decide
theorem test_inW_busy : seen (exec (.inW 6 0) (at_ scenario1 .expectMagic 0)) (fun t => inByte t 6) = some 0x82 := by decide
theorem test_outW_ignored :
    seen (exec (.outW 0 7) (withOut [0x41] (at_ scenario1 .done 11))) (fun t => outByte t 0) = some 0x41 := by decide
theorem test_regR_hdr :
    seen (exec (.regR .hdr) (at_ scenario1 .done 11)) (fun t => t.hostData) = some 0x4060 := by decide
theorem test_outR :
    seen (exec (.outR 0) (withOut [0x41] (at_ scenario1 .done 11))) (fun t => t.hostData) = some 0x41 := by decide
theorem test_outR_busy_draws :
    seen (exec (.outR 0) (withOut [0x41] (at_ scenario1 .expectMagic 0))) (fun t => t.draws) = some 1 := by decide
theorem test_roW_ignored :
    seen (exec (.roW (.reserved 6) 7) (at_ scenario1 .done 11)) (fun t => regValue (.reserved 6) t) = some 0 := by decide
theorem test_reset_from_busy :
    seen (exec .reset midRun) (fun t => (statusValue t, t.pos, t.inMem, t.epoch)) = some (0, 0, [], 1) := by decide
theorem test_read_of_in :
    seen (step { at_ scenario1 .idle 0 with agenda := [.host (.read (4096 + 6) 1)] }) (fun t => t.hostData) = some 0x82 := by
  decide

/-- A 10-byte input is TRUNC_PRELUDE whatever it holds (L2.2, 42_frame_header.md R180). -/
theorem test_run_prelude :
    decodeFrame Params.reference (scenario1.take 10) = some (.err .truncated .truncPrelude 0) := by decide

theorem test_run_longer_than_the_input_memory : decodeFrame { small with inCap := 10 } scenario1 = none := by decide

/-! ## Words of the table run as the first instruction -/

theorem test_first_word_magic :
    seen (step (State.reset.withFetchWord 32 0x184D2204)) (fun t => (t.fsm, t.pos)) = some (.expectFlg, 4) := by decide
theorem test_first_word_flg :
    seen (step (State.reset.withFetchWord 8 0x40)) (fun t => (t.fsm, t.flg)) = some (.expectBd, 0x40) := by decide
theorem test_first_word_ctrlW :
    seen (step (State.reset.withFetchWord 8 0x02)) (fun t => t.irqEn) = some true := by decide

/-! ## Witnesses: states and operands that meet the hypotheses of each statement -/

/-- The state answers a next state. -/
def answers (r : Result) : Bool :=
  match r with
  | .next _ => true
  | .fault _ => false
  | .refused _ => false

/-- A host access at the head of the agenda. -/
def hostTurn (a : Access) (s : State) : State := { s with agenda := [.host a] }

theorem test_witness_reference_is_admissible : Params.reference.Ok := by decide
theorem test_witness_small_is_admissible : small.Ok := by decide

theorem test_witness_DecodeEncode :
    small.Ok ∧ (Instr.bmarkC 0x7FFFFFFF).wellFormed small = true ∧ (Instr.inW 4095 0xff).wellFormed small = true ∧
      (Instr.start 1).wellFormed small = true ∧ (Instr.roW (.reserved 21) 0).wellFormed small = true := by decide
theorem test_witness_ElementBytes : [(0 : Byte), 0, 0, 0x80].length = Slot.blockmark.width := by decide
theorem test_witness_LengthEncoding :
    (lengthShape 14 [] = true ∧ assembleLength 14 [] = 14) ∧ (lengthShape 15 [0] = true ∧ assembleLength 15 [0] = 15) ∧
      (lengthShape 15 [0xFE] = true ∧ assembleLength 15 [0xFE] = 269) ∧
      (lengthShape 15 [0xFF, 0] = true ∧ assembleLength 15 [0xFF, 0] = 270) := by decide

/-- Each clause of the refusals at a boundary of its range; the first address above REG and the first above OUT are in no
space. -/
theorem test_witness_UndefinedHostAccess :
    small.Ok ∧
    refusal (step (hostTurn (.read 248 4) (at_ [] .idle 0))) = some .regAccessWidth ∧
    refusal (step (hostTurn (.write 255 8 0) (at_ [] .idle 0))) = some .regAccessAlign ∧
    refusal (step (hostTurn (.read 4096 8) (at_ [] .idle 0))) = some .byteAccessWidth ∧
    refusal (step (hostTurn (.write 8255 2 0) (at_ [] .idle 0))) = some .byteAccessWidth ∧
    refusal (step (hostTurn (.read 8256 1) (at_ [] .idle 0))) = some .unmappedAddress ∧
    refusal (step (hostTurn (.write 256 8 0) (at_ [] .idle 0))) = some .unmappedAddress ∧
    refusal (exec (.inW 4096 0) (at_ [] .idle 0)) = some .inputIndex ∧
    refusal (exec (.outR 64) (at_ [] .idle 0)) = some .outputIndex := by decide

theorem test_witness_EngineStep :
    let s := at_ scenario1 .expectMagic 7
    isEngineTurn s = true ∧ expectedSlot s = some .magic ∧ Slot.magic.width ≤ readerLeft (slotReader .magic) s ∧
      decodeWire .magic (inBytes s (readerCur (slotReader .magic) s) (readerCur (slotReader .magic) s + 4)) =
        .ok (.magic 0, []) := by decide
theorem test_witness_EngineStep_dictid_and_rest :
    (isEngineTurn (at_ [] .expectDictid 0) = true ∧ expectedSlot (at_ [] .expectDictid 0) = some .dictid) ∧
      (isEngineTurn State.reset = true ∧ busy State.reset = false) := by decide
/-- An element cut short: no byte left for CSIZE, and an offset with one byte left. -/
theorem test_witness_EngineStep_short :
    (let s := at_ (List.replicate 13 0) .expectCsize 6;
      isEngineTurn s = true ∧ expectedSlot s = some .csize ∧
        readerLeft (slotReader .csize) s < Slot.csize.width) ∧
      (let s := inBlock payload4 .offset 4;
      isEngineTurn s = true ∧ expectedSlot s = some .offset ∧
        readerLeft (slotReader .offset) s < Slot.offset.width) := by decide
theorem test_witness_HostStep :
    (hostTurn (.write 0x20 8 11) State.reset).agenda = [.host (.write 0x20 8 11)] ∧
      decodeAccess Params.reference (.write 0x20 8 11) = .ok (.instr (.inLenW 11)) ∧
      decodeAccess Params.reference (.read (2 ^ 64) 1) = .ok (.inputRead 0) := by decide
theorem test_witness_ShortRead :
    (at_ [0, 0, 0] .expectMagic 0).inLen - 0 < 4 ∧ (at_ [0] .expectFlg 1).inLen - 1 < 1 ∧
      (inBlock [0, 0, 0, 0] .litext 0).blkEnd - 0 < 1 ∧ (inBlock [9, 0, 0, 0, 0] .offset 0).blkEnd - 0 < 2 := by decide
theorem test_witness_ReaderFields :
    let s := inBlock (List.replicate 12 9) .token 0
    8 ≤ readerLeft .block s ∧ readerLeft .frame s = 4 ∧ readerLeft .block { s with bpos := 8 } < 1 := by decide

theorem test_witness_Magic : (at_ [1, 2, 3, 4] .expectMagic 0).pos + 4 ≤ (at_ [1, 2, 3, 4] .expectMagic 0).inLen ∧
    (0x184D2A50 : BitVec 32) ≠ 0x184D2204 := by decide
theorem test_witness_Flg :
    (at_ [0x60] .expectFlg 0).pos + 1 ≤ (at_ [0x60] .expectFlg 0).inLen ∧
      (0xC2 : Byte).extractLsb' 6 2 ≠ 1 ∧ ((0x42 : Byte).extractLsb' 6 2 = 1 ∧ (0x42 : Byte).getLsbD 1 = true) ∧
      ((0x7d : Byte).extractLsb' 6 2 = 1 ∧ (0x7d : Byte).getLsbD 1 = false) := by decide
theorem test_witness_Bd : (0x70 : Byte) &&& 0x8F = 0 ∧ (0x80 : Byte) &&& 0x8F ≠ 0 ∧ (0x01 : Byte) &&& 0x8F ≠ 0 := by decide
theorem test_witness_Csize :
    let s := at_ (List.replicate 19 0) .expectCsize 6
    s.pos + 13 ≤ s.inLen ∧ s.cfg.lenMax < (4097 : Word).toNat ∧ (4096 : Word).toNat ≤ s.cfg.lenMax ∧
      s.inLen - 7 < 13 := by decide
theorem test_witness_Hc :
    let s := at_ scenario1 .expectHc 6
    s.pos + 1 ≤ s.inLen ∧ (0x82 : Byte) = (hash s.cfg (inBytes s 4 s.pos)).extractLsb' 8 8 ∧
      (0x83 : Byte) ≠ (hash s.cfg (inBytes s 4 s.pos)).extractLsb' 8 8 := by decide
theorem test_witness_Endmark : (at_ scenario1 .expectBlockmark 7).pos + 4 ≤ (at_ scenario1 .expectBlockmark 7).inLen := by
  decide
theorem test_witness_BlockMark :
    let s := at_ (List.replicate 20 0) .expectBlockmark 7
    s.pos + 4 ≤ s.inLen ∧ (5 : BitVec 31).toNat + (if s.flg.getLsbD 4 then 4 else 0) + 4 ≤ s.inLen - (s.pos + 4) ∧
      s.inLen - (s.pos + 4) < (6 : BitVec 31).toNat + (if s.flg.getLsbD 4 then 4 else 0) + 4 := by decide
theorem test_witness_WindowBase :
    (withOut [1, 2] (at_ [] .idle 0)).outLen ≤ 2 ∧ 65535 ≤ 65535 ∧ independentBlocks 0x40 = false ∧
      independentBlocks 0x60 = true := by decide
theorem test_witness_BlockChecksum :
    checkedBlock.pos + 4 ≤ checkedBlock.inLen ∧
      0x482145fe = hash checkedBlock.cfg (inBytes checkedBlock checkedBlock.blkStart checkedBlock.blkEnd) ∧
      0 ≠ hash checkedBlock.cfg (inBytes checkedBlock checkedBlock.blkStart checkedBlock.blkEnd) := by decide
theorem test_witness_StoredPayload :
    storedBlock.outLen + (storedBlock.blkEnd - storedBlock.blkStart) ≤ storedBlock.cfg.outCap ∧
      4 < storedBlock.outLen + (storedBlock.blkEnd - storedBlock.blkStart) := by decide
theorem test_witness_End :
    let s := at_ scenario1 .endFrame 11
    isEngineTurn s = true ∧ s.fsm = .endFrame ∧ s.flg.getLsbD 3 = false ∧
      (0x6c : Byte).getLsbD 3 = true ∧ s.outLen ≠ (6 : Word).toNat ∧ s.outLen = (0 : Word).toNat := by decide
theorem test_witness_ContentChecksum :
    trailer.pos + 4 ≤ trailer.inLen ∧ 0x02B6A9F5 = hash trailer.cfg (outBytes trailer 0 trailer.outLen) ∧
      0 ≠ hash trailer.cfg (outBytes trailer 0 trailer.outLen) ∧ { trailer with pos := 21 }.inLen - 21 < 4 := by decide
theorem test_witness_Token :
    (inBlock payload4 .token 5).bpos = (inBlock payload4 .token 5).blkEnd ∧
      (inBlock payload4 .token 4).bpos < (inBlock payload4 .token 4).blkEnd := by decide
theorem test_witness_Extensions :
    let s := { inBlock payload4 .litext 4 with litLen := 4000, matchLen := 4000 }
    s.bpos < s.blkEnd ∧ s.cfg.lenMax < s.litLen + (97 : Byte).toNat ∧ s.litLen + (96 : Byte).toNat ≤ s.cfg.lenMax ∧
      s.cfg.lenMax < s.matchLen + (97 : Byte).toNat ∧ s.matchLen + (96 : Byte).toNat ≤ s.cfg.lenMax := by decide
theorem test_witness_Literals :
    let s := { inBlock payload4 .litcopy 1 with litLen := 4 }
    s.litLen ≤ s.blkEnd - s.bpos ∧ s.outLen + s.litLen ≤ s.cfg.outCap ∧ s.blkEnd - 2 < s.litLen ∧ 3 < s.outLen + s.litLen := by
  decide
theorem test_witness_Offset :
    let s := withOut [1, 2, 3] (inBlock payload4 .offset 3)
    s.bpos + 2 ≤ s.blkEnd ∧ (3 : BitVec 16) ≠ 0 ∧ (3 : BitVec 16).toNat ≤ s.outLen - s.winBase ∧
      s.outLen - s.winBase < (4 : BitVec 16).toNat := by decide
theorem test_witness_midRun_mirrors : WindowMirrors midRun := by
  intro i _ h
  have h0 : i = 0 := Nat.lt_one_iff.1 h
  subst h0
  decide
theorem test_witness_MatchCopy :
    midRun.outLen + midRun.matchLen ≤ midRun.cfg.outCap ∧ WindowMirrors midRun ∧ midRun.offset = 1 ∧
      midRun.offset.toNat ≤ midRun.outLen ∧ ∃ t, exec .matchcopy midRun = .next t :=
  ⟨by decide, test_witness_midRun_mirrors, by decide, by decide, _, rfl⟩
theorem test_witness_MatchCopy_capacity :
    { midRun with cfg := small }.cfg.outCap < midRun.outLen + midRun.matchLen := by decide
theorem test_witness_CompressedPayload :
    (isEngineTurn midRun = true ∧ midRun.fsm = .expectBlock ∧ midRun.bsub ≠ .none ∧ midRun.bsub ≠ .stored) ∧
      (let s := inBlock payload4 .litext 1; s.bpos < s.blkEnd ∧ s.litLen + (inByte s s.bpos).toNat ≤ s.cfg.lenMax) ∧
      (let s := inBlock payload4 .offset 2; s.bpos + 2 ≤ s.blkEnd) ∧
      (let s := inBlock payload4 .matchext 4; s.bpos < s.blkEnd ∧ s.matchLen + (inByte s s.bpos).toNat ≤ s.cfg.lenMax) ∧
      (inBlock payload4 .token 5).bpos = (inBlock payload4 .token 5).blkEnd := by decide

/-- The trapping forms of `payload.c`: a payload exhausted, and one above LEN_MAX by the byte 0x2D at index 4. -/
theorem test_witness_CompressedPayload_traps :
    (inBlock payload4 .litext 5).bpos = (inBlock payload4 .litext 5).blkEnd ∧
      (inBlock payload4 .offset 4).blkEnd - 4 < 2 ∧
      (let s := { inBlock payload4 .litext 4 with litLen := 4052, matchLen := 4052 };
      s.bpos < s.blkEnd ∧ s.cfg.lenMax < s.litLen + (inByte s s.bpos).toNat ∧
        s.cfg.lenMax < s.matchLen + (inByte s s.bpos).toNat) := by decide

theorem test_witness_Start :
    (busy (at_ scenario1 .idle 0) = false ∧ 11 ≤ (at_ scenario1 .idle 0).inLen) ∧
      (busy State.reset = false ∧ State.reset.inLen < 11) ∧ busy (at_ scenario1 .endFrame 11) = true := by decide
theorem test_witness_InputWrite :
    4095 < (at_ [] .idle 0).cfg.inCap ∧ busy (at_ [] .idle 0) = false ∧ busy midRun = true := by decide
theorem test_witness_IgnoredWrites :
    63 < (at_ [] .idle 0).cfg.outCap ∧ Reg.status ≠ .ctrl ∧ Reg.status ≠ .inLen := by decide
theorem test_witness_midRun_bounds : RunBounds midRun :=
  ⟨by decide, by decide, by decide, by decide, by decide, by decide, by decide, by decide, by decide, by decide, by decide,
    by decide⟩
theorem test_witness_RegisterFields :
    midRun.cfg.Ok ∧ RunBounds midRun ∧ busy midRun = true ∧ midRun.fsm = .expectBlock ∧ midRun.errPos ≤ midRun.cfg.inCap :=
  ⟨by decide, test_witness_midRun_bounds, by decide, by decide, by decide⟩
/-- A run that has ended in ERROR, its position at IN_CAP, is in bounds. -/
theorem test_witness_RegisterFields_after_a_run :
    let s := { at_ [] .error 4096 with errPos := 4096, bpos := 4096 }
    s.cfg.Ok ∧ RunBounds s :=
  ⟨by decide, by decide, by decide, by decide, by decide, by decide, by decide, by decide, trivial⟩
theorem test_witness_MemoryReads :
    (let s := withOut [0x41] (at_ scenario1 .done 11);
      63 < s.cfg.outCap ∧ busy s = false ∧ 0 < s.outLen ∧ s.outLen ≤ 1) ∧
      (midRun.cfg.Ok ∧ 2 ^ 63 - 2 < midRun.cfg.inCap) := by decide

theorem test_witness_ErrorsArePrecise :
    isEngineTurn (at_ [0, 0, 0, 0] .expectMagic 0) = true ∧ (at_ [0, 0, 0, 0] .expectMagic 0).fsm ≠ .error ∧
      ∃ t, step (at_ [0, 0, 0, 0] .expectMagic 0) = .next t ∧ t.fsm = .error :=
  ⟨by decide, by decide, _, rfl, by decide⟩
theorem test_witness_OnlyStartAndReset :
    busy (hostTurn (.read 0 8) (at_ scenario1 .done 11)) = false ∧
      ∃ t, step (hostTurn (.read 0 8) (at_ scenario1 .done 11)) = .next t :=
  ⟨by decide, _, rfl⟩
theorem test_witness_InterruptRises :
    let s := at_ scenario1 .endFrame 11
    isEngineTurn s = true ∧ busy s = true ∧ ∃ t, step s = .next t ∧ busy t = false :=
  ⟨by decide, by decide, _, rfl, by decide⟩
theorem test_witness_BlockDecoderIsConfined :
    Instr.matchcopy ∈ [Instr.token 0 0, .litext 0, .literals, .offset 0, .mlext 0, .matchcopy, .payloadC] ∧
      ∃ t, exec .matchcopy midRun = .next t :=
  ⟨by decide, _, rfl⟩
/-- A form that stores nothing, as its row and as `payload.c`. -/
theorem test_witness_BlockDecoderIsConfined_no_store :
    (∃ t, exec (.token 1 15) (inBlock payload4 .token 0) = .next t) ∧
      (∃ t, exec .payloadC (inBlock payload4 .token 0) = .next t) ∧
      (inBlock payload4 .token 0).bsub ∈ [Bsub.token, .litext, .offset, .matchext] :=
  ⟨⟨_, rfl⟩, ⟨_, rfl⟩, by decide⟩
theorem test_witness_FrameSteps :
    Instr.endmark ∈ [Instr.magic 0, .flg 0, .bd 0, .csize 0, .dictid 0, .hc 0, .endmark, .bmarkC 0, .bmarkS 0, .bchk 0,
        .cchk 0] ∧
      ∃ t, exec .endmark (at_ scenario1 .expectBlockmark 7) = .next t :=
  ⟨by decide, _, rfl⟩

theorem test_witness_midRun_memory : MemoryCanonical midRun := by decide
theorem test_witness_midRun_control : ControlConsistent midRun := by decide
theorem test_witness_midRun_header : HeaderChecked midRun := ⟨by decide, by decide, by decide, by decide, by decide⟩
theorem test_witness_midRun_sound : Sound midRun :=
  ⟨by decide, test_witness_midRun_memory, test_witness_midRun_control, test_witness_midRun_header,
    test_witness_midRun_bounds, test_witness_midRun_mirrors⟩
/-- The hypotheses of the invariants, of TRUNC_READ, of completion and of termination. -/
theorem test_witness_midRun_steps :
    (∃ t, step midRun = .next t) ∧ midRun.errCause ≠ .truncRead ∧ isEngineTurn midRun = true ∧ busy midRun = true ∧
      midRun.agenda = [] :=
  ⟨⟨_, rfl⟩, by decide, by decide, by decide, by decide⟩
theorem test_witness_InputIsFixed_and_OutputGrows :
    busy midRun = true ∧ fetch midRun ≠ .instr .reset ∧ (∀ v, fetch midRun ≠ .instr (.start v)) ∧
      ∃ t, step midRun = .next t := by
  have h : fetch midRun = .instr .matchcopy := by decide
  refine ⟨by decide, ?_, ?_, _, rfl⟩
  · rw [h]; decide
  · intro v; rw [h]; simp
theorem test_witness_OnlyResetCancels :
    let s := hostTurn (.write 0 8 3) midRun
    busy s = true ∧ isEngineTurn s = false ∧ fetch s ≠ .instr .reset ∧ ∃ t, step s = .next t :=
  ⟨by decide, by decide, by decide, _, rfl⟩
theorem test_witness_EngineReadsOnlyTheFrame :
    RunBounds midRun ∧ isEngineTurn midRun = true ∧ memSet midRun.inMem 20 0xde ≠ midRun.inMem ∧
      (∀ a, a < midRun.inLen → inByte { midRun with inMem := memSet midRun.inMem 20 0xde } a = inByte midRun a) ∧
      ∃ t, step midRun = .next t := by
  refine ⟨test_witness_midRun_bounds, by decide, by decide, fun a h => ?_, _, rfl⟩
  have h20 : midRun.inLen = 20 := by decide
  simp only [inByte]
  rw [Laws.memGet_memSet_ne _ _ (by omega)]

end Sys2Proof.Tests
end

section
/-! PROOFS. 00_scope.md R12 to R14: each turn runs what its bytes or its access decode to, in the state without that
turn. The turns' steps without the fetch are `step_of_engine` and `step_of_host`. -/

namespace Sys2Proof.Proofs

open Sys2Proof.Machine Sys2Proof.Laws

variable {s : State}

/-! ## The engine's turn -/

/-- Using up a turn leaves what the readers present. -/
@[simp] theorem slotField_takeTurn (k : Slot) (s : State) : slotField k (takeTurn s) = slotField k s := by
  cases k <;> rfl

@[simp] theorem expectedSlot_takeTurn (s : State) : expectedSlot (takeTurn s) = expectedSlot s := rfl

theorem slotField_of_ne_dictid {k : Slot} (hk : k ≠ .dictid) :
    slotField k s = elementField (slotReader k) k.width s := by
  cases k with
  | dictid => exact absurd rfl hk
  | _ => rfl

theorem step_of_expectedSlot {k : Slot} (he : isEngineTurn s = true) (hk : expectedSlot s = some k) :
    step s = exec (decodeField k (slotField k s)) (takeTurn s) := by
  rw [step_of_engine he, engineStep, expectedSlot_takeTurn, hk]
  simp only [slotField_takeTurn]

theorem decodeWire_of_length_eq {k : Slot} {bytes : List Byte} (h : bytes.length = k.width) :
    decodeWire k bytes = .ok (decodeField k (leNat bytes), []) := by
  simp [decodeWire, ← h]

/-- Where the reader has an element's bytes, they decode to the instruction with the field the step presents. -/
theorem decodeWire_inBytes {k : Slot} (hk : k ≠ .dictid) (hl : k.width ≤ readerLeft (slotReader k) s) :
    decodeWire k (inBytes s (readerCur (slotReader k) s) (readerCur (slotReader k) s + k.width)) =
      .ok (decodeField k (slotField k s), []) := by
  rw [decodeWire_of_length_eq (by simp), slotField_of_ne_dictid hk, elementField, elementBytes_of_le hl]

theorem fsm_of_not_busy (h : busy s = false) : s.fsm = .idle ∨ s.fsm = .done ∨ s.fsm = .error := by
  cases hf : s.fsm <;> simp [busy, hf] at h ⊢

theorem step_of_not_busy (he : isEngineTurn s = true) (hb : busy s = false) : step s = .next (takeTurn s) := by
  rw [step_of_engine he, engineStep]
  obtain hf | hf | hf := fsm_of_not_busy hb <;> simp [expectedSlot, hf]

/-- Settles O6: `step` is `exec` of the field the reader presents, and where the reader has the element's bytes that
field is theirs. -/
theorem engineStepRunsTheDecodedElement : Obligations.EngineStepRunsTheDecodedElement := by
  intro s he
  refine ⟨fun k i rest hk hd hl hi => ?_, fun k hk _ _ => ⟨_, step_of_expectedSlot he hk⟩,
    fun hk => ⟨_, step_of_expectedSlot he hk⟩, step_of_not_busy he⟩
  rw [decodeWire_inBytes hd hl] at hi
  cases hi
  exact step_of_expectedSlot he hk

/-! ## The host's turn -/

theorem takeTurn_of_agenda {t : Turn} {rest : List Turn} (h : s.agenda = t :: rest) :
    takeTurn s = { s with agenda := rest } := by
  rw [takeTurn, h, List.tail_cons]

theorem hostStep_of_instr {a : Access} {i : Instr} (h : decodeAccess s.cfg a = .ok (.instr i)) :
    hostStep a s = exec i s := by
  rw [hostStep, h]

theorem hostStep_of_inputRead {a : Access} {idx : Nat} (h : decodeAccess s.cfg a = .ok (.inputRead idx)) :
    hostStep a s = hostReadIn idx s := by
  rw [hostStep, h]

/-- Settles O7: the host's turn is `hostStep` of its access, which runs what the access decodes to. -/
theorem hostStepRunsTheDecodedAccess : Obligations.HostStepRunsTheDecodedAccess := by
  intro s a rest ha
  rw [step_of_host ha, takeTurn_of_agenda ha]
  exact ⟨fun _ hi => hostStep_of_instr hi, fun _ hi => hostStep_of_inputRead hi⟩

end Sys2Proof.Proofs
end

section
/-! PROOFS. 00_scope.md R12: all the engine's turn can do, as one of three outcomes: nothing (not BUSY), error entry
(60_exceptions.md R272), or a move of the run. `EngineEffect` names the meaning the turn runs; the moves name what it
answers when it raises nothing, so that an invariant treats error entry once. -/

namespace Sys2Proof.Proofs

open Sys2Proof.Machine Sys2Proof.Laws

/-! ## The fields that appending leaves (beside those of `Laws`) -/

@[simp] theorem appendBytes_fsm (bs : List Byte) (s : State) : (appendBytes bs s).fsm = s.fsm := by
  rw [appendBytes_frame]

@[simp] theorem appendBytes_pos (bs : List Byte) (s : State) : (appendBytes bs s).pos = s.pos := by
  rw [appendBytes_frame]

@[simp] theorem appendBytes_inLen (bs : List Byte) (s : State) : (appendBytes bs s).inLen = s.inLen := by
  rw [appendBytes_frame]

@[simp] theorem appendBytes_bpos (bs : List Byte) (s : State) : (appendBytes bs s).bpos = s.bpos := by
  rw [appendBytes_frame]

@[simp] theorem appendBytes_blkStart (bs : List Byte) (s : State) : (appendBytes bs s).blkStart = s.blkStart := by
  rw [appendBytes_frame]

@[simp] theorem appendBytes_blkEnd (bs : List Byte) (s : State) : (appendBytes bs s).blkEnd = s.blkEnd := by
  rw [appendBytes_frame]

@[simp] theorem appendBytes_blkStored (bs : List Byte) (s : State) : (appendBytes bs s).blkStored = s.blkStored := by
  rw [appendBytes_frame]

@[simp] theorem appendBytes_blkOutBase (bs : List Byte) (s : State) :
    (appendBytes bs s).blkOutBase = s.blkOutBase := by rw [appendBytes_frame]

@[simp] theorem appendBytes_winBase (bs : List Byte) (s : State) : (appendBytes bs s).winBase = s.winBase := by
  rw [appendBytes_frame]

@[simp] theorem appendBytes_litLen (bs : List Byte) (s : State) : (appendBytes bs s).litLen = s.litLen := by
  rw [appendBytes_frame]

@[simp] theorem appendBytes_matchLen (bs : List Byte) (s : State) : (appendBytes bs s).matchLen = s.matchLen := by
  rw [appendBytes_frame]

@[simp] theorem appendBytes_errKind (bs : List Byte) (s : State) : (appendBytes bs s).errKind = s.errKind := by
  rw [appendBytes_frame]

@[simp] theorem appendBytes_errCause (bs : List Byte) (s : State) : (appendBytes bs s).errCause = s.errCause := by
  rw [appendBytes_frame]

@[simp] theorem appendBytes_errPos (bs : List Byte) (s : State) : (appendBytes bs s).errPos = s.errPos := by
  rw [appendBytes_frame]

/-! ## The moves of a run -/

/-- What an engine's turn that raises no error does, by the element it takes, with the checks that have passed. -/
inductive EngineMove (s t : State) : Prop
  | magic (hf : s.fsm = .expectMagic) (hl : 4 ≤ s.inLen - s.pos)
      (h : t = { s with pos := s.pos + 4, fsm := .expectFlg })
  | flg (hf : s.fsm = .expectFlg) (b : Byte) (hl : 1 ≤ s.inLen - s.pos) (hv : flgVersion b = 1)
      (hr : flgReserved b = false) (h : t = { s with pos := s.pos + 1, flg := b, fsm := .expectBd })
  | bd (hf : s.fsm = .expectBd) (b : Byte) (hl : 1 ≤ s.inLen - s.pos) (hr : bdReserved b = false)
      (h : t = { s with pos := s.pos + 1, bd := b, fsm := afterBd s.flg })
  | csize (hf : s.fsm = .expectCsize) (v : Word) (hl : 13 ≤ s.inLen - s.pos) (hv : v.toNat ≤ s.cfg.lenMax)
      (h : t = { s with csize := v, pos := s.pos + 8, fsm := afterCsize s.flg })
  | hc (hf : s.fsm = .expectHc) (hl : 1 ≤ s.inLen - s.pos)
      (h : t = { s with pos := s.pos + 1, fsm := .expectBlockmark })
  | endmark (hf : s.fsm = .expectBlockmark) (hl : 4 ≤ s.inLen - s.pos)
      (h : t = { s with pos := s.pos + 4, fsm := .endFrame })
  | markChecked (hf : s.fsm = .expectBlockmark) (stored : Bool) (n : Nat) (hl : 4 ≤ s.inLen - s.pos)
      (hn : blockNeed s.flg n ≤ s.inLen - (s.pos + 4)) (hc : blockChecksumPresent s.flg = true)
      (h : t = { framePayload stored n s with fsm := .expectBlockchk })
  | markUnchecked (hf : s.fsm = .expectBlockmark) (stored : Bool) (n : Nat) (hl : 4 ≤ s.inLen - s.pos)
      (hn : blockNeed s.flg n ≤ s.inLen - (s.pos + 4)) (hc : blockChecksumPresent s.flg = false)
      (h : t = { framePayload stored n s with fsm := .expectBlock, bsub := blockEntry stored })
  | bchk (hf : s.fsm = .expectBlockchk) (hl : 4 ≤ s.inLen - s.pos)
      (h : t = { s with pos := s.pos + 4, fsm := .expectBlock, bsub := blockEntry s.blkStored })
  | payloadS (hf : s.fsm = .expectBlock) (hs : s.bsub = .stored)
      (hc : s.outLen + (s.blkEnd - s.blkStart) ≤ s.cfg.outCap)
      (h : t = blockDone { appendBytes (inBytes s s.blkStart s.blkEnd) s with bpos := s.blkEnd })
  | endCheck (hf : s.fsm = .endFrame) (hc : contentChecksumPresent s.flg = true)
      (h : t = { s with fsm := .expectContentchk })
  | endDone (hf : s.fsm = .endFrame) (hc : contentChecksumPresent s.flg = false) (h : t = { s with fsm := .done })
  | cchk (hf : s.fsm = .expectContentchk) (hl : 4 ≤ s.inLen - s.pos)
      (h : t = { s with pos := s.pos + 4, fsm := .done })
  | blockEnd (hf : s.fsm = .expectBlock) (hs : s.bsub = .token) (he : s.bpos = s.blkEnd) (h : t = blockDone s)
  | token (hf : s.fsm = .expectBlock) (hs : s.bsub = .token) (lit mlb : BitVec 4) (hl : 1 ≤ s.blkEnd - s.bpos)
      (h : t = { s with
        bpos := s.bpos + 1, litLen := lit.toNat, mlb := mlb, bsub := if lit = 15 then .litext else .litcopy })
  | litext (hf : s.fsm = .expectBlock) (hs : s.bsub = .litext) (b : Byte) (hl : 1 ≤ s.blkEnd - s.bpos)
      (hv : s.litLen + b.toNat ≤ s.cfg.lenMax)
      (h : t = { s with
        bpos := s.bpos + 1, litLen := s.litLen + b.toNat, bsub := if b.toNat < 255 then .litcopy else .litext })
  | lastLiterals (hf : s.fsm = .expectBlock) (hs : s.bsub = .litcopy) (hl : s.litLen ≤ s.blkEnd - s.bpos)
      (hc : s.outLen + s.litLen ≤ s.cfg.outCap) (he : s.bpos + s.litLen = s.blkEnd)
      (h : t = blockDone { appendBytes (inBytes s s.bpos (s.bpos + s.litLen)) s with bpos := s.bpos + s.litLen })
  | literals (hf : s.fsm = .expectBlock) (hs : s.bsub = .litcopy) (hl : s.litLen ≤ s.blkEnd - s.bpos)
      (hc : s.outLen + s.litLen ≤ s.cfg.outCap) (he : s.bpos + s.litLen ≠ s.blkEnd)
      (h : t = { appendBytes (inBytes s s.bpos (s.bpos + s.litLen)) s with bpos := s.bpos + s.litLen, bsub := .offset })
  | offset (hf : s.fsm = .expectBlock) (hs : s.bsub = .offset) (o : BitVec 16) (hl : 2 ≤ s.blkEnd - s.bpos)
      (ho : o ≠ 0) (hr : o.toNat ≤ s.outLen - s.winBase)
      (h : t = { s with
        bpos := s.bpos + 2, offset := o, matchLen := 4 + s.mlb.toNat
        bsub := if s.mlb = 15 then .matchext else .matchcopy })
  | mlext (hf : s.fsm = .expectBlock) (hs : s.bsub = .matchext) (b : Byte) (hl : 1 ≤ s.blkEnd - s.bpos)
      (hv : s.matchLen + b.toNat ≤ s.cfg.lenMax)
      (h : t = { s with
        bpos := s.bpos + 1, matchLen := s.matchLen + b.toNat
        bsub := if b.toNat < 255 then .matchcopy else .matchext })
  | matchcopy (hf : s.fsm = .expectBlock) (hs : s.bsub = .matchcopy) (hc : s.outLen + s.matchLen ≤ s.cfg.outCap)
      (h : t = { appendBytes (copiedBytes s.matchLen s) s with bsub := .token })

/-- What the engine's turn answers. On error entry the capture registers may hold the field just read
(42_frame_header.md R183, R185, R188). -/
inductive EngineOutcome (s t : State) : Prop
  | rest (hb : busy s = false) (h : t = s)
  | error (c : Cause) (hc : c ≠ .none) (flg bd : Byte) (csize : Word)
      (h : t = errorEntry c { s with flg := flg, bd := bd, csize := csize })
  | move (h : EngineMove s t)

variable {s t : State}

/-- Error entry with nothing captured. -/
theorem EngineOutcome.error_uncaptured {c : Cause} (hc : c ≠ .none) (h : t = errorEntry c s) :
    EngineOutcome s t :=
  .error c hc s.flg s.bd s.csize h

theorem engineOutcome_of_effect (h : EngineEffect s t) : EngineOutcome s t := by
  cases h with
  | rest hb h => exact .rest hb h
  | magic hf m h =>
    obtain ⟨-, h⟩ | h | ⟨hl, h⟩ := execMagic_cases h
    · exact .error_uncaptured (by decide) h
    · exact .error_uncaptured (by decide) h
    · exact .move (.magic hf hl h)
  | flg hf b h =>
    obtain ⟨-, h⟩ | h | h | ⟨hl, hv, hr, h⟩ := execFlg_cases h
    · exact .error_uncaptured (by decide) h
    · exact .error _ (by decide) b s.bd s.csize h
    · exact .error _ (by decide) b s.bd s.csize h
    · exact .move (.flg hf b hl hv hr h)
  | bd hf b h =>
    obtain ⟨-, h⟩ | h | ⟨hl, hr, h⟩ := execBd_cases h
    · exact .error_uncaptured (by decide) h
    · exact .error _ (by decide) s.flg b s.csize h
    · exact .move (.bd hf b hl hr h)
  | csize hf v h =>
    obtain h | h | ⟨hl, hv, h⟩ := execCsize_cases h
    · exact .error_uncaptured (by decide) h
    · exact .error _ (by decide) s.flg s.bd v h
    · exact .move (.csize hf v hl hv h)
  | dictid hf id h => exact .error_uncaptured (by decide) (execDictid_cases (id := id) h)
  | hc hf c h =>
    obtain ⟨-, h⟩ | h | ⟨hl, h⟩ := execHc_cases h
    · exact .error_uncaptured (by decide) h
    · exact .error_uncaptured (by decide) h
    · exact .move (.hc hf hl h)
  | endmark hf h =>
    obtain ⟨-, h⟩ | ⟨hl, h⟩ := execEndmark_cases h
    · exact .error_uncaptured (by decide) h
    · exact .move (.endmark hf hl h)
  | mark hf stored n h =>
    obtain ⟨-, h⟩ | h | ⟨hl, hn, ⟨hc, h⟩ | ⟨hc, h⟩⟩ := frameBlock_cases h
    · exact .error_uncaptured (by decide) h
    · exact .error_uncaptured (by decide) h
    · exact .move (.markChecked hf stored n hl hn hc h)
    · exact .move (.markUnchecked hf stored n hl hn hc h)
  | bchk hf c h =>
    obtain ⟨-, h⟩ | h | ⟨hl, h⟩ := execBchk_cases h
    · exact .error_uncaptured (by decide) h
    · exact .error_uncaptured (by decide) h
    · exact .move (.bchk hf hl h)
  | payloadS hf hs h =>
    obtain h | ⟨hc, h⟩ := execPayloadS_cases h
    · exact .error_uncaptured (by decide) h
    · exact .move (.payloadS hf hs hc h)
  | endCheck hf h =>
    obtain h | ⟨hc, h⟩ | ⟨hc, h⟩ := execEnd_cases h
    · exact .error_uncaptured (by decide) h
    · exact .move (.endCheck hf hc h)
    · exact .move (.endDone hf hc h)
  | cchk hf c h =>
    obtain h | h | ⟨hl, h⟩ := execCchk_cases h
    · exact .error_uncaptured (by decide) h
    · exact .error_uncaptured (by decide) h
    · exact .move (.cchk hf hl h)
  | token hf hs lit mlb h =>
    obtain ⟨he, h⟩ | h | ⟨hl, h⟩ := execToken_cases h
    · exact .move (.blockEnd hf hs he h)
    · exact .error_uncaptured (by decide) h
    · exact .move (.token hf hs lit mlb hl h)
  | litext hf hs b h =>
    obtain h | h | ⟨hl, hv, h⟩ := execLitext_cases h
    · exact .error_uncaptured (by decide) h
    · exact .error_uncaptured (by decide) h
    · exact .move (.litext hf hs b hl hv h)
  | literals hf hs h =>
    obtain h | h | ⟨hl, hc, ⟨he, h⟩ | ⟨he, h⟩⟩ := execLiterals_cases h
    · exact .error_uncaptured (by decide) h
    · exact .error_uncaptured (by decide) h
    · exact .move (.lastLiterals hf hs hl hc he h)
    · exact .move (.literals hf hs hl hc he h)
  | offset hf hs o h =>
    obtain h | h | h | ⟨hl, ho, hr, h⟩ := execOffset_cases h
    · exact .error_uncaptured (by decide) h
    · exact .error_uncaptured (by decide) h
    · exact .error_uncaptured (by decide) h
    · exact .move (.offset hf hs o hl ho hr h)
  | mlext hf hs b h =>
    obtain h | h | ⟨hl, hv, h⟩ := execMlext_cases h
    · exact .error_uncaptured (by decide) h
    · exact .error_uncaptured (by decide) h
    · exact .move (.mlext hf hs b hl hv h)
  | matchcopy hf hs h =>
    obtain h | ⟨hc, h⟩ := execMatchcopy_cases h
    · exact .error_uncaptured (by decide) h
    · exact .move (.matchcopy hf hs hc h)

/-- All a step can do, with the engine's turn by its outcome. -/
theorem step_outcome (h : step s = .next t) :
    (isEngineTurn s = true ∧ EngineOutcome (takeTurn s) t) ∨
      (isEngineTurn s = false ∧ HostEffect (takeTurn s) t) :=
  (step_effect h).imp (And.imp_right engineOutcome_of_effect) id

theorem afterCsize_cases (flg : Byte) : afterCsize flg = .expectDictid ∨ afterCsize flg = .expectHc := by
  unfold afterCsize
  split
  · exact .inl rfl
  · exact .inr rfl

theorem afterBd_cases (flg : Byte) :
    afterBd flg = .expectCsize ∨ afterBd flg = .expectDictid ∨ afterBd flg = .expectHc := by
  unfold afterBd
  split
  · exact .inl rfl
  · exact .inr (afterCsize_cases flg)

end Sys2Proof.Proofs
end

section
/-! PROOFS. 10_state.md R22, R36 and 60_exceptions.md R271: every step keeps `bsub`, `blk_stored` and the error record
consistent with the FSM state. -/

namespace Sys2Proof.Proofs

open Sys2Proof.Machine Sys2Proof.Laws

variable {s t : State}

/-- Error entry writes a consistent record, whatever it finds. -/
theorem controlConsistent_errorEntry {c : Cause} (hc : c ≠ .none) (s : State) :
    ControlConsistent (errorEntry c s) := by
  simp [ControlConsistent, hc]

/-- A state that START or reset has cleared is consistent in any FSM state outside ERROR and EXPECT_BLOCK. -/
theorem controlConsistent_of_clear (hf : s.fsm ≠ .error) (hx : s.fsm ≠ .expectBlock) (hb : s.bsub = .none)
    (hk : s.errKind = .none) (hc : s.errCause = .none) (hp : s.errPos = 0) : ControlConsistent s := by
  simp [ControlConsistent, hf, hx, hb, hk, hc, hp, causeKind]

/-- A move neither starts nor ends in ERROR, and leaves the error record. -/
theorem EngineMove.record (m : EngineMove s t) :
    s.fsm ≠ .error ∧ t.fsm ≠ .error ∧ t.errKind = s.errKind ∧ t.errCause = s.errCause ∧ t.errPos = s.errPos := by
  cases m with
  | bd hf b _ _ h =>
    subst h
    obtain e | e | e := afterBd_cases s.flg <;> simp [hf, e]
  | csize hf v _ _ h =>
    subst h
    obtain e | e := afterCsize_cases s.flg <;> simp [hf, e]
  | _ => subst t; simp [*]

theorem blockEntry_ne_none (stored : Bool) : blockEntry stored ≠ .none := by cases stored <;> decide

theorem blockEntry_eq_stored (stored : Bool) : blockEntry stored = .stored ↔ stored = true := by
  cases stored <;> decide

/-- `bsub` and `blk_stored` agree with the FSM state (10_state.md R22, 43_frame_blocks.md R213). -/
def BsubConsistent (s : State) : Prop :=
  (s.bsub = .none ↔ s.fsm ≠ .expectBlock) ∧ (s.fsm = .expectBlock → (s.bsub = .stored ↔ s.blkStored = true))

theorem bsubConsistent_outside (hf : s.fsm ≠ .expectBlock) (hb : s.bsub = .none) : BsubConsistent s := by
  simp [BsubConsistent, hf, hb]

theorem bsubConsistent_inside (hf : s.fsm = .expectBlock) (hb : s.bsub ≠ .none)
    (hs : s.bsub = .stored ↔ s.blkStored = true) : BsubConsistent s := by
  simp [BsubConsistent, hf, hb, hs]

/-- A sub-state of a compressed block. -/
abbrev Compressed (b : Bsub) : Prop := b ≠ .none ∧ b ≠ .stored

/-- From one sub-state of a compressed block to another. -/
theorem bsubConsistent_compressed (hc : BsubConsistent s) (hf : s.fsm = .expectBlock) (hs : s.bsub ≠ .stored)
    (hft : t.fsm = s.fsm) (hk : t.blkStored = s.blkStored) (hb : Compressed t.bsub) : BsubConsistent t :=
  bsubConsistent_inside (hft.trans hf) hb.1 (by rw [hk, ← hc.2 hf]; simp [hs, hb.2])

/-- Moves between frame elements stay outside EXPECT_BLOCK; a mark or its checksum enters the block by its kind; inside
a compressed block only its end leaves. -/
theorem EngineMove.bsubConsistent (m : EngineMove s t) (hc : BsubConsistent s) : BsubConsistent t := by
  have hout : s.fsm ≠ .expectBlock → s.bsub = .none := hc.1.2
  cases m with
  | bd hf b _ _ h =>
    subst h
    refine bsubConsistent_outside ?_ (hout (by simp [hf]))
    obtain e | e | e := afterBd_cases s.flg <;> simp [e]
  | csize hf v _ _ h =>
    subst h
    refine bsubConsistent_outside ?_ (hout (by simp [hf]))
    obtain e | e := afterCsize_cases s.flg <;> simp [e]
  | markUnchecked hf stored n _ _ _ h =>
    subst h
    exact bsubConsistent_inside rfl (blockEntry_ne_none _) (blockEntry_eq_stored _)
  | bchk hf _ h =>
    subst h
    exact bsubConsistent_inside rfl (blockEntry_ne_none _) (blockEntry_eq_stored _)
  | payloadS hf hs _ h => subst h; exact bsubConsistent_outside (by simp) rfl
  | blockEnd hf hs _ h => subst h; exact bsubConsistent_outside (by simp) rfl
  | lastLiterals hf hs _ _ _ h => subst h; exact bsubConsistent_outside (by simp) rfl
  | token hf hs lit mlb _ h =>
    subst h
    exact bsubConsistent_compressed hc hf (by simp [hs]) rfl rfl
      (iteInduction (fun _ => by decide) (fun _ => by decide))
  | litext hf hs b _ _ h =>
    subst h
    exact bsubConsistent_compressed hc hf (by simp [hs]) rfl rfl
      (iteInduction (fun _ => by decide) (fun _ => by decide))
  | literals hf hs _ _ _ h =>
    subst h
    exact bsubConsistent_compressed hc hf (by simp [hs]) (appendBytes_fsm _ _) (appendBytes_blkStored _ _)
      ⟨nofun, nofun⟩
  | offset hf hs o _ _ _ h =>
    subst h
    exact bsubConsistent_compressed hc hf (by simp [hs]) rfl rfl
      (iteInduction (fun _ => by decide) (fun _ => by decide))
  | mlext hf hs b _ _ h =>
    subst h
    exact bsubConsistent_compressed hc hf (by simp [hs]) rfl rfl
      (iteInduction (fun _ => by decide) (fun _ => by decide))
  | matchcopy hf hs _ h =>
    subst h
    exact bsubConsistent_compressed hc hf (by simp [hs]) (appendBytes_fsm _ _) (appendBytes_blkStored _ _)
      ⟨nofun, nofun⟩
  | _ => subst t; exact bsubConsistent_outside (by simp) (hout (by simp [*]))

theorem controlConsistent_move (h : ControlConsistent s) (m : EngineMove s t) : ControlConsistent t := by
  obtain ⟨hb, hst, hk, hcause, hpos⟩ := h
  obtain ⟨hfs, hft, ek, ec, ep⟩ := m.record
  obtain ⟨hb', hst'⟩ := m.bsubConsistent ⟨hb, hst⟩
  refine ⟨hb', hst', by rw [ek, ec, hk], ?_, fun _ => ep.trans (hpos hfs)⟩
  rw [ec, hcause]
  exact iff_of_true hfs hft

theorem controlConsistent_engine (h : ControlConsistent s) (o : EngineOutcome s t) : ControlConsistent t := by
  cases o with
  | rest _ e => exact e ▸ h
  | error c hc _ _ _ e => exact e ▸ controlConsistent_errorEntry hc _
  | move m => exact controlConsistent_move h m

theorem controlConsistent_host (h : ControlConsistent s) (e : HostEffect s t) : ControlConsistent t := by
  cases e with
  | start v _ _ e => subst e; exact controlConsistent_of_clear nofun nofun rfl rfl rfl rfl
  | startShort v _ _ e => subst e; exact controlConsistent_errorEntry (by decide) _
  | reset e => rw [next_eq e]; exact controlConsistent_of_clear nofun nofun rfl rfl rfl rfl
  | nothing e => exact e ▸ h
  | irqEn v e => subst e; exact h
  | inLen v _ e => subst e; exact h
  | inByte i b _ _ e => subst e; exact h
  | read e => rw [e]; exact h

/-- Settles O49: error entry, START and reset write the record; a move leaves it, and enters or leaves a
block with `bsub` set to match. -/
theorem stepKeepsControlConsistent : Obligations.StepKeepsControlConsistent := by
  intro s t h hst
  have h : ControlConsistent (takeTurn s) := h
  obtain ⟨-, o⟩ | ⟨-, e⟩ := step_outcome hst
  · exact controlConsistent_engine h o
  · exact controlConsistent_host h e

end Sys2Proof.Proofs
end

section
/-! PROOFS. 10_state.md R23 to R36 and 60_exceptions.md R286: every step keeps the cursors and lengths in range, and in
each state of a run leaves in the input what the earlier checks have reserved. -/

namespace Sys2Proof.Proofs

open Sys2Proof.Machine Sys2Proof.Laws

variable {s t : State}

/-! ## The parts of the bounds -/

/-- The part of `RunBounds` that holds in every FSM state. -/
abbrev InRange (s : State) : Prop :=
  s.inLen ≤ s.cfg.inCap ∧ s.outLen ≤ s.cfg.outCap ∧ s.litLen ≤ s.cfg.lenMax ∧ s.matchLen ≤ s.cfg.lenMax ∧
  s.pos ≤ s.cfg.inCap ∧ s.bpos ≤ s.cfg.inCap ∧ s.errPos ≤ s.cfg.inCap

theorem inRange_of_runBounds (h : RunBounds s) : InRange s := by
  obtain ⟨hin, hout, hlit, hmatch, hpos, hbpos, herr, -⟩ := h
  exact ⟨hin, hout, hlit, hmatch, hpos, hbpos, herr⟩

/-- Outside a run nothing more is asked. -/
theorem runBounds_of_not_busy (hb : busy s = false) (h : InRange s) : RunBounds s := by
  obtain hf | hf | hf := fsm_of_not_busy hb <;> simp only [RunBounds, hf, and_true] <;> exact h

/-- In a block the next mark is still in the input, and the block and its sequence are in bounds. -/
theorem runBounds_expectBlock_iff (hf : s.fsm = .expectBlock) :
    RunBounds s ↔ (InRange s ∧ s.pos + 4 ≤ s.inLen ∧ blockBounds s) ∧ sequenceBounds s := by
  simp only [RunBounds, hf, InRange, and_assoc]

/-- A sub-state in which no match is pending. -/
abbrev NoMatch (b : Bsub) : Prop := b ≠ .matchext ∧ b ≠ .matchcopy

theorem sequenceBounds_of_noMatch (h : NoMatch s.bsub) : sequenceBounds s := by
  obtain ⟨hx, hm⟩ := h
  cases hs : s.bsub <;> simp_all [sequenceBounds]

theorem sequenceBounds_of_match (hl : 4 ≤ s.matchLen) (ho : 1 ≤ s.offset.toNat)
    (hr : s.winBase + s.offset.toNat ≤ s.outLen) : sequenceBounds s := by
  cases hs : s.bsub <;> simp only [sequenceBounds, hs] <;> exact ⟨hl, ho, hr⟩

theorem sequenceBounds_blockEntry {stored : Bool} (h : s.bsub = blockEntry stored) : sequenceBounds s := by
  cases stored <;> exact sequenceBounds_of_noMatch (by rw [h]; decide)

/-! ## What the moves' checks give -/

theorem windowBase_le (s : State) : windowBase s ≤ s.outLen := by
  unfold windowBase
  split <;> omega

/-- A mark's check covers the payload and the next mark (43_frame_blocks.md R211). -/
theorem le_blockNeed (flg : Byte) (n : Nat) : n + 4 ≤ blockNeed flg n := by
  unfold blockNeed
  omega

theorem blockNeed_of_checksum {flg : Byte} (h : blockChecksumPresent flg = true) (n : Nat) :
    blockNeed flg n = n + 8 := by
  simp [blockNeed, h]

theorem one_le_toNat {o : BitVec 16} (h : o ≠ 0) : 1 ≤ o.toNat :=
  Nat.pos_of_ne_zero fun hz => h (BitVec.eq_of_toNat_eq hz)

/-- The error position is 0 or one of the two cursors (60_exceptions.md R273). -/
theorem errPosOf_le {n : Nat} (c : Cause) (hp : s.pos ≤ n) (hb : s.bpos ≤ n) : errPosOf c s ≤ n := by
  cases c <;> simp only [errPosOf] <;> omega

/-! ## The engine -/

/-- Error entry needs only the cursors in range, which no capture changes. -/
theorem runBounds_errorEntry (c : Cause) (flg bd : Byte) (csize : Word) (h : RunBounds s) :
    RunBounds (errorEntry c { s with flg := flg, bd := bd, csize := csize }) := by
  obtain ⟨hin, hout, hlit, hmatch, hpos, hbpos, -⟩ := inRange_of_runBounds h
  exact runBounds_of_not_busy rfl ⟨hin, hout, hlit, hmatch, hpos, hbpos, errPosOf_le c hpos hbpos⟩

/-- The moves inside a block: each advances the block cursor, or the output, by no more than it has checked. -/
theorem runBounds_blockMove (hok : s.cfg.Ok) (h : RunBounds s) (hf : s.fsm = .expectBlock) (m : EngineMove s t) :
    RunBounds t := by
  obtain ⟨hlen, -⟩ := hok
  obtain ⟨hb, hseq⟩ := (runBounds_expectBlock_iff hf).1 h
  simp only [InRange, blockBounds] at hb
  cases m with
  | payloadS _ hs hc h =>
    subst h
    simp [RunBounds]
    omega
  | blockEnd _ hs _ h =>
    subst h
    simp [RunBounds]
    omega
  | lastLiterals _ hs hl hc he h =>
    subst h
    simp [RunBounds]
    omega
  | token _ hs lit mlb hl h =>
    have hlit := lit.isLt
    subst h
    have hno : NoMatch (if lit = 15 then Bsub.litext else .litcopy) :=
      iteInduction (fun _ => by decide) (fun _ => by decide)
    refine (runBounds_expectBlock_iff (by exact hf)).2 ⟨?_, sequenceBounds_of_noMatch hno⟩
    simp only [InRange, blockBounds]
    omega
  | litext _ hs b hl hv h =>
    subst h
    have hno : NoMatch (if b.toNat < 255 then Bsub.litcopy else .litext) :=
      iteInduction (fun _ => by decide) (fun _ => by decide)
    refine (runBounds_expectBlock_iff (by exact hf)).2 ⟨?_, sequenceBounds_of_noMatch hno⟩
    simp only [InRange, blockBounds]
    omega
  | literals _ hs hl hc he h =>
    subst h
    refine (runBounds_expectBlock_iff (by simp [hf])).2 ⟨?_, sequenceBounds_of_noMatch ⟨nofun, nofun⟩⟩
    simp [InRange, blockBounds]
    omega
  | offset _ hs o hl ho hr h =>
    have hmlb := s.mlb.isLt
    have ho := one_le_toNat ho
    subst h
    refine (runBounds_expectBlock_iff (by exact hf)).2
      ⟨?_, sequenceBounds_of_match (Nat.le_add_right 4 _) (by exact ho) (by dsimp only; omega)⟩
    simp only [InRange, blockBounds]
    omega
  | mlext _ hs b hl hv h =>
    simp only [sequenceBounds, hs] at hseq
    obtain ⟨h4, ho, hr⟩ := hseq
    subst h
    refine (runBounds_expectBlock_iff (by exact hf)).2 ⟨?_, sequenceBounds_of_match (by dsimp only; omega) ho hr⟩
    simp only [InRange, blockBounds]
    omega
  | matchcopy _ hs hc h =>
    subst h
    refine (runBounds_expectBlock_iff (by simp [hf])).2 ⟨?_, sequenceBounds_of_noMatch ⟨nofun, nofun⟩⟩
    simp [InRange, blockBounds]
    omega
  | _ => simp_all only [reduceCtorEq]

/-- The moves of the frame: each takes bytes that an earlier check has reserved, and reserves what its target needs. -/
theorem runBounds_frameMove (h : RunBounds s) (hf : s.fsm ≠ .expectBlock) (m : EngineMove s t) : RunBounds t := by
  obtain ⟨hin, hout, hlit, hmatch, hpos, hbpos, herr, hrun⟩ := h
  cases m with
  | magic e hl h =>
    subst h
    simp only [e] at hrun
    simp only [RunBounds]
    omega
  | flg e b hl _ _ h =>
    subst h
    simp only [e] at hrun
    simp only [RunBounds]
    omega
  | bd e b hl _ h =>
    subst h
    simp only [e] at hrun
    obtain e | e | e := afterBd_cases s.flg <;> simp only [RunBounds, e] <;> omega
  | csize e v hl _ h =>
    subst h
    simp only [e] at hrun
    obtain e | e := afterCsize_cases s.flg <;> simp only [RunBounds, e] <;> omega
  | hc e hl h =>
    subst h
    simp only [e] at hrun
    simp only [RunBounds]
    omega
  | endmark e hl h =>
    subst h
    simp only [RunBounds]
    omega
  | markChecked e stored n hl hn hc h =>
    have hw := windowBase_le s
    rw [blockNeed_of_checksum hc] at hn
    subst h
    simp [RunBounds, blockBounds]
    omega
  | markUnchecked e stored n hl hn _ h =>
    have hw := windowBase_le s
    have hneed := le_blockNeed s.flg n
    subst h
    refine (runBounds_expectBlock_iff rfl).2 ⟨?_, sequenceBounds_blockEntry rfl⟩
    simp [InRange, blockBounds]
    omega
  | bchk e hl h =>
    subst h
    simp only [e, blockBounds] at hrun
    refine (runBounds_expectBlock_iff rfl).2 ⟨?_, sequenceBounds_blockEntry rfl⟩
    simp only [InRange, blockBounds]
    omega
  | endCheck e _ h =>
    subst h
    simp only [e] at hrun
    exact ⟨hin, hout, hlit, hmatch, hpos, hbpos, herr, hrun⟩
  | endDone e _ h =>
    subst h
    exact ⟨hin, hout, hlit, hmatch, hpos, hbpos, herr, trivial⟩
  | cchk e hl h =>
    subst h
    simp only [RunBounds, and_true]
    omega
  | _ => exact absurd ‹_› hf

theorem runBounds_engine (hok : s.cfg.Ok) (h : RunBounds s) (o : EngineOutcome s t) : RunBounds t := by
  cases o with
  | rest _ e => exact e ▸ h
  | error c _ flg bd csize e => exact e ▸ runBounds_errorEntry c flg bd csize h
  | move m =>
    by_cases hf : s.fsm = .expectBlock
    · exact runBounds_blockMove hok h hf m
    · exact runBounds_frameMove h hf m

/-! ## The host -/

/-- START clears every bounded field but the input's length. -/
theorem inRange_clearRun (h : RunBounds s) (v : Word) : InRange (clearRun (writeIrqEn v s)) := by
  obtain ⟨hin, -⟩ := h
  simpa [InRange] using hin

theorem runBounds_host (h : RunBounds s) (e : HostEffect s t) : RunBounds t := by
  cases e with
  | start v _ hl e =>
    obtain ⟨hin, hout, hlit, hmatch, hpos, hbpos, herr⟩ := inRange_clearRun h v
    exact e ▸ ⟨hin, hout, hlit, hmatch, hpos, hbpos, herr, rfl, hl⟩
  | startShort v _ _ e =>
    exact e ▸ runBounds_errorEntry .truncPrelude 0 0 0 (runBounds_of_not_busy rfl (inRange_clearRun h v))
  | inLen v hb e =>
    obtain ⟨-, hrest⟩ := inRange_of_runBounds h
    subst e
    exact runBounds_of_not_busy hb ⟨Nat.min_le_right _ _, hrest⟩
  | reset e =>
    rw [next_eq e]
    exact runBounds_of_not_busy rfl (by simp [InRange, State.resetWith])
  | nothing e => exact e ▸ h
  | irqEn v e => subst e; exact h
  | inByte i b _ _ e => subst e; exact h
  | read e => rw [e]; exact h

/-- Settles O51: an engine move spends what was reserved and reserves what comes next; only a host that finds the core
not BUSY changes the input's length. -/
theorem stepKeepsRunBounds : Obligations.StepKeepsRunBounds := by
  intro s t hok h hst
  have h : RunBounds (takeTurn s) := h
  obtain ⟨-, o⟩ | ⟨-, e⟩ := step_outcome hst
  · exact runBounds_engine (s := takeTurn s) hok h o
  · exact runBounds_host h e

end Sys2Proof.Proofs
end

section
/-! PROOFS. 10_state.md R32, R40, R41: every engine step appends a byte string to the output, or nothing; so WIN stays a
mirror of OUT, and within a run the output only grows. -/

namespace Sys2Proof.Proofs

open Sys2Proof.Machine Sys2Proof.Laws

variable {s t u : State}

/-! ## What the engine appends -/

/-- Two states hold the same OUT, WIN and output length, over the same free bytes. -/
structure SameOutput (s t : State) : Prop where
  outLen : t.outLen = s.outLen
  outMem : t.outMem = s.outMem
  winMem : t.winMem = s.winMem
  epoch : t.epoch = s.epoch

theorem SameOutput.outByte (h : SameOutput s t) (a : Nat) : Machine.outByte t a = Machine.outByte s a := by
  rw [Machine.outByte, Machine.outByte, h.outMem, h.epoch]

theorem SameOutput.winByte (h : SameOutput s t) (a : Nat) : Machine.winByte t a = Machine.winByte s a := by
  rw [Machine.winByte, Machine.winByte, h.winMem, h.epoch]

/-- A move appends the bytes it copies, in the three copying sub-states, and nothing elsewhere. -/
theorem EngineMove.appends (m : EngineMove s t) : ∃ bs, SameOutput (appendBytes bs s) t := by
  cases m with
  | payloadS _ _ _ h => subst h; exact ⟨_, rfl, rfl, rfl, rfl⟩
  | lastLiterals _ _ _ _ _ h => subst h; exact ⟨_, rfl, rfl, rfl, rfl⟩
  | literals _ _ _ _ _ h => subst h; exact ⟨_, rfl, rfl, rfl, rfl⟩
  | matchcopy _ _ _ h => subst h; exact ⟨_, rfl, rfl, rfl, rfl⟩
  | _ => subst t; exact ⟨[], rfl, rfl, rfl, rfl⟩

theorem EngineOutcome.appends (o : EngineOutcome s t) : ∃ bs, SameOutput (appendBytes bs s) t := by
  cases o with
  | rest _ h => subst h; exact ⟨[], rfl, rfl, rfl, rfl⟩
  | error _ _ _ _ _ h => subst h; exact ⟨[], rfl, rfl, rfl, rfl⟩
  | move m => exact m.appends

/-! ## The window -/

theorem SameOutput.windowMirrors (h : SameOutput s t) (hm : WindowMirrors s) : WindowMirrors t := by
  intro i h1 h2
  rw [h.outLen] at h1 h2
  rw [h.winByte, h.outByte]
  exact hm i h1 h2

/-- With no output there is nothing to mirror. -/
theorem windowMirrors_of_no_output (h : s.outLen = 0) : WindowMirrors s := by
  intro i _ hi
  omega

theorem windowMirrors_host (hm : WindowMirrors s) (e : HostEffect s t) : WindowMirrors t := by
  cases e with
  | start v _ _ e => exact windowMirrors_of_no_output (by rw [e]; rfl)
  | startShort v _ _ e => exact windowMirrors_of_no_output (by rw [e]; rfl)
  | reset e => exact windowMirrors_of_no_output (by rw [next_eq e]; rfl)
  | nothing e => exact e ▸ hm
  | irqEn v e => exact e ▸ hm
  | inLen v _ e => exact e ▸ hm
  | inByte i b _ _ e => exact e ▸ hm
  | read e => rw [e]; exact hm

/-- Settles O52: appending keeps the mirror (`windowMirrors_appendBytes`); START and reset empty the output. -/
theorem stepKeepsWindowMirror : Obligations.StepKeepsWindowMirror := by
  intro s t hm hst
  have hm : WindowMirrors (takeTurn s) := hm
  obtain ⟨-, o⟩ | ⟨-, e⟩ := step_outcome hst
  · obtain ⟨bs, hs⟩ := o.appends
    exact hs.windowMirrors (windowMirrors_appendBytes bs hm)
  · exact windowMirrors_host hm e

/-! ## The output's growth -/

/-- A host command other than START and reset writes IRQ_EN, IN, its length and what belongs to the host side of the
model, and nothing else (44_host_interface.md R252 to R258). -/
theorem exec_host_frame {i : Instr} (hi : isHostInstr i = true) (hs : ∀ v, i ≠ .start v) (hr : i ≠ .reset)
    (h : exec i s = .next t) :
    t = { s with
      irqEn := t.irqEn, inLen := t.inLen, inMem := t.inMem, hostData := t.hostData, draws := t.draws } := by
  cases i with
  | start v => exact absurd rfl (hs v)
  | reset => exact absurd rfl hr
  | ctrlW v => rw [next_eq h]; rfl
  | inLenW v => obtain ⟨-, h⟩ | ⟨-, h⟩ := execInLenW_cases h <;> rw [h]
  | inW i b => obtain ⟨-, h⟩ | ⟨-, -, h⟩ := execInW_cases h <;> rw [h]
  | outW i b => rw [execOutW_cases (b := b) h]
  | regR r => rw [next_eq h]
  | outR i => rw [execOutR_cases h]
  | roW r v => rw [next_eq h]
  | _ => cases hi

/-- The same of a step on the host's turn. -/
theorem step_host_frame (he : isEngineTurn s = false) (hs : ∀ v, fetch s ≠ .instr (.start v))
    (hr : fetch s ≠ .instr .reset) (h : step s = .next t) :
    t = { takeTurn s with
      irqEn := t.irqEn, inLen := t.inLen, inMem := t.inMem, hostData := t.hostData, draws := t.draws } := by
  obtain he' | ⟨a, rest, ha⟩ := engineTurn_or_host s
  · rw [he] at he'
    cases he'
  have hf : fetch s = hostFetch a (takeTurn s) := by rw [fetch, ha]
  rw [step_of_host ha] at h
  rw [hf] at hs hr
  cases hd : decodeAccess (takeTurn s).cfg a with
  | error r => rw [hostStep, hd] at h; cases h
  | ok op =>
    cases op with
    | instr i =>
      simp only [hostFetch, hd, ne_eq, Fetched.instr.injEq] at hs hr
      rw [hostStep_of_instr hd] at h
      exact exec_host_frame (decodeAccess_isHostInstr hd) hs hr h
    | inputRead idx =>
      rw [hostStep_of_inputRead hd] at h
      rw [hostReadIn_cases h]

/-- Settles O59: the engine appends, which leaves every byte below the old output length; the host's commands write no
output. -/
theorem outputGrowsMonotonically : Obligations.OutputGrowsMonotonically := by
  intro s t hs hr hst
  obtain ⟨-, o⟩ | ⟨he, -⟩ := step_outcome hst
  · obtain ⟨bs, hsame⟩ := o.appends
    refine ⟨?_, fun a ha => ?_⟩
    · rw [hsame.outLen, appendBytes_outLen]
      exact Nat.le_add_right _ _
    · rw [hsame.outByte]
      exact outByte_appendBytes_of_outside bs (takeTurn s) (.inl ha)
  · rw [step_host_frame he hs hr hst]
    exact ⟨le_rfl, fun _ _ => rfl⟩

end Sys2Proof.Proofs
end

section
/-! PROOFS. 10_state.md R39, 60_exceptions.md R289: the engine depends only on the bytes of the frame. Each meaning
commutes with replacing IN by a memory that agrees with it below `in_len`; only HC, BCHK, a literal run and a stored
payload look at IN beyond the field presented to them. -/

namespace Sys2Proof.Proofs

open Sys2Proof.Machine Sys2Proof.Laws

/-! ## Another content of IN -/

/-- The state with another content of IN. -/
def withIn (m : Mem) (s : State) : State := { s with inMem := m }

/-- The answer with another content of IN in the next state. -/
def answerWithIn (m : Mem) : Result → Result
  | .next t => .next (withIn m t)
  | .fault f => .fault f
  | .refused r => .refused r

/-- The two contents of IN agree on the frame. -/
def AgreesOnFrame (m : Mem) (s : State) : Prop := ∀ a, a < s.inLen → inByte (withIn m s) a = inByte s a

variable {m : Mem} {s : State}

@[simp] theorem answerWithIn_next (t : State) : answerWithIn m (.next t) = .next (withIn m t) := rfl

theorem errorEntry_withIn (c : Cause) (s : State) : errorEntry c (withIn m s) = withIn m (errorEntry c s) := by
  cases c <;> rfl

theorem raise_withIn (c : Cause) (s : State) : raise c (withIn m s) = answerWithIn m (raise c s) := by
  rw [raise, raise, errorEntry_withIn, answerWithIn_next]

/-- A branch on a condition that does not look at IN. -/
theorem ite_withIn {p p' : Prop} [Decidable p] [Decidable p'] {x y x' y' : Result} (hp : p' ↔ p)
    (hx : p → x' = answerWithIn m x) (hy : ¬ p → y' = answerWithIn m y) :
    (if p' then x' else y') = answerWithIn m (if p then x else y) := by
  by_cases h : p
  · rw [if_pos h, if_pos (hp.2 h), hx h]
  · rw [if_neg h, if_neg (mt hp.1 h), hy h]

theorem readerLeft_withIn (r : Reader) (s : State) : readerLeft r (withIn m s) = readerLeft r s := by
  cases r <;> rfl

theorem readerAdvance_withIn (r : Reader) (n : Nat) (s : State) :
    readerAdvance r n (withIn m s) = withIn m (readerAdvance r n s) := by
  cases r <;> rfl

/-- Taking bytes off a reader looks at its cursor and limit only. -/
theorem consume_withIn {r : Reader} {n : Nat} {k k' : State → Result}
    (hk : ∀ u, k' (withIn m u) = answerWithIn m (k u)) :
    consume r n (withIn m s) k' = answerWithIn m (consume r n s k) := by
  by_cases hl : readerLeft r s < n
  · rw [consume_of_lt hl, consume_of_lt (by rwa [readerLeft_withIn]), raise_withIn]
  · have hl := Nat.not_lt.1 hl
    rw [consume_of_le hl, consume_of_le (by rwa [readerLeft_withIn]), readerAdvance_withIn, hk]

theorem appendBytes_withIn (bs : List Byte) (s : State) :
    appendBytes bs (withIn m s) = withIn m (appendBytes bs s) := by
  induction bs generalizing s with
  | nil => rfl
  | cons b bs ih => exact ih (appendByte b s)

/-- A match copy reads WIN, never IN. -/
theorem copyMatch_withIn (n : Nat) (s : State) : copyMatch n (withIn m s) = withIn m (copyMatch n s) := by
  induction n generalizing s with
  | zero => rfl
  | succ n ih => exact ih (appendByte (winByte s (matchSource s)) s)

/-! ## Meanings that do not look at IN -/

theorem execMagic_withIn (x : BitVec 32) : execMagic x (withIn m s) = answerWithIn m (execMagic x s) :=
  consume_withIn fun _ => ite_withIn .rfl (fun _ => rfl) fun _ => raise_withIn _ _

theorem execFlg_withIn (b : Byte) : execFlg b (withIn m s) = answerWithIn m (execFlg b s) :=
  consume_withIn fun _ => ite_withIn .rfl (fun _ => raise_withIn _ { s with flg := b }) fun _ =>
    ite_withIn .rfl (fun _ => raise_withIn _ { s with flg := b }) fun _ => rfl

theorem execBd_withIn (b : Byte) : execBd b (withIn m s) = answerWithIn m (execBd b s) :=
  consume_withIn fun _ => ite_withIn .rfl (fun _ => raise_withIn _ { s with bd := b }) fun _ => rfl

theorem execCsize_withIn (v : Word) : execCsize v (withIn m s) = answerWithIn m (execCsize v s) :=
  ite_withIn .rfl (fun _ => raise_withIn _ s) fun _ =>
    ite_withIn .rfl (fun _ => raise_withIn _ { s with csize := v }) fun _ => rfl

theorem execEndmark_withIn : execEndmark (withIn m s) = answerWithIn m (execEndmark s) := consume_withIn fun _ => rfl

theorem enterBlock_withIn (s : State) : enterBlock (withIn m s) = withIn m (enterBlock s) := by
  rw [enterBlock, enterBlock, apply_ite (withIn m)]
  rfl

theorem frameBlock_withIn (stored : Bool) (n : Nat) :
    frameBlock stored n (withIn m s) = answerWithIn m (frameBlock stored n s) :=
  consume_withIn fun u => ite_withIn (by rw [readerLeft_withIn]; rfl) (fun _ => raise_withIn _ _) fun _ =>
    congrArg Host.Outcome.next (enterBlock_withIn (framePayload stored n s))

theorem execEnd_withIn : execEnd (withIn m s) = answerWithIn m (execEnd s) :=
  ite_withIn .rfl (fun _ => raise_withIn _ _) fun _ => rfl

theorem execCchk_withIn (c : BitVec 32) : execCchk c (withIn m s) = answerWithIn m (execCchk c s) :=
  ite_withIn .rfl (fun _ => raise_withIn _ _) fun _ => ite_withIn .rfl (fun _ => rfl) fun _ => raise_withIn _ _

theorem execToken_withIn (lit mlb : BitVec 4) :
    execToken lit mlb (withIn m s) = answerWithIn m (execToken lit mlb s) :=
  ite_withIn .rfl (fun _ => rfl) fun _ => consume_withIn fun _ => rfl

theorem execLitext_withIn (b : Byte) : execLitext b (withIn m s) = answerWithIn m (execLitext b s) :=
  consume_withIn fun _ => ite_withIn .rfl (fun _ => raise_withIn _ _) fun _ => rfl

theorem execOffset_withIn (o : BitVec 16) : execOffset o (withIn m s) = answerWithIn m (execOffset o s) :=
  consume_withIn fun _ => ite_withIn .rfl (fun _ => raise_withIn _ _) fun _ =>
    ite_withIn .rfl (fun _ => raise_withIn _ _) fun _ => rfl

theorem execMlext_withIn (b : Byte) : execMlext b (withIn m s) = answerWithIn m (execMlext b s) :=
  consume_withIn fun _ => ite_withIn .rfl (fun _ => raise_withIn _ _) fun _ => rfl

theorem execMatchcopy_withIn : execMatchcopy (withIn m s) = answerWithIn m (execMatchcopy s) :=
  ite_withIn .rfl (fun _ => raise_withIn _ _) fun _ =>
    congrArg (fun u : State => Host.Outcome.next { u with bsub := .token }) (copyMatch_withIn s.matchLen s)

/-! ## Meanings that look at the frame in IN -/

/-- A byte string of IN that ends in the frame is the same. -/
theorem inBytes_withIn (ha : AgreesOnFrame m s) {a b : Nat} (hb : b ≤ s.inLen) :
    inBytes (withIn m s) a b = inBytes s a b :=
  inBytes_congr fun i _ hi => ha i (hi.trans_le hb)

theorem execHc_withIn (ha : AgreesOnFrame m s) (hp : s.pos ≤ s.inLen) (c : Byte) :
    execHc c (withIn m s) = answerWithIn m (execHc c s) := by
  have hin : inBytes (withIn m s) 4 (withIn m s).pos = inBytes s 4 s.pos := inBytes_withIn ha hp
  exact consume_withIn fun _ => ite_withIn (by rw [hin]; rfl) (fun _ => rfl) fun _ => raise_withIn _ _

/-- The payload, which BCHK hashes and a stored block copies. -/
theorem payload_withIn (ha : AgreesOnFrame m s) (hb : s.blkEnd ≤ s.inLen) :
    inBytes (withIn m s) (withIn m s).blkStart (withIn m s).blkEnd = inBytes s s.blkStart s.blkEnd :=
  inBytes_withIn ha hb

theorem execBchk_withIn (ha : AgreesOnFrame m s) (hb : s.blkEnd ≤ s.inLen) (c : BitVec 32) :
    execBchk c (withIn m s) = answerWithIn m (execBchk c s) :=
  consume_withIn fun _ => ite_withIn (by rw [payload_withIn ha hb]; rfl) (fun _ => rfl) fun _ => raise_withIn _ _

theorem execPayloadS_withIn (ha : AgreesOnFrame m s) (hb : s.blkEnd ≤ s.inLen) :
    execPayloadS (withIn m s) = answerWithIn m (execPayloadS s) :=
  ite_withIn .rfl (fun _ => raise_withIn _ _) fun _ => by
    rw [payload_withIn ha hb, appendBytes_withIn]
    rfl

theorem execLiterals_withIn (ha : AgreesOnFrame m s) (hbpos : s.bpos ≤ s.blkEnd) (hb : s.blkEnd ≤ s.inLen) :
    execLiterals (withIn m s) = answerWithIn m (execLiterals s) :=
  ite_withIn .rfl (fun _ => raise_withIn _ _) fun hl => ite_withIn .rfl (fun _ => raise_withIn _ _) fun _ => by
    have hend : s.bpos + s.litLen ≤ s.inLen := by rw [readerLeft_block] at hl; omega
    have hin : inBytes (withIn m s) (withIn m s).bpos ((withIn m s).bpos + (withIn m s).litLen) =
        inBytes s s.bpos (s.bpos + s.litLen) := inBytes_withIn ha hend
    rw [hin, appendBytes_withIn]
    exact ite_withIn .rfl (fun _ => rfl) fun _ => rfl

/-! ## The engine's turn -/

/-- A reader inside the frame presents the same field. -/
theorem elementField_withIn (ha : AgreesOnFrame m s) {r : Reader} (hc : readerCur r s ≤ readerHi r s)
    (hh : readerHi r s ≤ s.inLen) (n : Nat) : elementField r n (withIn m s) = elementField r n s := by
  have hcur : readerCur r (withIn m s) = readerCur r s := by cases r <;> rfl
  have hin : inBytes (withIn m s) (readerCur r s) (readerCur r s + min n (readerLeft r s)) =
      inBytes s (readerCur r s) (readerCur r s + min n (readerLeft r s)) :=
    inBytes_withIn ha (by unfold readerLeft; omega)
  simp only [elementField, elementBytes, readerLeft_withIn, hcur, hin]

theorem slotField_withIn (ha : AgreesOnFrame m s) {k : Slot}
    (hc : readerCur (slotReader k) s ≤ readerHi (slotReader k) s) (hh : readerHi (slotReader k) s ≤ s.inLen) :
    slotField k (withIn m s) = slotField k s := by
  by_cases hk : k = .dictid
  · subst hk; rfl
  · rw [slotField_of_ne_dictid hk, slotField_of_ne_dictid hk, elementField_withIn ha hc hh]

/-- The turn of an element whose reader lies in the frame and whose meaning commutes. -/
theorem engineStep_withIn_of_slot (ha : AgreesOnFrame m s) {k : Slot} (hk : expectedSlot s = some k)
    (hc : readerCur (slotReader k) s ≤ readerHi (slotReader k) s) (hh : readerHi (slotReader k) s ≤ s.inLen)
    (hx : ∀ v, exec (decodeField k v) (withIn m s) = answerWithIn m (exec (decodeField k v) s)) :
    engineStep (withIn m s) = answerWithIn m (engineStep s) := by
  have hk' : expectedSlot (withIn m s) = some k := hk
  simp only [engineStep, hk, hk', slotField_withIn ha hc hh, hx]

/-- The turn of an element of the frame reader. -/
theorem engineStep_withIn_of_frame (ha : AgreesOnFrame m s) (k : Slot) (hr : slotReader k = .frame)
    (hk : expectedSlot s = some k) (hp : s.pos ≤ s.inLen)
    (hx : ∀ v, exec (decodeField k v) (withIn m s) = answerWithIn m (exec (decodeField k v) s)) :
    engineStep (withIn m s) = answerWithIn m (engineStep s) :=
  engineStep_withIn_of_slot ha hk (by rw [hr]; exact hp) (by rw [hr]; exact le_rfl) hx

/-- The turn of a state that reads no element: the END check, or nothing. -/
theorem engineStep_withIn_of_no_slot (hk : expectedSlot s = none) :
    engineStep (withIn m s) = answerWithIn m (engineStep s) := by
  have hk' : expectedSlot (withIn m s) = none := hk
  simp only [engineStep, hk, hk']
  exact ite_withIn .rfl (fun _ => execEnd_withIn) fun _ => ite_withIn .rfl (fun _ => rfl) fun _ => rfl

theorem exec_decodeMark_withIn (x : BitVec 32) :
    exec (decodeMark x) (withIn m s) = answerWithIn m (exec (decodeMark x) s) := by
  unfold decodeMark
  split
  · exact execEndmark_withIn
  · split
    · exact frameBlock_withIn true _
    · exact frameBlock_withIn false _

/-- Inside a block, whose payload lies in the frame. -/
theorem engineStep_withIn_of_block (ha : AgreesOnFrame m s) (hf : s.fsm = .expectBlock) (hc : s.bpos ≤ s.blkEnd)
    (hh : s.blkEnd ≤ s.inLen) : engineStep (withIn m s) = answerWithIn m (engineStep s) := by
  have hk : expectedSlot s = blockSlot s.bsub := by rw [expectedSlot, hf]
  cases hs : s.bsub <;> rw [hs] at hk
  case none => exact engineStep_withIn_of_no_slot hk
  case token => exact engineStep_withIn_of_slot ha hk hc hh fun _ => execToken_withIn _ _
  case litext => exact engineStep_withIn_of_slot ha hk hc hh fun _ => execLitext_withIn _
  case litcopy => exact engineStep_withIn_of_slot ha hk hc hh fun _ => execLiterals_withIn ha hc hh
  case offset => exact engineStep_withIn_of_slot ha hk hc hh fun _ => execOffset_withIn _
  case matchext => exact engineStep_withIn_of_slot ha hk hc hh fun _ => execMlext_withIn _
  case matchcopy => exact engineStep_withIn_of_slot ha hk hc hh fun _ => execMatchcopy_withIn
  case stored => exact engineStep_withIn_of_slot ha hk hc hh fun _ => execPayloadS_withIn ha hh

/-- The engine's turn commutes with a change of IN outside the frame, since in bounds it reads inside the frame. -/
theorem engineStep_withIn (ha : AgreesOnFrame m s) (hr : RunBounds s) :
    engineStep (withIn m s) = answerWithIn m (engineStep s) := by
  obtain ⟨-, -, -, -, -, -, -, hrun⟩ := hr
  cases hf : s.fsm <;> simp only [hf] at hrun
  case expectBlock =>
    obtain ⟨hp, ⟨-, hc, hh, -⟩, -⟩ := hrun
    exact engineStep_withIn_of_block ha hf hc (by omega)
  case idle => exact engineStep_withIn_of_no_slot (by rw [expectedSlot, hf])
  case done => exact engineStep_withIn_of_no_slot (by rw [expectedSlot, hf])
  case error => exact engineStep_withIn_of_no_slot (by rw [expectedSlot, hf])
  case endFrame => exact engineStep_withIn_of_no_slot (by rw [expectedSlot, hf])
  all_goals have hp : s.pos ≤ s.inLen := by omega
  case expectMagic =>
    exact engineStep_withIn_of_frame ha .magic rfl (by rw [expectedSlot, hf]) hp fun _ => execMagic_withIn _
  case expectFlg => exact engineStep_withIn_of_frame ha .flg rfl (by rw [expectedSlot, hf]) hp fun _ => execFlg_withIn _
  case expectBd => exact engineStep_withIn_of_frame ha .bd rfl (by rw [expectedSlot, hf]) hp fun _ => execBd_withIn _
  case expectCsize =>
    exact engineStep_withIn_of_frame ha .csize rfl (by rw [expectedSlot, hf]) hp fun _ => execCsize_withIn _
  case expectDictid =>
    exact engineStep_withIn_of_frame ha .dictid rfl (by rw [expectedSlot, hf]) hp fun _ => raise_withIn _ _
  case expectHc =>
    exact engineStep_withIn_of_frame ha .hc rfl (by rw [expectedSlot, hf]) hp fun _ => execHc_withIn ha hp _
  case expectBlockmark =>
    exact engineStep_withIn_of_frame ha .blockmark rfl (by rw [expectedSlot, hf]) hp fun _ => exec_decodeMark_withIn _
  case expectBlockchk =>
    obtain ⟨-, -, hb, -⟩ := hrun
    exact engineStep_withIn_of_frame ha .bchk rfl (by rw [expectedSlot, hf]) hp fun _ =>
      execBchk_withIn ha (hb.trans_le hp) _
  case expectContentchk =>
    exact engineStep_withIn_of_frame ha .cchk rfl (by rw [expectedSlot, hf]) hp fun _ => execCchk_withIn _

/-- Settles O60: the engine's step commutes with the change, and its answer is the given next state. -/
theorem engineReadsOnlyTheFrame : Obligations.EngineReadsOnlyTheFrame := by
  intro s t m hr he ha hst
  rw [step_of_engine he] at hst
  calc step (withIn m s)
    _ = engineStep (withIn m (takeTurn s)) := step_of_engine he
    _ = answerWithIn m (engineStep (takeTurn s)) := engineStep_withIn (s := takeTurn s) ha hr
    _ = .next (withIn m t) := by rw [hst, answerWithIn_next]

end Sys2Proof.Proofs
end

section
/-! PROOFS. 10_state.md R21, R22, R44 to R54, R56 and 60_exceptions.md R270, R271: the codes, what each register shows,
and what the elements of the frame leave unchanged. -/

namespace Sys2Proof.Proofs

open Sys2Proof.Machine Sys2Proof.Laws

variable {s t : State}

/-! ## Codes -/

/-- A cause's code names its kind by its high nibble (60_exceptions.md R271). -/
theorem kindCode_causeKind {c : Cause} (h : c ≠ .none) : kindCode (causeKind c) = causeCode c / 16 + 1 := by
  cases c with
  | none => exact absurd rfl h
  | _ => rfl

/-- The table of 60_exceptions.md R271, read from a code to its cause. -/
def causeOfCode : Nat → Cause
  | 0x01 => .truncPrelude
  | 0x02 => .truncRead
  | 0x03 => .truncCsize
  | 0x04 => .truncBlock
  | 0x05 => .truncCchk
  | 0x06 => .truncBlockRead
  | 0x10 => .badMagic
  | 0x11 => .badFlgVersion
  | 0x12 => .badFlgReserved
  | 0x13 => .badBdReserved
  | 0x14 => .badHc
  | 0x15 => .badBlockChecksum
  | 0x16 => .badOffsetZero
  | 0x17 => .badOffsetRange
  | 0x18 => .csizeMismatch
  | 0x20 => .contentChecksum
  | 0x30 => .dictidPresent
  | 0x31 => .csizeRange
  | 0x32 => .litlenOverflow
  | 0x33 => .matchlenOverflow
  | 0x34 => .outCapacity
  | _ => .none

theorem causeOfCode_causeCode (c : Cause) : causeOfCode (causeCode c) = c := by cases c <;> rfl

theorem causeCode_injective : Function.Injective causeCode := Function.LeftInverse.injective causeOfCode_causeCode

theorem fsmCode_lt (f : Fsm) : fsmCode f < 14 := by cases f <;> decide

theorem bsubCode_lt (b : Bsub) : bsubCode b < 8 := by cases b <;> decide

theorem kindCode_lt (k : ErrKind) : kindCode k < 5 := by cases k <;> decide

theorem causeCode_lt (c : Cause) : causeCode c < 256 := by cases c <;> decide

/-- Settles O42: the tables by evaluation, the nibble rule cause by cause, and a cause read back from its code. -/
theorem causeCodesNameTheirKind : Obligations.CauseCodesNameTheirKind :=
  ⟨fun _ => kindCode_causeKind, ⟨rfl, rfl⟩, fun _ _ h => causeCode_injective h, ⟨rfl, fsmCode_lt⟩, ⟨rfl, bsubCode_lt⟩,
    ⟨rfl, kindCode_lt⟩, rfl, rfl, rfl, rfl⟩

/-! ## Registers -/

/-- A field of a register whose value is the number `v`. -/
theorem extractLsb'_ofNat {v k w x : Nat} (hk : k + w ≤ 64) (h : v / 2 ^ k % 2 ^ w = x) :
    (BitVec.ofNat 64 v).extractLsb' k w = BitVec.ofNat w x := by
  subst h
  apply BitVec.eq_of_getLsbD_eq
  intro i hi
  have hki : k + i < 64 := by omega
  simp only [BitVec.getLsbD_extractLsb', BitVec.getLsbD_ofNat, Nat.testBit_mod_two_pow, Nat.testBit_div_two_pow, hi,
    hki, decide_true, Bool.true_and, Nat.add_comm i k]

/-- A flag of a register whose value is the number `v`. -/
theorem getLsbD_ofNat {v k : Nat} {b : Bool} (hk : k < 64) (h : v / 2 ^ k % 2 = bit b) :
    (BitVec.ofNat 64 v).getLsbD k = b := by
  rw [BitVec.getLsbD_ofNat, Nat.testBit_eq_decide_div_mod_eq, h]
  cases b <;> simp [bit, hk]

theorem bit_lt (b : Bool) : bit b < 2 := by cases b <;> decide

theorem isDone_eq_decide (s : State) : isDone s = decide (s.fsm = .done) := rfl

theorem isError_eq_decide (s : State) : isError s = decide (s.fsm = .error) := rfl

theorem resultValid_eq_decide (s : State) :
    resultValid s = decide (s.fsm = .done ∨ (s.fsm = .error ∧ s.errKind = .checksumMismatch)) := by
  simp [resultValid, isDone_eq_decide, isError_eq_decide, Bool.beq_eq_decide_eq]

theorem irq_eq_decide (s : State) : irq s = (s.irqEn && decide (s.fsm = .done ∨ s.fsm = .error)) := by
  simp [irq, isDone_eq_decide, isError_eq_decide]

/-- CTRL (10_state.md R45). -/
theorem ctrl_fields (s : State) :
    (regValue .ctrl s).getLsbD 1 = s.irqEn ∧ ∀ n, n ≠ 1 → (regValue .ctrl s).getLsbD n = false := by
  have hctrl : regValue .ctrl s = if s.irqEn then BitVec.twoPow 64 1 else 0 := by
    unfold regValue
    cases s.irqEn <;> rfl
  rw [hctrl]
  cases s.irqEn <;> simp [BitVec.getLsbD_twoPow, eq_comm]

/-- STATUS (10_state.md R46): the codes and flags fit their fields, so each is a digit of the value. -/
theorem status_fields (s : State) :
    (regValue .status s).extractLsb' 0 4 = BitVec.ofNat 4 (fsmCode s.fsm) ∧
      (regValue .status s).extractLsb' 4 3 = BitVec.ofNat 3 (bsubCode s.bsub) ∧
      (regValue .status s).getLsbD 7 = false ∧ (regValue .status s).getLsbD 8 = busy s ∧
      (regValue .status s).getLsbD 9 = isDone s ∧ (regValue .status s).getLsbD 10 = isError s ∧
      (regValue .status s).getLsbD 11 = resultValid s ∧ (regValue .status s).getLsbD 12 = irq s ∧
      (regValue .status s).extractLsb' 13 51 = 0 := by
  have hf := fsmCode_lt s.fsm
  have hb := bsubCode_lt s.bsub
  have h8 := bit_lt (busy s)
  have h9 := bit_lt (isDone s)
  have h10 := bit_lt (isError s)
  have h11 := bit_lt (resultValid s)
  have h12 := bit_lt (irq s)
  have h7 : bit false = 0 := rfl
  simp only [regValue, statusValue]
  refine ⟨extractLsb'_ofNat ?_ ?_, extractLsb'_ofNat ?_ ?_, getLsbD_ofNat ?_ ?_, getLsbD_ofNat ?_ ?_,
    getLsbD_ofNat ?_ ?_, getLsbD_ofNat ?_ ?_, getLsbD_ofNat ?_ ?_, getLsbD_ofNat ?_ ?_,
    extractLsb'_ofNat (x := 0) ?_ ?_⟩ <;> omega

/-- ERRINFO (10_state.md R47). -/
theorem errinfo_fields (s : State) :
    (regValue .errinfo s).extractLsb' 0 3 = BitVec.ofNat 3 (kindCode s.errKind) ∧
      (regValue .errinfo s).extractLsb' 3 5 = 0 ∧
      (regValue .errinfo s).extractLsb' 8 8 = BitVec.ofNat 8 (causeCode s.errCause) ∧
      (regValue .errinfo s).extractLsb' 16 48 = 0 := by
  have hk := kindCode_lt s.errKind
  have hc := causeCode_lt s.errCause
  refine ⟨extractLsb'_ofNat ?_ ?_, extractLsb'_ofNat (x := 0) ?_ ?_, extractLsb'_ofNat ?_ ?_,
    extractLsb'_ofNat (x := 0) ?_ ?_⟩ <;> omega

/-- HDR (10_state.md R52). -/
theorem hdr_fields (s : State) :
    (regValue .hdr s).extractLsb' 0 8 = s.flg ∧ (regValue .hdr s).extractLsb' 8 8 = s.bd ∧
      (regValue .hdr s).extractLsb' 16 48 = 0 := by
  have hflg := s.flg.isLt
  have hbd := s.bd.isLt
  refine ⟨(extractLsb'_ofNat ?_ ?_).trans (BitVec.ofNat_toNat 8 s.flg),
    (extractLsb'_ofNat ?_ ?_).trans (BitVec.ofNat_toNat 8 s.bd), extractLsb'_ofNat (x := 0) ?_ ?_⟩ <;> omega

/-- The counts (10_state.md R48 to R51, R53): in bounds none exceeds a capacity, so none exceeds 64 bits. -/
theorem counts_toNat (hok : s.cfg.Ok) (h : RunBounds s) :
    (regValue .inLen s).toNat = s.inLen ∧ (regValue .outLen s).toNat = s.outLen ∧
      (regValue .inPos s).toNat = s.pos ∧ (regValue .blkPos s).toNat = s.bpos ∧
      (regValue .errPos s).toNat = s.errPos := by
  obtain ⟨-, hmax, -, hicap, hocap, -⟩ := hok
  obtain ⟨hin, hout, -, -, hpos, hbpos, herr⟩ := inRange_of_runBounds h
  have hfit : ∀ n, n ≤ s.cfg.lenMax → (BitVec.ofNat 64 n).toNat = n := fun n hn =>
    (BitVec.toNat_ofNat n 64).trans (Nat.mod_eq_of_lt (by omega))
  exact ⟨hfit _ (by omega), hfit _ (by omega), hfit _ (by omega), hfit _ (by omega), hfit _ (by omega)⟩

/-- Settles O38: register by register, each field a digit of the register's value. -/
theorem registerFieldsAreTheStates : Obligations.RegisterFieldsAreTheStates := by
  intro s
  refine ⟨ctrl_fields s, ?_, errinfo_fields s, hdr_fields s, fun _ => rfl, rfl, counts_toNat⟩
  rw [← resultValid_eq_decide, ← irq_eq_decide]
  exact status_fields s

/-! ## The elements of the frame -/

/-- Only the control state, the cursors, the capture registers, the block context and the error record differ
(10_state.md R56). -/
abbrev OnlyControlDiffers (s t : State) : Prop :=
  t = { s with
    fsm := t.fsm, bsub := t.bsub, pos := t.pos, bpos := t.bpos, flg := t.flg, bd := t.bd, csize := t.csize,
    blkStart := t.blkStart, blkEnd := t.blkEnd, blkStored := t.blkStored, blkOutBase := t.blkOutBase,
    winBase := t.winBase, errKind := t.errKind, errCause := t.errCause, errPos := t.errPos }

theorem OnlyControlDiffers.bytes (h : OnlyControlDiffers s t) (a : Nat) :
    inByte t a = inByte s a ∧ outByte t a = outByte s a ∧ winByte t a = winByte s a := by
  rw [h]
  exact ⟨rfl, rfl, rfl⟩

theorem frameBlock_onlyControlDiffers {stored : Bool} {n : Nat} (h : frameBlock stored n s = .next t) :
    OnlyControlDiffers s t := by
  obtain ⟨-, h⟩ | h | ⟨-, -, ⟨-, h⟩ | ⟨-, h⟩⟩ := frameBlock_cases h <;> exact h ▸ rfl

theorem exec_onlyControlDiffers {m : BitVec 32} {b : Byte} {v : Word} {size : BitVec 31} {i : Instr}
    (hi : i ∈ [Instr.magic m, .flg b, .bd b, .csize v, .dictid m, .hc b, .endmark, .bmarkC size, .bmarkS size, .bchk m,
      .cchk m]) (h : exec i s = .next t) : OnlyControlDiffers s t := by
  simp only [List.mem_cons, List.not_mem_nil, or_false] at hi
  obtain rfl | rfl | rfl | rfl | rfl | rfl | rfl | rfl | rfl | rfl | rfl := hi
  · obtain ⟨-, h⟩ | h | ⟨-, h⟩ := execMagic_cases h <;> exact h ▸ rfl
  · obtain ⟨-, h⟩ | h | h | ⟨-, -, -, h⟩ := execFlg_cases h <;> exact h ▸ rfl
  · obtain ⟨-, h⟩ | h | ⟨-, -, h⟩ := execBd_cases h <;> exact h ▸ rfl
  · obtain h | h | ⟨-, -, h⟩ := execCsize_cases h <;> exact h ▸ rfl
  · exact execDictid_cases (id := m) h ▸ rfl
  · obtain ⟨-, h⟩ | h | ⟨-, h⟩ := execHc_cases h <;> exact h ▸ rfl
  · obtain ⟨-, h⟩ | ⟨-, h⟩ := execEndmark_cases h <;> exact h ▸ rfl
  · exact frameBlock_onlyControlDiffers (stored := false) h
  · exact frameBlock_onlyControlDiffers (stored := true) h
  · obtain ⟨-, h⟩ | h | ⟨-, h⟩ := execBchk_cases h <;> exact h ▸ rfl
  · obtain h | h | ⟨-, h⟩ := execCchk_cases h <;> exact h ▸ rfl

/-- Settles O47: element by element, by what each answers. -/
theorem frameStepsWriteNoOutput : Obligations.FrameStepsWriteNoOutput := by
  intro s t m b v size i hi h
  have hd := exec_onlyControlDiffers hi h
  exact ⟨hd, hd.bytes⟩

end Sys2Proof.Proofs
end

section
/-! PROOFS. 20_memory.md R60, R64, R68: where the host's addresses lie, and the accesses outside the spec. -/

namespace Sys2Proof.Proofs

open Sys2Proof.Machine Sys2Proof.Laws

variable {p : Params} {s : State} {addr off i width : Nat} {v : Word}

/-! ## Where an address lies -/

theorem resolve_reg (h : off < regSpaceSize) : resolve p (p.regBase + off) = some (.reg off) := by
  rw [resolve, if_pos (by omega), Nat.add_sub_cancel_left]

/-- An index of IN lies in no other space, since the ranges are disjoint. -/
theorem resolve_input (hok : p.Ok) (h : i < p.inCap) : resolve p (p.inBase + i) = some (.input i) := by
  obtain ⟨-, -, -, -, -, hreg, -, -⟩ := hok
  rw [resolve, if_neg (by omega), if_pos (by omega), Nat.add_sub_cancel_left]

/-- An index of OUT lies in no other space, since the ranges are disjoint. -/
theorem resolve_output (hok : p.Ok) (h : i < p.outCap) : resolve p (p.outBase + i) = some (.output i) := by
  obtain ⟨-, -, -, -, -, -, hreg, hin⟩ := hok
  rw [resolve, if_neg (by omega), if_neg (by omega), if_pos (by omega), Nat.add_sub_cancel_left]

theorem resolve_none (hreg : ¬ (p.regBase ≤ addr ∧ addr < p.regBase + regSpaceSize))
    (hin : ¬ (p.inBase ≤ addr ∧ addr < p.inBase + p.inCap))
    (hout : ¬ (p.outBase ≤ addr ∧ addr < p.outBase + p.outCap)) : resolve p addr = none := by
  rw [resolve, if_neg hreg, if_neg hin, if_neg hout]

theorem ofOffset?_of_misaligned (h : off % 8 ≠ 0) : Reg.ofOffset? off = none := by
  rw [Reg.ofOffset?, if_pos h]

/-! ## Accesses that decode to nothing -/

/-- The access is rejected for the same reason whether it reads or writes. -/
abbrev Rejected (p : Params) (addr width : Nat) (v : Word) (r : Reject) : Prop :=
  decodeAccess p (.read addr width) = .error r ∧ decodeAccess p (.write addr width v) = .error r

theorem rejected_regWidth (ha : resolve p addr = some (.reg off)) (hw : width ≠ 8) :
    Rejected p addr width v .regWidth := by
  simp [Rejected, decodeAccess, ha, hw]

theorem rejected_regAlign (ha : resolve p addr = some (.reg off)) (ho : off % 8 ≠ 0) :
    Rejected p addr 8 v .regAlign := by
  simp [Rejected, decodeAccess, ha, ofOffset?_of_misaligned ho]

theorem rejected_inputWidth (ha : resolve p addr = some (.input i)) (hw : width ≠ 1) :
    Rejected p addr width v .byteWidth := by
  simp [Rejected, decodeAccess, ha, hw]

theorem rejected_outputWidth (ha : resolve p addr = some (.output i)) (hw : width ≠ 1) :
    Rejected p addr width v .byteWidth := by
  simp [Rejected, decodeAccess, ha, hw]

theorem rejected_unmapped (ha : resolve p addr = none) : Rejected p addr width v .unmapped := by
  simp [Rejected, decodeAccess, ha]

theorem hostStep_of_error {a : Access} {r : Reject} (h : decodeAccess s.cfg a = .error r) :
    hostStep a s = .refused (rejectRefusal r) := by
  rw [hostStep, h]

/-- The host's turn refuses an access that decodes to nothing, under the reason's name. -/
theorem step_of_decode_error {a : Access} {r : Reject} (rest : List Turn) (h : decodeAccess s.cfg a = .error r) :
    step { s with agenda := .host a :: rest } = .refused (rejectRefusal r) :=
  (step_of_host rfl).trans (hostStep_of_error h)

theorem step_of_rejected {r : Reject} (rest : List Turn) (h : Rejected s.cfg addr width v r) :
    step { s with agenda := .host (.read addr width) :: rest } = .refused (rejectRefusal r) ∧
      step { s with agenda := .host (.write addr width v) :: rest } = .refused (rejectRefusal r) :=
  ⟨step_of_decode_error rest h.1, step_of_decode_error rest h.2⟩

/-- Settles O5: an address resolves to one place, whose width and alignment the decoder checks; the commands check the
index themselves. -/
theorem undefinedHostAccessIsRefused : Obligations.UndefinedHostAccessIsRefused := by
  intro s rest width v hok
  refine ⟨fun off ho hw => ?_, fun off ho hal => ?_, fun i hi hw => ?_, fun i hi hw => ?_,
    fun addr hreg hin hout => ?_, fun i b hi => ⟨if_pos hi, if_pos hi⟩, fun i b hi => ⟨if_pos hi, if_pos hi⟩⟩
  · exact step_of_rejected rest (rejected_regWidth (resolve_reg ho) hw)
  · exact step_of_rejected rest (rejected_regAlign (resolve_reg ho) hal)
  · exact step_of_rejected rest (rejected_inputWidth (resolve_input hok hi) hw)
  · exact step_of_rejected rest (rejected_outputWidth (resolve_output hok hi) hw)
  · exact step_of_rejected rest (rejected_unmapped (resolve_none hreg hin hout))

end Sys2Proof.Proofs
end

section
/-! PROOFS. 20_memory.md R60 and 60_exceptions.md R289: every step keeps the memories canonical (log 4) and inside their
spaces. -/

namespace Sys2Proof.Proofs

open Sys2Proof.Machine Sys2Proof.Laws

variable {s t : State}

/-! ## The memories -/

theorem memoryCanonical_appendBytes (bs : List Byte) (h : MemoryCanonical s)
    (hfit : s.outLen + bs.length ≤ s.cfg.outCap) : MemoryCanonical (appendBytes bs s) := by
  obtain ⟨hi, hib, ho, hob, hw, hwb⟩ := h
  have hm := memories_appendBytes bs hfit ho hob hw hwb
  rw [MemoryCanonical, appendBytes_inMem, appendBytes_cfg]
  exact ⟨hi, hib, hm⟩

/-- A copying move has checked the capacity; the others write no memory. -/
theorem memoryCanonical_move (h : MemoryCanonical s) (m : EngineMove s t) : MemoryCanonical t := by
  cases m with
  | payloadS _ _ hc e => subst e; exact memoryCanonical_appendBytes _ h (by simpa using hc)
  | lastLiterals _ _ _ hc _ e => subst e; exact memoryCanonical_appendBytes _ h (by simpa using hc)
  | literals _ _ _ hc _ e => subst e; exact memoryCanonical_appendBytes _ h (by simpa using hc)
  | matchcopy _ _ hc e => subst e; exact memoryCanonical_appendBytes _ h (by simpa using hc)
  | _ => subst t; exact h

theorem memoryCanonical_engine (h : MemoryCanonical s) (o : EngineOutcome s t) : MemoryCanonical t := by
  cases o with
  | rest _ e => exact e ▸ h
  | error _ _ _ _ _ e => subst e; exact h
  | move m => exact memoryCanonical_move h m

theorem memoryCanonical_resetWith (p : Params) : MemoryCanonical (State.resetWith p) :=
  ⟨rfl, rfl, rfl, rfl, rfl, rfl⟩

theorem memoryCanonical_host (h : MemoryCanonical s) (e : HostEffect s t) : MemoryCanonical t := by
  cases e with
  | inByte i b _ hi e =>
    obtain ⟨hwf, hbelow, hrest⟩ := h
    subst e
    exact ⟨memWf_memSet i b hwf, memBelow_memSet b hi hbelow, hrest⟩
  | reset e => rw [next_eq e]; exact memoryCanonical_resetWith s.cfg
  | nothing e => exact e ▸ h
  | irqEn v e => subst e; exact h
  | start v _ _ e => subst e; exact h
  | startShort v _ _ e => subst e; exact h
  | inLen v _ e => subst e; exact h
  | read e => rw [e]; exact h

/-- Settles O48: a copying move appends what it has checked to fit, a host write of IN has its index checked, and reset
empties the memories. -/
theorem stepKeepsMemoryCanonical : Obligations.StepKeepsMemoryCanonical := by
  intro s t h hst
  have h : MemoryCanonical (takeTurn s) := h
  obtain ⟨-, o⟩ | ⟨-, e⟩ := step_outcome hst
  · exact memoryCanonical_engine h o
  · exact memoryCanonical_host h e

end Sys2Proof.Proofs
end

section
/-! PROOFS. 20_memory.md R71, R74 and 60_exceptions.md R279: the interrupt rises where a run ends, and IN is fixed
during a run. Both come from what the engine leaves to the host, and the second from what the host can do while BUSY. -/

namespace Sys2Proof.Proofs

open Sys2Proof.Machine Sys2Proof.Laws

variable {s t u : State}

/-! ## What the engine leaves to the host -/

@[simp] theorem appendBytes_irqEn (bs : List Byte) (s : State) : (appendBytes bs s).irqEn = s.irqEn := by
  rw [appendBytes_frame]

/-- IRQ_EN, the input and its length, over the same free bytes: what only the host writes. -/
structure SameHostSide (s t : State) : Prop where
  irqEn : t.irqEn = s.irqEn
  inLen : t.inLen = s.inLen
  inMem : t.inMem = s.inMem
  epoch : t.epoch = s.epoch

/-- The input and each of its bytes are the same. -/
theorem SameHostSide.input (h : SameHostSide s t) : t.inLen = s.inLen ∧ ∀ a, inByte t a = inByte s a :=
  ⟨h.inLen, fun a => by rw [inByte, inByte, h.inMem, h.epoch]⟩

theorem SameHostSide.trans (h : SameHostSide s t) (h' : SameHostSide t u) : SameHostSide s u :=
  ⟨h'.irqEn.trans h.irqEn, h'.inLen.trans h.inLen, h'.inMem.trans h.inMem, h'.epoch.trans h.epoch⟩

theorem sameHostSide_appendBytes (bs : List Byte) (s : State) : SameHostSide s (appendBytes bs s) :=
  ⟨appendBytes_irqEn bs s, appendBytes_inLen bs s, appendBytes_inMem bs s, appendBytes_epoch bs s⟩

/-- A move appends, in the three copying sub-states, and updates fields of the run. -/
theorem EngineMove.sameHostSide (m : EngineMove s t) : SameHostSide s t := by
  cases m with
  | payloadS _ _ _ e => subst e; exact (sameHostSide_appendBytes _ s).trans ⟨rfl, rfl, rfl, rfl⟩
  | lastLiterals _ _ _ _ _ e => subst e; exact (sameHostSide_appendBytes _ s).trans ⟨rfl, rfl, rfl, rfl⟩
  | literals _ _ _ _ _ e => subst e; exact (sameHostSide_appendBytes _ s).trans ⟨rfl, rfl, rfl, rfl⟩
  | matchcopy _ _ _ e => subst e; exact (sameHostSide_appendBytes _ s).trans ⟨rfl, rfl, rfl, rfl⟩
  | _ => subst t; exact ⟨rfl, rfl, rfl, rfl⟩

theorem EngineOutcome.sameHostSide (o : EngineOutcome s t) : SameHostSide s t := by
  cases o with
  | rest _ e => subst e; exact ⟨rfl, rfl, rfl, rfl⟩
  | error _ _ _ _ _ e => subst e; exact ⟨rfl, rfl, rfl, rfl⟩
  | move m => exact m.sameHostSide

/-! ## The interrupt line -/

theorem irq_of_busy (h : busy s = true) : irq s = false := by
  have hf : ¬ (s.fsm = .done ∨ s.fsm = .error) := by
    rintro (hf | hf) <;> simp [busy, hf] at h
  simp [irq_eq_decide, hf]

theorem irq_of_ended (h : s.fsm = .done ∨ s.fsm = .error) : irq s = s.irqEn := by
  simp [irq_eq_decide, h]

/-- No move of a run leads back to IDLE. -/
theorem EngineMove.fsm_ne_idle (m : EngineMove s t) : t.fsm ≠ .idle := by
  cases m with
  | bd hf b _ _ h =>
    subst h
    obtain e | e | e := afterBd_cases s.flg <;> simp [e]
  | csize hf v _ _ h =>
    subst h
    obtain e | e := afterCsize_cases s.flg <;> simp [e]
  | _ => subst t; simp [*]

/-- An engine step that ends a run ends it in DONE or ERROR. -/
theorem EngineOutcome.ended (o : EngineOutcome s t) (hs : busy s = true) (ht : busy t = false) :
    t.fsm = .done ∨ t.fsm = .error := by
  cases o with
  | rest hb _ => simp [hs] at hb
  | error _ _ _ _ _ e => subst e; exact .inr rfl
  | move m => exact (fsm_of_not_busy ht).resolve_left m.fsm_ne_idle

/-- Settles O45: the line is low in a run, and shows IRQ_EN, which the engine leaves, once the run has ended. -/
theorem interruptRisesWhenTheRunEnds : Obligations.InterruptRisesWhenTheRunEnds := by
  intro s t he hs hst
  obtain ⟨-, o⟩ | ⟨he', -⟩ := step_outcome hst
  · refine ⟨irq_of_busy hs, fun ht => ?_⟩
    have hend := o.ended hs ht
    exact ⟨(irq_of_ended hend).trans o.sameHostSide.irqEn, hend⟩
  · simp [he] at he'

/-! ## The host while BUSY -/

/-- Only IRQ_EN and what belongs to the host side of the model differ (44_host_interface.md R251, R253, R254). -/
abbrev OnlyHostPortDiffers (s t : State) : Prop :=
  t = { s with irqEn := t.irqEn, hostData := t.hostData, draws := t.draws }

/-- While BUSY, START sets IRQ_EN, and writes of IN and IN_LEN are ignored. -/
theorem exec_host_busy {i : Instr} (hi : isHostInstr i = true) (hb : busy s = true) (hr : i ≠ .reset)
    (h : exec i s = .next t) : OnlyHostPortDiffers s t := by
  have hidle : busy s ≠ false := by simp [hb]
  cases i with
  | start v =>
    obtain ⟨-, e⟩ | ⟨hb', -⟩ | ⟨hb', -⟩ := execStart_cases h
    · rw [e]
    · exact absurd hb' hidle
    · exact absurd hb' hidle
  | inLenW v =>
    obtain ⟨-, e⟩ | ⟨hb', -⟩ := execInLenW_cases h
    · rw [e]
    · exact absurd hb' hidle
  | inW i b =>
    obtain ⟨-, e⟩ | ⟨hb', -⟩ := execInW_cases h
    · rw [e]
    · exact absurd hb' hidle
  | ctrlW v => rw [next_eq h]; rfl
  | outW i b => rw [execOutW_cases (b := b) h]
  | regR r => rw [next_eq h]
  | outR i => rw [execOutR_cases h]
  | roW r v => rw [next_eq h]
  | reset => exact absurd rfl hr
  | _ => cases hi

/-- A host turn that is answered runs a host command or reads IN. -/
theorem step_host_cases (he : isEngineTurn s = false) (h : step s = .next t) :
    (∃ i, isHostInstr i = true ∧ fetch s = .instr i ∧ exec i (takeTurn s) = .next t) ∨
      ∃ idx, hostReadIn idx (takeTurn s) = .next t := by
  obtain he' | ⟨a, rest, ha⟩ := engineTurn_or_host s
  · simp [he] at he'
  have hf : fetch s = hostFetch a (takeTurn s) := by rw [fetch, ha]
  rw [step_of_host ha] at h
  cases hd : decodeAccess (takeTurn s).cfg a with
  | error r => rw [hostStep_of_error hd] at h; cases h
  | ok op =>
    cases op with
    | instr i =>
      rw [hostStep_of_instr hd] at h
      exact .inl ⟨i, decodeAccess_isHostInstr hd, by rw [hf, hostFetch, hd], h⟩
    | inputRead idx =>
      rw [hostStep_of_inputRead hd] at h
      exact .inr ⟨idx, h⟩

/-- What a host turn can do to a run, short of a reset (70_reset_and_hazards.md R302). -/
theorem step_host_busy (he : isEngineTurn s = false) (hb : busy s = true) (hr : fetch s ≠ .instr .reset)
    (h : step s = .next t) : OnlyHostPortDiffers (takeTurn s) t := by
  obtain ⟨i, hi, hf, hx⟩ | ⟨idx, hx⟩ := step_host_cases he h
  · exact exec_host_busy hi hb (fun e => hr (e ▸ hf)) hx
  · rw [hostReadIn_cases hx]

/-- Settles O57: the engine leaves the input, and the host's writes to it are ignored while BUSY. -/
theorem inputIsFixedDuringARun : Obligations.InputIsFixedDuringARun := by
  intro s t hb hr hst
  obtain ⟨-, o⟩ | ⟨he, -⟩ := step_outcome hst
  · exact o.sameHostSide.input
  · rw [step_host_busy he hb hr hst]
    exact ⟨rfl, fun _ => rfl⟩

end Sys2Proof.Proofs
end

section
/-! PROOFS. 30_encoding.md R91 to R104, 10_state.md R44, R45 and 20_memory.md R61, R64, R68: the decoder and the encoder
are inverse. -/

namespace Sys2Proof.Proofs

open Sys2Proof.Machine Sys2Proof.Laws

variable {p : Params}

/-! ## Block marks and tokens -/

/-- Bit 31 of a mark below 2^32 tells a stored block from a compressed one, and the size is the rest
(30_encoding.md R97). -/
theorem decodeMark_ofNat {v : Nat} (hv : v < 2 ^ 32) :
    decodeMark (BitVec.ofNat 32 v) =
      if v = 0 then .endmark
      else if 2 ^ 31 ≤ v then .bmarkS (BitVec.ofNat 31 (v - 2 ^ 31)) else .bmarkC (BitVec.ofNat 31 v) := by
  have hzero : BitVec.ofNat 32 v = 0 ↔ v = 0 := by
    rw [← BitVec.toNat_inj, BitVec.toNat_ofNat, Nat.mod_eq_of_lt hv]
    rfl
  have hbit : (BitVec.ofNat 32 v).getLsbD 31 = decide (2 ^ 31 ≤ v) := by
    rw [BitVec.getLsbD_ofNat, Nat.testBit_eq_decide_div_mod_eq]
    simp only [Nat.reduceLT, decide_true, Bool.true_and, decide_eq_decide]
    omega
  have hsize : (BitVec.ofNat 32 v).extractLsb' 0 31 = BitVec.ofNat 31 v := by
    apply BitVec.eq_of_toNat_eq
    simp [BitVec.extractLsb'_toNat]
  have hstored (h : 2 ^ 31 ≤ v) : BitVec.ofNat 31 v = BitVec.ofNat 31 (v - 2 ^ 31) := by
    apply BitVec.eq_of_toNat_eq
    rw [BitVec.toNat_ofNat, BitVec.toNat_ofNat]
    omega
  simp only [decodeMark, hzero, hbit, hsize, decide_eq_true_eq]
  split
  · rfl
  · split
    · next h => rw [hstored h]
    · rfl

/-- The token byte holds the literal nibble above the match nibble (30_encoding.md R101). -/
theorem decodeField_token_of_lt {v : Nat} (hv : v < 256) :
    decodeField .token v = .token (BitVec.ofNat 4 (v / 16)) (BitVec.ofNat 4 (v % 16)) := by
  have hlit : (BitVec.ofNat 8 v).extractLsb' 4 4 = BitVec.ofNat 4 (v / 16) := by
    apply BitVec.eq_of_toNat_eq
    simp [BitVec.extractLsb'_toNat, Nat.shiftRight_eq_div_pow, Nat.mod_eq_of_lt hv]
  have hmlb : (BitVec.ofNat 8 v).extractLsb' 0 4 = BitVec.ofNat 4 (v % 16) := by
    apply BitVec.eq_of_toNat_eq
    simp [BitVec.extractLsb'_toNat]
  rw [decodeField, hlit, hmlb]

theorem decodeField_bmarkC {size : BitVec 31} (h : size.toNat ≠ 0) :
    decodeField .blockmark size.toNat = .bmarkC size := by
  have hlt := size.isLt
  rw [decodeField, decodeMark_ofNat (by omega), if_neg h, if_neg (by omega), BitVec.ofNat_toNat, BitVec.setWidth_eq]

theorem decodeField_bmarkS (size : BitVec 31) : decodeField .blockmark (2 ^ 31 + size.toNat) = .bmarkS size := by
  have hlt := size.isLt
  rw [decodeField, decodeMark_ofNat (by omega), if_neg (by omega), if_pos (by omega), Nat.add_sub_cancel_left,
    BitVec.ofNat_toNat, BitVec.setWidth_eq]

theorem decodeField_token (lit mlb : BitVec 4) :
    decodeField .token (16 * lit.toNat + mlb.toNat) = .token lit mlb := by
  have hdiv : (16 * lit.toNat + mlb.toNat) / 16 = lit.toNat := by omega
  have hmod : (16 * lit.toNat + mlb.toNat) % 16 = mlb.toNat := by omega
  rw [decodeField_token_of_lt (by omega), hdiv, hmod, BitVec.ofNat_toNat, BitVec.setWidth_eq, BitVec.ofNat_toNat,
    BitVec.setWidth_eq]

/-! ## The code of an element -/

theorem decode_wireCode {k : Slot} {v : Nat} (hv : v < 256 ^ k.width) :
    decode p (wireCode k v) = .ok (decodeField k v) := by
  rw [wireCode, decode, decodeWire_of_length_eq (leBytes_length _ _), leNat_leBytes_of_lt hv]

/-- The instruction an element's field decodes to has that field's code. -/
theorem encode_decodeField {k : Slot} {v : Nat} (hv : v < 256 ^ k.width) :
    encode p (decodeField k v) = wireCode k v := by
  cases k with
  | payloadS | payloadC | literals | matchcopy =>
    obtain rfl : v = 0 := Nat.lt_one_iff.mp hv
    rfl
  | token =>
    have hv : v < 256 := hv
    have hsum : 16 * (v / 16 % 2 ^ 4) + v % 16 % 2 ^ 4 = v := by omega
    rw [decodeField_token_of_lt hv, encode, BitVec.toNat_ofNat, BitVec.toNat_ofNat, hsum]
  | blockmark =>
    have hv : v < 2 ^ 32 := hv
    rw [decodeField, decodeMark_ofNat hv]
    split
    · next h => rw [h, encode]
    · split
      · next h =>
        have hsum : 2 ^ 31 + (v - 2 ^ 31) % 2 ^ 31 = v := by omega
        rw [encode, BitVec.toNat_ofNat, hsum]
      · next h => rw [encode, BitVec.toNat_ofNat, Nat.mod_eq_of_lt (by omega)]
  | _ => exact congrArg (wireCode _) (Nat.mod_eq_of_lt hv)

/-- Settles O2: the bytes are the code of the field they spell, and the field's instruction encodes to it. -/
theorem elementBytesAreTheirInstructionsEncoding : Obligations.ElementBytesAreTheirInstructionsEncoding := by
  intro p k bs hlen
  refine ⟨decodeField k (leNat bs), decodeWire_of_length_eq hlen, ?_⟩
  calc encode p (decodeField k (leNat bs))
    _ = wireCode k (leNat bs) := encode_decodeField (hlen ▸ leNat_lt bs)
    _ = .wire k bs := by rw [wireCode, ← hlen, leBytes_leNat]

/-! ## The code of a host command -/

theorem ofOffset?_offset (r : Reg) : Reg.ofOffset? r.offset = some r := by
  cases r with
  | reserved k =>
    have hk := k.isLt
    have hmod : (0x50 + 8 * k.val) % 8 = 0 := by omega
    have hdiv : (0x50 + 8 * k.val) / 8 = k.val + 10 := by omega
    simp [Reg.ofOffset?, Reg.offset, hmod, hdiv, hk]
  | _ => rfl

theorem resolve_offset (r : Reg) : resolve p (p.regBase + r.offset) = some (.reg r.offset) :=
  resolve_reg (CodeIsDefined.offset_defined r).1

theorem decode_regRead (r : Reg) : decode p (.bus (.read (p.regBase + r.offset) 8)) = .ok (.regR r) := by
  simp [decode, decodeAccess, resolve_offset, ofOffset?_offset]

theorem decode_regWriteCode (r : Reg) (v : Word) : decode p (regWriteCode p r v) = .ok (decodeRegWrite r v) := by
  simp [decode, regWriteCode, decodeAccess, resolve_offset, ofOffset?_offset]

theorem decodeRegWrite_of_ignoresWrites {r : Reg} (h : r.ignoresWrites = true) (v : Word) :
    decodeRegWrite r v = .roW r v := by
  cases r with
  | ctrl | inLen => cases h
  | _ => rfl

/-- A byte on the bus is its word's low byte (log 20). -/
theorem extractLsb'_setWidth_byte (b : Byte) : (b.setWidth 64).extractLsb' 0 8 = b := by
  apply BitVec.eq_of_toNat_eq
  simp [BitVec.extractLsb'_toNat]
  omega

/-! ## Every instruction -/

/-- Settles O1: an element's field and a command's place are read back from the code. -/
theorem decodeEncodeGivesTheInstructionBack : Obligations.DecodeEncodeGivesTheInstructionBack := by
  intro p i hok hwf
  cases i with
  | payloadS | payloadC | literals | matchcopy | endmark => exact decode_wireCode (by decide)
  | magic x | flg x | bd x | csize x | dictid x | hc x | bchk x | cchk x | litext x | offset x | mlext x =>
    rw [encode, decode_wireCode x.isLt, decodeField, BitVec.ofNat_toNat, BitVec.setWidth_eq]
  | bmarkC size =>
    have hne : size.toNat ≠ 0 := by simpa [Instr.wellFormed, ← BitVec.toNat_inj] using hwf
    rw [encode, decode_wireCode (k := .blockmark) (size.isLt.trans (by decide)), decodeField_bmarkC hne]
  | bmarkS size =>
    have hlt : 2 ^ 31 + size.toNat < 2 ^ 32 := Nat.add_lt_add_left size.isLt _
    rw [encode, decode_wireCode (k := .blockmark) hlt, decodeField_bmarkS]
  | token lit mlb =>
    have hlt : 16 * lit.toNat + mlb.toNat < 256 := by omega
    rw [encode, decode_wireCode (k := .token) hlt, decodeField_token]
  | start v => exact (decode_regWriteCode .ctrl v).trans (congrArg _ (if_pos hwf))
  | ctrlW v => exact (decode_regWriteCode .ctrl v).trans (congrArg _ (if_neg (by simpa [Instr.wellFormed] using hwf)))
  | inLenW v => exact decode_regWriteCode .inLen v
  | inW i b =>
    simp [encode, decode, decodeAccess, resolve_input hok (of_decide_eq_true hwf), extractLsb'_setWidth_byte]
  | outW i b =>
    simp [encode, decode, decodeAccess, resolve_output hok (of_decide_eq_true hwf), extractLsb'_setWidth_byte]
  | outR i => simp [encode, decode, decodeAccess, resolve_output hok (of_decide_eq_true hwf)]
  | regR r => exact decode_regRead r
  | roW r v => exact (decode_regWriteCode r v).trans (by rw [decodeRegWrite_of_ignoresWrites hwf])
  | reset => rfl

/-- Settles O3: each code is evaluated. -/
theorem sampleWordsDecodeAsTheSpecSays : Obligations.SampleWordsDecodeAsTheSpecSays := by
  unfold Obligations.SampleWordsDecodeAsTheSpecSays
  decide

end Sys2Proof.Proofs
end

section
/-! PROOFS. 30_encoding.md R102, R103 and R108: every length has one encoding as a nibble and extension bytes. -/

namespace Sys2Proof.Proofs

theorem lengthNibble_of_lt {n : Nat} (h : n < 15) : lengthNibble n = BitVec.ofNat 4 n := if_pos h

theorem lengthExtension_of_lt {n : Nat} (h : n < 15) : lengthExtension n = [] := if_pos h

theorem lengthNibble_fifteen_add (m : Nat) : lengthNibble (15 + m) = 15 := if_neg (by omega)

theorem lengthExtension_fifteen_add (m : Nat) :
    lengthExtension (15 + m) = List.replicate (m / 255) 0xFF ++ [BitVec.ofNat 8 (m % 255)] := by
  rw [lengthExtension, if_neg (by omega), Nat.add_sub_cancel_left]

/-- The two shapes of 30_encoding.md R102. -/
theorem lengthShape_iff {nib : BitVec 4} {ext : List Byte} :
    lengthShape nib ext = true ↔
      (nib.toNat < 15 ∧ ext = []) ∨
        (nib = 15 ∧ ∃ (q : Nat) (e : Byte), e.toNat < 255 ∧ ext = List.replicate q 0xFF ++ [e]) := by
  have hnib : nib = 15 ↔ ¬ nib.toNat < 15 := by
    rw [← BitVec.toNat_inj]
    simp
    omega
  rw [lengthShape, hnib]
  split
  · next h => simp [h]
  · next h =>
    obtain rfl | ⟨init, e, rfl⟩ := ext.eq_nil_or_concat
    · simpa using h
    · simp [h, List.eq_replicate_iff]

theorem assembleLength_nil (nib : BitVec 4) : assembleLength nib [] = nib.toNat := rfl

theorem assembleLength_replicate (q : Nat) (e : Byte) :
    assembleLength 15 (List.replicate q 0xFF ++ [e]) = 15 + (255 * q + e.toNat) := by
  simp [assembleLength, Nat.mul_comm]

/-- The encoding of a length has the shape (30_encoding.md R108). -/
theorem lengthShape_encoding (n : Nat) : lengthShape (lengthNibble n) (lengthExtension n) = true := by
  rw [lengthShape_iff]
  obtain h | h := Nat.lt_or_ge n 15
  · left
    rw [lengthNibble_of_lt h, lengthExtension_of_lt h, BitVec.toNat_ofNat]
    exact ⟨by omega, rfl⟩
  · obtain ⟨m, rfl⟩ := Nat.exists_eq_add_of_le h
    right
    rw [lengthNibble_fifteen_add, lengthExtension_fifteen_add]
    refine ⟨rfl, m / 255, BitVec.ofNat 8 (m % 255), ?_, rfl⟩
    rw [BitVec.toNat_ofNat]
    omega

theorem assembleLength_encoding (n : Nat) : assembleLength (lengthNibble n) (lengthExtension n) = n := by
  obtain h | h := Nat.lt_or_ge n 15
  · rw [lengthNibble_of_lt h, lengthExtension_of_lt h, assembleLength_nil, BitVec.toNat_ofNat]
    omega
  · obtain ⟨m, rfl⟩ := Nat.exists_eq_add_of_le h
    rw [lengthNibble_fifteen_add, lengthExtension_fifteen_add, assembleLength_replicate, BitVec.toNat_ofNat]
    omega

/-- Bytes of the shape are the encoding of the length they assemble to: the run of 0xFF and the last byte are that
length's quotient and remainder by 255. -/
theorem eq_encoding_of_lengthShape {nib : BitVec 4} {ext : List Byte} (h : lengthShape nib ext = true) :
    nib = lengthNibble (assembleLength nib ext) ∧ ext = lengthExtension (assembleLength nib ext) := by
  obtain ⟨hlt, rfl⟩ | ⟨rfl, q, e, he, rfl⟩ := lengthShape_iff.mp h
  · rw [assembleLength_nil, lengthNibble_of_lt hlt, lengthExtension_of_lt hlt]
    simp
  · have hdiv : (255 * q + e.toNat) / 255 = q := by omega
    have hmod : (255 * q + e.toNat) % 255 = e.toNat := by omega
    rw [assembleLength_replicate, lengthNibble_fifteen_add, lengthExtension_fifteen_add, hdiv, hmod]
    simp

/-- Settles O4: the encoding has the shape and the length, and bytes of the shape are the encoding of their length. -/
theorem lengthEncodingIsUnique : Obligations.LengthEncodingIsUnique := by
  intro n
  refine ⟨⟨lengthShape_encoding n, assembleLength_encoding n⟩, fun nib ext hshape hlen => ?_⟩
  rw [← hlen]
  exact eq_encoding_of_lengthShape hshape

end Sys2Proof.Proofs
end

section
/-! PROOFS. 40_reader.md R120 to R126 and R128: a reader's fields are little-endian at its cursor, and a reader without
the bytes raises its truncation with nothing moved. -/

namespace Sys2Proof.Proofs

open Sys2Proof.Machine Sys2Proof.Laws

variable {s : State} {r : Reader} {w n : Nat}

/-! ## An element cut short -/

theorem consume_frame_of_short {k : State → Result} (h : s.inLen - s.pos < n) :
    consume .frame n s k = .next (errorEntry .truncRead s) := consume_of_lt h

theorem consume_block_of_short {k : State → Result} (h : s.blkEnd - s.bpos < n) :
    consume .block n s k = .next (errorEntry .truncBlockRead s) := consume_of_lt h

/-- Settles O8: each of these meanings begins by taking its bytes off its reader. -/
theorem shortReadRaisesTheReadersTruncation : Obligations.ShortReadRaisesTheReadersTruncation := by
  intro s
  refine ⟨fun m b size => ⟨fun h4 => ?frameWord, fun h1 => ?frameByte⟩,
    fun b o => ⟨fun h1 => ?blockByte, fun h2 => ?blockOffset⟩, rfl, rfl⟩
  case frameWord =>
    exact ⟨consume_frame_of_short h4, consume_frame_of_short h4, consume_frame_of_short h4, consume_frame_of_short h4,
      consume_frame_of_short h4⟩
  case frameByte => exact ⟨consume_frame_of_short h1, consume_frame_of_short h1, consume_frame_of_short h1⟩
  case blockByte => exact ⟨consume_block_of_short h1, consume_block_of_short h1⟩
  case blockOffset => exact consume_block_of_short h2

/-! ## What the primitives answer -/

theorem inBytes_add_length (s : State) (a n : Nat) : (inBytes s a (a + n)).length = n := by
  rw [inBytes_length, Nat.add_sub_cancel_left]

theorem inBytes_add_getElem? (s : State) (a : Nat) {k : Nat} (hk : k < n) :
    (inBytes s a (a + n))[k]? = some (inByte s (a + k)) := by
  have hlen : k < (inBytes s a (a + n)).length := by rwa [inBytes_add_length]
  rw [List.getElem?_eq_getElem hlen, inBytes_getElem]

theorem readBytes_of_le (h : n ≤ readerLeft r s) :
    readBytes r n s = .ok (inBytes s (readerCur r s) (readerCur r s + n), readerAdvance r n s) := if_neg (Nat.not_lt.2 h)

theorem readBytes_of_lt (h : readerLeft r s < n) : readBytes r n s = .error (readerCause r) := if_pos h

theorem readSkip_of_le (h : n ≤ readerLeft r s) : readSkip r n s = .ok (readerAdvance r n s) := if_neg (Nat.not_lt.2 h)

theorem readSkip_of_lt (h : readerLeft r s < n) : readSkip r n s = .error (readerCause r) := if_pos h

theorem readField_of_le {v : BitVec w} (h : n ≤ readerLeft r s)
    (hv : BitVec.ofNat w (memRead s (readerCur r s) n) = v) : readField w n r s = .ok (v, readerAdvance r n s) :=
  hv ▸ if_neg (Nat.not_lt.2 h)

theorem readField_of_lt (h : readerLeft r s < n) : readField w n r s = .error (readerCause r) := if_pos h

/-! ## Little-endian fields of IN (20_memory.md R61) -/

theorem memRead_zero (s : State) (a : Nat) : memRead s a 0 = 0 := by
  rw [memRead, Nat.add_zero, inBytes_self, leNat]

theorem memRead_succ (s : State) (a n : Nat) :
    memRead s a (n + 1) = (inByte s a).toNat + 256 * memRead s (a + 1) n := by
  rw [memRead, inBytes_succ, leNat, memRead]

theorem toNat_append_byte (x : BitVec w) (b : Byte) : (x ++ b).toNat = b.toNat + 256 * x.toNat := by
  rw [BitVec.toNat_append, ← Nat.shiftLeft_add_eq_or_of_lt b.isLt, Nat.shiftLeft_eq]
  omega

/-- The first byte is the lowest: the bytes after it are the field above it. -/
theorem ofNat_memRead_succ (s : State) (a w n : Nat) :
    BitVec.ofNat (w + 8) (memRead s a (n + 1)) = BitVec.ofNat w (memRead s (a + 1) n) ++ inByte s a := by
  have hb := (inByte s a).isLt
  have hpow : 2 ^ (w + 8) = 256 * 2 ^ w := Nat.pow_add' 2 w 8
  have hmod : memRead s a (n + 1) % 256 = (inByte s a).toNat := by rw [memRead_succ]; omega
  have hdiv : memRead s a (n + 1) / 256 = memRead s (a + 1) n := by rw [memRead_succ]; omega
  apply BitVec.eq_of_toNat_eq
  rw [toNat_append_byte, BitVec.toNat_ofNat, BitVec.toNat_ofNat, hpow, Nat.mod_mul, hmod, hdiv]

theorem ofNat_memRead_one (s : State) (a : Nat) : BitVec.ofNat 8 (memRead s a 1) = inByte s a := by
  rw [memRead_succ, memRead_zero, Nat.mul_zero, Nat.add_zero, BitVec.ofNat_toNat, BitVec.setWidth_eq]

theorem ofNat_memRead_two (s : State) (a : Nat) :
    BitVec.ofNat 16 (memRead s a 2) = inByte s (a + 1) ++ inByte s a := by
  rw [ofNat_memRead_succ s a 8 1, ofNat_memRead_one]

theorem ofNat_memRead_four (s : State) (a : Nat) :
    BitVec.ofNat 32 (memRead s a 4) = inByte s (a + 3) ++ inByte s (a + 2) ++ inByte s (a + 1) ++ inByte s a := by
  rw [ofNat_memRead_succ s a 24 3, ofNat_memRead_succ s (a + 1) 16 2, ofNat_memRead_two]

theorem ofNat_memRead_eight (s : State) (a : Nat) :
    BitVec.ofNat 64 (memRead s a 8) =
      inByte s (a + 7) ++ inByte s (a + 6) ++ inByte s (a + 5) ++ inByte s (a + 4) ++ inByte s (a + 3) ++
        inByte s (a + 2) ++ inByte s (a + 1) ++ inByte s a := by
  rw [ofNat_memRead_succ s a 56 7, ofNat_memRead_succ s (a + 1) 48 6, ofNat_memRead_succ s (a + 2) 40 5,
    ofNat_memRead_succ s (a + 3) 32 4, ofNat_memRead_four]

/-- Byte `k` of the field presented to the decoder is the byte of IN at the cursor plus `k`. -/
theorem elementField_byte {k : Nat} (h : n ≤ readerLeft r s) (hk : k < n) :
    elementField r n s / 256 ^ k % 256 = (inByte s (readerCur r s + k)).toNat := by
  have hlen : k < (inBytes s (readerCur r s) (readerCur r s + n)).length := by rwa [inBytes_add_length]
  rw [elementField, elementBytes_of_le h, leNat_byte _ hlen, inBytes_getElem]

/-- Settles O9: with the bytes there, a field is the concatenation of its bytes; without them, every primitive raises. -/
theorem readerFieldsAreLittleEndian : Obligations.ReaderFieldsAreLittleEndian := by
  intro s r
  refine ⟨fun h => readField_of_le h (ofNat_memRead_one s _), fun h => readField_of_le h (ofNat_memRead_two s _),
    fun h => readField_of_le h (ofNat_memRead_four s _), fun h => readField_of_le h (ofNat_memRead_eight s _),
    readField_of_lt, readField_of_lt, readField_of_lt, readField_of_lt, fun n h => ?enough,
    fun n h => ⟨readBytes_of_lt h, readSkip_of_lt h⟩, fun n => ⟨rfl, rfl⟩⟩
  case enough =>
    exact ⟨⟨_, readBytes_of_le h, inBytes_add_length s _ n, fun k hk => inBytes_add_getElem? s _ hk⟩,
      readSkip_of_le h, elementField_lt r n s, fun k hk => elementField_byte h hk⟩

end Sys2Proof.Proofs
end

section
/-! PROOFS. 41_block_decoder.md R144, R147, R154 and R158: the copying steps append, a literal run the payload's bytes
and a match the bytes it reads behind it. -/

namespace Sys2Proof.Proofs

open Sys2Proof.Machine Sys2Proof.Laws

variable {s : State}

/-! ## The literal run -/

/-- The payload bytes of the pending literal run. -/
abbrev literalBytes (s : State) : List Byte := inBytes s s.bpos (s.bpos + s.litLen)

theorem literalBytes_length (s : State) : (literalBytes s).length = s.litLen := inBytes_add_length s _ _

theorem execLiterals_of_fits (hl : s.litLen ≤ s.blkEnd - s.bpos) (hc : s.outLen + s.litLen ≤ s.cfg.outCap) :
    execLiterals s = .next { appendBytes (literalBytes s) s with
      bpos := s.bpos + s.litLen
      bsub := if s.bpos + s.litLen = s.blkEnd then .none else .offset
      fsm := if s.bpos + s.litLen = s.blkEnd then .expectBlockmark else s.fsm } := by
  rw [execLiterals, readerLeft_block, if_neg (Nat.not_lt.2 hl), if_neg (Nat.not_lt.2 hc)]
  by_cases he : s.bpos + s.litLen = s.blkEnd
  · simp only [if_pos he, blockDone]
  · simp only [if_neg he, appendBytes_fsm]

/-- Settles O25: where both checks pass, the answer is the append of the run's bytes. -/
theorem literalRunIsCopiedToTheOutput : Obligations.LiteralRunIsCopiedToTheOutput := by
  intro s
  refine ⟨fun hl => if_pos hl, fun hl hc => (if_neg (Nat.not_lt.2 hl)).trans (if_pos hc),
    fun hl hc => ⟨_, execLiterals_of_fits hl hc, ?frame, ?bytes⟩⟩
  case frame => rw [appendBytes_frame, literalBytes_length]
  case bytes =>
    have hlen : s.litLen = (literalBytes s).length := (literalBytes_length s).symm
    refine ⟨fun k hk => ?_, fun a ha => ?_, fun k hk hw => ?_, fun a ha => ?_⟩
    · exact (outByte_appendBytes _ s (hlen ▸ hk)).trans (inBytes_getElem ..)
    · exact outByte_appendBytes_of_outside _ s (hlen ▸ ha)
    · exact (winByte_appendBytes _ s (hlen ▸ hk) (hlen ▸ hw)).trans (inBytes_getElem ..)
    · exact winByte_appendBytes_of_outside _ s (hlen ▸ ha)

/-! ## The match copy -/

theorem execMatchcopy_of_fits (hc : s.outLen + s.matchLen ≤ s.cfg.outCap) :
    execMatchcopy s = .next { copyMatch s.matchLen s with bsub := .token } := if_neg (Nat.not_lt.2 hc)

/-- A match copy changes OUT, WIN and `out_len` only. -/
theorem copyMatch_frame (n : Nat) (s : State) :
    copyMatch n s = { s with
      outMem := (copyMatch n s).outMem, winMem := (copyMatch n s).winMem, outLen := s.outLen + n } := by
  rw [copyMatch_eq_appendBytes, appendBytes_frame, copiedBytes_length]

theorem outByte_copyMatch_of_outside (n : Nat) (s : State) {a : Nat} (ha : a < s.outLen ∨ s.outLen + n ≤ a) :
    outByte (copyMatch n s) a = outByte s a := by
  rw [copyMatch_eq_appendBytes]
  exact outByte_appendBytes_of_outside _ s (by rwa [copiedBytes_length])

theorem winByte_copyMatch_of_outside (n : Nat) (s : State) {a : Nat}
    (ha : ∀ k, k < n → a ≠ (s.outLen + k) % windowSize) : winByte (copyMatch n s) a = winByte s a := by
  rw [copyMatch_eq_appendBytes]
  exact winByte_appendBytes_of_outside _ s (by rwa [copiedBytes_length])

/-- WIN holds the last bytes a copy wrote to OUT, each at its ring place. -/
theorem winByte_copyMatch {n : Nat} (s : State) {k : Nat} (hk : k < n) (hw : n ≤ k + windowSize) :
    winByte (copyMatch n s) ((s.outLen + k) % windowSize) = outByte (copyMatch n s) (s.outLen + k) := by
  rw [copyMatch_eq_appendBytes, winByte_appendBytes _ s (by rwa [copiedBytes_length]) (by rwa [copiedBytes_length]),
    outByte_appendBytes]

/-- Settles O28: where the copy fits, the answer is `copyMatch`, whose bytes repeat those behind them
(`outByte_copyMatch`). -/
theorem matchCopyRepeatsTheOutputBehindIt : Obligations.MatchCopyRepeatsTheOutputBehindIt := by
  intro s
  refine ⟨fun hc => if_pos hc, fun hc => ⟨_, execMatchcopy_of_fits hc, ?frame, ?bytes⟩⟩
  case frame => rw [copyMatch_frame]
  case bytes =>
    exact ⟨fun hm h1 h2 k hk => outByte_copyMatch _ rfl h1 h2 hm hk, fun a ha => outByte_copyMatch_of_outside _ s ha,
      fun k hk hw => winByte_copyMatch s hk hw, fun a ha => winByte_copyMatch_of_outside _ s ha⟩

/-- Settles O29: along the copy, each byte equals the one before it. -/
theorem offsetOneReplicatesTheLastByte : Obligations.OffsetOneReplicatesTheLastByte := by
  intro s t hm ho h1 hc h j hj hlt
  obtain ⟨t', h', -, hback, hbelow, -, -⟩ := (matchCopyRepeatsTheOutputBehindIt s).2 hc
  obtain rfl : t' = t := next_eq (h.symm.trans h')
  have hone : s.offset.toNat = 1 := by rw [ho]; rfl
  have hback : ∀ k, k < s.matchLen → outByte t' (s.outLen + k) = outByte t' (s.outLen + k - 1) := by
    rw [hone] at hback
    exact hback hm le_rfl h1
  induction j, hj using Nat.le_induction with
  | base => exact hbelow _ (.inl (by omega))
  | succ j hj ih =>
    have hk : s.outLen + (j + 1 - s.outLen) = j + 1 := by omega
    have hstep := hback (j + 1 - s.outLen) (by omega)
    rw [hk, Nat.add_sub_cancel] at hstep
    exact hstep.trans (ih (by omega))

end Sys2Proof.Proofs
end

section
/-! PROOFS. 41_block_decoder.md R142, R143, R145, R146 and R155: the steps that parse a token, an extension byte and an
offset, and the window base an offset is checked against. -/

namespace Sys2Proof.Proofs

open Sys2Proof.Machine Sys2Proof.Laws

variable {s : State} {n : Nat}

/-! ## The window base -/

theorem windowBase_of_independent (h : independentBlocks s.flg = true) : windowBase s = s.outLen := if_pos h

theorem windowBase_of_dependent (h : independentBlocks s.flg = false) :
    windowBase s = s.outLen - min s.outLen windowSize := if_neg (by rw [h]; decide)

/-- Settles O18: a 16-bit offset never spans a whole window, so the cut at 64 KiB admits as many as no cut. -/
theorem windowBaseAdmitsTheRunningLength : Obligations.WindowBaseAdmitsTheRunningLength := by
  intro s out o hout ho
  refine ⟨fun hd => ?_, fun hi => ?_⟩
  · rw [windowBase_of_dependent hd, windowSize]
    omega
  · rw [windowBase_of_independent hi]
    omega

/-! ## Sequence elements -/

theorem consume_block_of_present {k : State → Result} (h : s.bpos + n ≤ s.blkEnd) :
    consume .block n s k = k (readerAdvance .block n s) :=
  consume_of_le (by rw [readerLeft_block]; omega)

/-- At the end of the payload no byte is left. -/
theorem consume_block_of_exhausted {k : State → Result} (h : s.bpos = s.blkEnd) :
    consume .block 1 s k = .next (errorEntry .truncBlockRead s) :=
  consume_block_of_short (by omega)

theorem readerFinished_block (s : State) : readerFinished .block s = true ↔ s.bpos = s.blkEnd := beq_iff_eq

/-- Settles O23: the token's byte is taken only where the block reader has not finished. -/
theorem tokenIsParsedOrTheBlockEnds : Obligations.TokenIsParsedOrTheBlockEnds := by
  intro s lit mlb
  refine ⟨fun he => if_pos ((readerFinished_block s).2 he), fun hlt => ?_⟩
  have hn : ¬ readerFinished .block s = true := fun h => hlt.ne ((readerFinished_block s).1 h)
  exact (if_neg hn).trans (consume_block_of_present hlt)

/-- Settles O24: the byte is taken off the reader, then the sum is checked. -/
theorem literalExtensionIsAdded : Obligations.LiteralExtensionIsAdded := by
  intro s b
  refine ⟨consume_block_of_exhausted, fun hlt hv => ?_, fun hlt hv => ?_⟩
  · exact (consume_block_of_present hlt).trans (if_pos hv)
  · exact (consume_block_of_present hlt).trans (if_neg (Nat.not_lt.2 hv))

/-- Settles O27: the byte is taken off the reader, then the sum is checked. -/
theorem matchExtensionIsAdded : Obligations.MatchExtensionIsAdded := by
  intro s b
  refine ⟨consume_block_of_exhausted, fun hlt hv => ?_, fun hlt hv => ?_⟩
  · exact (consume_block_of_present hlt).trans (if_pos hv)
  · exact (consume_block_of_present hlt).trans (if_neg (Nat.not_lt.2 hv))

/-- Settles O26: the two bytes are taken off the reader, then the offset is compared with 0 and with the reach. -/
theorem offsetIsCheckedAgainstTheReach : Obligations.OffsetIsCheckedAgainstTheReach := by
  intro s o
  refine ⟨consume_block_of_short, fun h2 => ?zero, fun h2 hz hr => ?beyond, fun h2 hz hr => ?within⟩
  case zero => exact (consume_block_of_present h2).trans (if_pos rfl)
  case beyond => exact (consume_block_of_present h2).trans ((if_neg hz).trans (if_pos hr))
  case within => exact (consume_block_of_present h2).trans ((if_neg hz).trans (if_neg (Nat.not_lt.2 hr)))

end Sys2Proof.Proofs
end

section
/-! PROOFS. 41_block_decoder.md R159 and 10_state.md R56: a block decoder step changes its own registers and appends to
the output. -/

namespace Sys2Proof.Proofs

open Sys2Proof.Machine Sys2Proof.Laws

variable {s t u : State} {bs : List Byte}

/-- Only the control state, the block decoder's registers, the output and the error record differ. -/
abbrev OnlyBlockFieldsDiffer (s t : State) : Prop :=
  t = { s with
    fsm := t.fsm, bsub := t.bsub, bpos := t.bpos, litLen := t.litLen, matchLen := t.matchLen, mlb := t.mlb,
    offset := t.offset, outLen := t.outLen, outMem := t.outMem, winMem := t.winMem,
    errKind := t.errKind, errCause := t.errCause, errPos := t.errPos }

theorem OnlyBlockFieldsDiffer.trans (h : OnlyBlockFieldsDiffer s t) (h' : OnlyBlockFieldsDiffer t u) :
    OnlyBlockFieldsDiffer s u := by
  rw [OnlyBlockFieldsDiffer, h', h]

/-- From `s` to `t` the block decoder appends `bs` and writes registers of its own. -/
structure BlockAppends (bs : List Byte) (s t : State) : Prop where
  fields : OnlyBlockFieldsDiffer s t
  output : SameOutput (appendBytes bs s) t

theorem onlyBlockFieldsDiffer_appendBytes (bs : List Byte) (s : State) :
    OnlyBlockFieldsDiffer s (appendBytes bs s) := by
  rw [OnlyBlockFieldsDiffer, appendBytes_frame]

/-- An append, with registers of the block decoder written after it. -/
theorem blockAppends_of_appendBytes (hf : OnlyBlockFieldsDiffer (appendBytes bs s) t)
    (ho : SameOutput (appendBytes bs s) t) : BlockAppends bs s t :=
  ⟨(onlyBlockFieldsDiffer_appendBytes bs s).trans hf, ho⟩

/-- Error entry appends nothing. -/
theorem blockAppends_errorEntry (c : Cause) (s : State) : BlockAppends [] s (errorEntry c s) :=
  ⟨rfl, rfl, rfl, rfl, rfl⟩

/-! ## Element by element -/

theorem execToken_appends {lit mlb : BitVec 4} (h : execToken lit mlb s = .next t) : BlockAppends [] s t := by
  obtain ⟨-, rfl⟩ | rfl | ⟨-, rfl⟩ := execToken_cases h <;> exact ⟨rfl, rfl, rfl, rfl, rfl⟩

theorem execLitext_appends {b : Byte} (h : execLitext b s = .next t) : BlockAppends [] s t := by
  obtain rfl | rfl | ⟨-, -, rfl⟩ := execLitext_cases h <;> exact ⟨rfl, rfl, rfl, rfl, rfl⟩

theorem execOffset_appends {o : BitVec 16} (h : execOffset o s = .next t) : BlockAppends [] s t := by
  obtain rfl | rfl | rfl | ⟨-, -, -, rfl⟩ := execOffset_cases h <;> exact ⟨rfl, rfl, rfl, rfl, rfl⟩

theorem execMlext_appends {b : Byte} (h : execMlext b s = .next t) : BlockAppends [] s t := by
  obtain rfl | rfl | ⟨-, -, rfl⟩ := execMlext_cases h <;> exact ⟨rfl, rfl, rfl, rfl, rfl⟩

theorem execLiterals_appends (h : execLiterals s = .next t) : ∃ bs, BlockAppends bs s t := by
  obtain rfl | rfl | ⟨-, -, ⟨-, rfl⟩ | ⟨-, rfl⟩⟩ := execLiterals_cases h
  · exact ⟨[], blockAppends_errorEntry _ s⟩
  · exact ⟨[], blockAppends_errorEntry _ s⟩
  · exact ⟨_, blockAppends_of_appendBytes rfl ⟨rfl, rfl, rfl, rfl⟩⟩
  · exact ⟨_, blockAppends_of_appendBytes rfl ⟨rfl, rfl, rfl, rfl⟩⟩

theorem execMatchcopy_appends (h : execMatchcopy s = .next t) : ∃ bs, BlockAppends bs s t := by
  obtain rfl | ⟨-, rfl⟩ := execMatchcopy_cases h
  · exact ⟨[], blockAppends_errorEntry _ s⟩
  · exact ⟨_, blockAppends_of_appendBytes rfl ⟨rfl, rfl, rfl, rfl⟩⟩

/-- `payload.c` is one of these elements, by the sub-state (43_frame_blocks.md R216). -/
theorem execPayloadC_appends (h : execPayloadC s = .next t) :
    ∃ bs, BlockAppends bs s t ∧ (s.bsub ∈ [Bsub.token, .litext, .offset, .matchext] → bs = []) := by
  rw [execPayloadC] at h
  split at h
  · exact ⟨[], execToken_appends h, fun _ => rfl⟩
  · exact ⟨[], execLitext_appends h, fun _ => rfl⟩
  · next hs =>
    obtain ⟨bs, hb⟩ := execLiterals_appends h
    exact ⟨bs, hb, fun hm => absurd (hs ▸ hm) (by decide)⟩
  · exact ⟨[], execOffset_appends h, fun _ => rfl⟩
  · exact ⟨[], execMlext_appends h, fun _ => rfl⟩
  · next hs =>
    obtain ⟨bs, hb⟩ := execMatchcopy_appends h
    exact ⟨bs, hb, fun hm => absurd (hs ▸ hm) (by decide)⟩
  · cases h
  · cases h

/-- An element that parses and stores nothing, as its row or as `payload.c`. -/
abbrev StoresNothing (lit mlb : BitVec 4) (b : Byte) (o : BitVec 16) (i : Instr) (s : State) : Prop :=
  i ∈ [Instr.token lit mlb, .litext b, .offset o, .mlext b] ∨
    (i = .payloadC ∧ s.bsub ∈ [Bsub.token, .litext, .offset, .matchext])

theorem exec_blockAppends {lit mlb : BitVec 4} {b : Byte} {o : BitVec 16} {i : Instr}
    (hi : i ∈ [Instr.token lit mlb, .litext b, .literals, .offset o, .mlext b, .matchcopy, .payloadC])
    (h : exec i s = .next t) : ∃ bs, BlockAppends bs s t ∧ (StoresNothing lit mlb b o i s → bs = []) := by
  simp only [List.mem_cons, List.not_mem_nil, or_false] at hi
  obtain rfl | rfl | rfl | rfl | rfl | rfl | rfl := hi
  · exact ⟨[], execToken_appends h, fun _ => rfl⟩
  · exact ⟨[], execLitext_appends h, fun _ => rfl⟩
  · obtain ⟨bs, hb⟩ := execLiterals_appends h
    exact ⟨bs, hb, fun hn => by simp [StoresNothing] at hn⟩
  · exact ⟨[], execOffset_appends h, fun _ => rfl⟩
  · exact ⟨[], execMlext_appends h, fun _ => rfl⟩
  · obtain ⟨bs, hb⟩ := execMatchcopy_appends h
    exact ⟨bs, hb, fun hn => by simp [StoresNothing] at hn⟩
  · obtain ⟨bs, hb, hnil⟩ := execPayloadC_appends h
    exact ⟨bs, hb, fun hn => hnil (by simpa [StoresNothing] using hn)⟩

/-- Settles O46: each element appends a byte string, empty where it only parses, and an append touches nothing else. -/
theorem blockDecoderIsConfined : Obligations.BlockDecoderIsConfined := by
  intro s t lit mlb b o i hi h
  obtain ⟨bs, ⟨hfields, hout⟩, hnil⟩ := exec_blockAppends hi h
  have hlen : t.outLen = s.outLen + bs.length := hout.outLen.trans (appendBytes_outLen bs s)
  refine ⟨hfields, by omega, fun a ha => ?_, fun a ha => ?_, fun hn => ?_⟩
  · rw [hout.outByte, outByte_appendBytes_of_outside bs s (by rwa [← hlen])]
  · rw [hout.winByte]
    exact winByte_appendBytes_of_outside bs s fun k hk => ha (s.outLen + k) (by omega) (by omega)
  · obtain rfl := hnil hn
    exact ⟨hout.outLen, hout.outMem, hout.winMem⟩

end Sys2Proof.Proofs
end

section
/-! PROOFS. 42_frame_header.md R183 to R191: each header element is taken, captured and checked in its order, and every
step keeps the frame descriptor checked. -/

namespace Sys2Proof.Proofs

open Sys2Proof.Machine Sys2Proof.Laws

variable {s t : State}

/-! ## The checked descriptor, move by move -/

/-- In a block, as in most states past HC, all that is asked is that the header is legal. -/
theorem headerChecked_expectBlock_iff (hf : s.fsm = .expectBlock) : HeaderChecked s ↔ headerLegal s := by
  simp only [HeaderChecked, hf]

theorem headerLegal_appendBytes (bs : List Byte) (h : headerLegal s) : headerLegal (appendBytes bs s) := by
  rw [appendBytes_frame]
  exact h

/-- After the content size, or without one, FLG bit 0 decides between DICTID and HC: HC is reached only in a frame
without a dictionary ID (R187). -/
theorem headerChecked_of_afterCsize (hf : t.fsm = afterCsize t.flg) (hflg : flgLegal t) (hbd : bdReserved t.bd = false)
    (hle : t.csize.toNat ≤ t.cfg.lenMax) (habsent : contentSizePresent t.flg = false → t.csize = 0) :
    HeaderChecked t := by
  cases hd : dictIdPresent t.flg with
  | true =>
    have hf : t.fsm = .expectDictid := hf.trans (if_pos hd)
    simp only [HeaderChecked, hf]
    exact ⟨hflg, hbd, hd⟩
  | false =>
    have hf : t.fsm = .expectHc := hf.trans (if_neg (by simp [hd]))
    simp only [HeaderChecked, hf]
    exact ⟨hflg, hbd, hd, hle, habsent⟩

/-- After BD, FLG bit 3 decides whether a content size is read; until then `csize` is 0 (R185, R187). -/
theorem headerChecked_of_afterBd (hf : t.fsm = afterBd t.flg) (hflg : flgLegal t) (hbd : bdReserved t.bd = false)
    (hcsize : t.csize = 0) : HeaderChecked t := by
  cases hc : contentSizePresent t.flg with
  | true =>
    have hf : t.fsm = .expectCsize := hf.trans (if_pos hc)
    simp only [HeaderChecked, hf]
    exact ⟨hflg, hbd, hcsize, hc⟩
  | false =>
    have hf : t.fsm = afterCsize t.flg := hf.trans (if_neg (by simp [hc]))
    exact headerChecked_of_afterCsize hf hflg hbd (by simp [hcsize]) fun _ => hcsize

/-- The moves inside a block leave the descriptor, in the block or at the next mark. -/
theorem headerChecked_blockMove (h : HeaderChecked s) (hf : s.fsm = .expectBlock) (m : EngineMove s t) :
    HeaderChecked t := by
  have hl : headerLegal s := (headerChecked_expectBlock_iff hf).1 h
  cases m with
  | payloadS _ _ _ e => subst e; exact headerLegal_appendBytes _ hl
  | lastLiterals _ _ _ _ _ e => subst e; exact headerLegal_appendBytes _ hl
  | blockEnd _ _ _ e => subst e; exact hl
  | literals _ _ _ _ _ e =>
    subst e
    exact (headerChecked_expectBlock_iff (by simp [hf])).2 (headerLegal_appendBytes _ hl)
  | matchcopy _ _ _ e =>
    subst e
    exact (headerChecked_expectBlock_iff (by simp [hf])).2 (headerLegal_appendBytes _ hl)
  | token _ _ _ _ _ e => subst e; exact h
  | litext _ _ _ _ _ e => subst e; exact h
  | offset _ _ _ _ _ _ e => subst e; exact h
  | mlext _ _ _ _ _ e => subst e; exact h
  | _ => simp_all only [reduceCtorEq]

/-- The moves of the frame: a header element's check is what its target asks; past HC a checksum is expected only where
FLG announces it. -/
theorem headerChecked_frameMove (h : HeaderChecked s) (hf : s.fsm ≠ .expectBlock) (m : EngineMove s t) :
    HeaderChecked t := by
  cases m with
  | magic e _ ht => subst ht; simpa only [HeaderChecked, e] using h
  | flg e b _ hv hr ht =>
    subst ht
    simp only [HeaderChecked, e] at h
    obtain ⟨-, hbd, hcsize⟩ := h
    exact ⟨⟨hv, hr⟩, hbd, hcsize⟩
  | bd e b _ hr ht =>
    subst ht
    simp only [HeaderChecked, e] at h
    obtain ⟨hflg, -, hcsize⟩ := h
    exact headerChecked_of_afterBd rfl hflg hr hcsize
  | csize e v _ hv ht =>
    subst ht
    simp only [HeaderChecked, e] at h
    obtain ⟨hflg, hbd, -, hc⟩ := h
    exact headerChecked_of_afterCsize rfl hflg hbd hv fun hn => by simp [hc] at hn
  | hc e _ ht => subst ht; simpa only [HeaderChecked, e] using h
  | endmark e _ ht => subst ht; simpa only [HeaderChecked, e] using h
  | markChecked e _ _ _ _ hc ht =>
    subst ht
    simp only [HeaderChecked, e] at h
    exact ⟨h, hc⟩
  | markUnchecked e _ _ _ _ _ ht =>
    subst ht
    simp only [HeaderChecked, e] at h
    exact h
  | bchk e _ ht =>
    subst ht
    simp only [HeaderChecked, e] at h
    exact h.1
  | endCheck e hc ht =>
    subst ht
    simp only [HeaderChecked, e] at h
    exact ⟨h, hc⟩
  | endDone e _ ht => subst ht; simpa only [HeaderChecked, e] using h
  | cchk e _ ht =>
    subst ht
    simp only [HeaderChecked, e] at h
    exact h.1
  | _ => exact absurd ‹_› hf

theorem headerChecked_engine (h : HeaderChecked s) (o : EngineOutcome s t) : HeaderChecked t := by
  cases o with
  | rest _ e => exact e ▸ h
  | error _ _ _ _ _ e => subst e; trivial
  | move m =>
    by_cases hf : s.fsm = .expectBlock
    · exact headerChecked_blockMove h hf m
    · exact headerChecked_frameMove h hf m

/-- START clears the descriptor, and no other host command but reset touches it. -/
theorem headerChecked_host (h : HeaderChecked s) (e : HostEffect s t) : HeaderChecked t := by
  cases e with
  | start v _ _ e => subst e; exact ⟨rfl, rfl, rfl⟩
  | startShort v _ _ e => subst e; trivial
  | reset e => rw [next_eq e]; trivial
  | nothing e => exact e ▸ h
  | irqEn v e => subst e; exact h
  | inLen v _ e => subst e; exact h
  | inByte i b _ _ e => subst e; exact h
  | read e => rw [e]; exact h

/-- Settles O50: each header element moves on only past its own check, DICTID never does, and past HC the descriptor
stays. -/
theorem stepKeepsHeaderChecked : Obligations.StepKeepsHeaderChecked := by
  intro s t h hst
  have h : HeaderChecked (takeTurn s) := h
  obtain ⟨-, o⟩ | ⟨-, e⟩ := step_outcome hst
  · exact headerChecked_engine h o
  · exact headerChecked_host h e

/-! ## Header elements -/

theorem consume_frame_of_present {n : Nat} {k : State → Result} (h : s.pos + n ≤ s.inLen) :
    consume .frame n s k = k (readerAdvance .frame n s) :=
  consume_of_le (by rw [readerLeft_frame]; omega)

/-- Settles O10: the four bytes are taken off the reader, then compared with the frame's magic number. -/
theorem magicIsCheckedAndConsumed : Obligations.MagicIsCheckedAndConsumed := by
  intro s h4
  refine ⟨?frame, fun m hm => ?other⟩
  case frame => exact (consume_frame_of_present h4).trans (if_pos rfl)
  case other => exact (consume_frame_of_present h4).trans (if_neg hm)

/-- Settles O11: the byte is taken off the reader, then its version is tested, then its reserved bit. -/
theorem flgIsCapturedThenChecked : Obligations.FlgIsCapturedThenChecked := by
  intro s b h1
  refine ⟨fun hv => ?version, fun hv hr => ?reserved, fun hv hr => ?legal⟩
  case version => exact (consume_frame_of_present h1).trans (if_pos hv)
  case reserved => exact (consume_frame_of_present h1).trans ((if_neg (not_not.2 hv)).trans (if_pos hr))
  case legal =>
    have hr : ¬ flgReserved b = true := Bool.eq_false_iff.1 hr
    exact (consume_frame_of_present h1).trans ((if_neg (not_not.2 hv)).trans (if_neg hr))

theorem bdReserved_iff (b : Byte) : bdReserved b = true ↔ b &&& 0x8F ≠ 0 := bne_iff_ne

/-- Settles O12: the byte is taken off the reader, then its reserved bits are tested; `afterBd` names what is next. -/
theorem bdIsCapturedThenChecked : Obligations.BdIsCapturedThenChecked := by
  intro s b h1
  refine ⟨fun hr => ?reserved, fun hr => ?legal⟩
  case reserved => exact (consume_frame_of_present h1).trans (if_pos ((bdReserved_iff b).2 hr))
  case legal => exact (consume_frame_of_present h1).trans (if_neg fun h => (bdReserved_iff b).1 h hr)

/-- Settles O13: the pre-flight comes first, then the range check on the captured value. -/
theorem csizeIsCapturedThenRangeChecked : Obligations.CsizeIsCapturedThenRangeChecked := by
  intro s v
  have hl : s.pos + 13 ≤ s.inLen → ¬ readerLeft .frame s < 13 := fun h13 => by rw [readerLeft_frame]; omega
  refine ⟨fun hs => if_pos hs, fun h13 hv => ?above, fun h13 hv => ?within⟩
  case above => exact (if_neg (hl h13)).trans (if_pos hv)
  case within => exact (if_neg (hl h13)).trans (if_neg (Nat.not_lt.2 hv))

/-- Settles O14: the meaning is error entry, whatever the ID. -/
theorem dictidIsAlwaysRejected : Obligations.DictidIsAlwaysRejected := fun _ _ => rfl

/-- Settles O15: the byte is taken off the reader, then compared; nothing is asked of the hash. -/
theorem headerChecksumIsComparedWithTheHash : Obligations.HeaderChecksumIsComparedWithTheHash := by
  intro s c h1
  refine ⟨fun hc => ?good, fun hc => ?bad⟩
  case good => exact (consume_frame_of_present h1).trans (if_pos hc)
  case bad => exact (consume_frame_of_present h1).trans (if_neg hc)

end Sys2Proof.Proofs
end

section
/-! PROOFS. 43_frame_blocks.md R225 and 60_exceptions.md R289: the engine's turn always answers a next state, and each
turn of a run uses up some of the work that the input left to it. -/

namespace Sys2Proof.Proofs

open Sys2Proof.Machine Sys2Proof.Laws

variable {s t : State}

/-! ## The engine's turn answers -/

/-- The meaning answers a next state, which may be ERROR. -/
def Completes (r : Result) : Prop := ∃ t, r = .next t

theorem completes_next (s : State) : Completes (.next s) := ⟨s, rfl⟩

theorem completes_raise (c : Cause) (s : State) : Completes (raise c s) := completes_next _

theorem completes_ite {p : Prop} [Decidable p] {a b : Result} (ha : Completes a) (hb : Completes b) :
    Completes (if p then a else b) :=
  iteInduction (fun _ => ha) (fun _ => hb)

theorem completes_consume {r : Reader} {n : Nat} {k : State → Result} (hk : ∀ t, Completes (k t)) :
    Completes (consume r n s k) := by
  by_cases hl : readerLeft r s < n
  · exact consume_of_lt hl ▸ completes_raise _ s
  · exact consume_of_le (Nat.not_lt.1 hl) ▸ hk _

theorem frameBlock_completes (stored : Bool) (n : Nat) (s : State) : Completes (frameBlock stored n s) :=
  completes_consume fun _ => completes_ite (completes_raise _ _) (completes_next _)

theorem execEnd_completes (s : State) : Completes (execEnd s) := completes_ite (completes_raise _ _) (completes_next _)

/-- Only host accesses can be refused, and only `payload.c` finds a state without a step (log 11). -/
theorem exec_completes {i : Instr} (hi : isHostInstr i = false) (hp : i ≠ .payloadC) (s : State) :
    Completes (exec i s) := by
  cases i with
  | magic m => exact completes_consume fun _ => completes_ite (completes_next _) (completes_raise _ _)
  | flg b =>
    exact completes_consume fun _ =>
      completes_ite (completes_raise _ _) (completes_ite (completes_raise _ _) (completes_next _))
  | bd b => exact completes_consume fun _ => completes_ite (completes_raise _ _) (completes_next _)
  | csize v => exact completes_ite (completes_raise _ _) (completes_ite (completes_raise _ _) (completes_next _))
  | dictid id => exact completes_raise _ s
  | hc c => exact completes_consume fun _ => completes_ite (completes_next _) (completes_raise _ _)
  | endmark => exact completes_consume fun _ => completes_next _
  | bmarkC size => exact frameBlock_completes _ _ s
  | bmarkS size => exact frameBlock_completes _ _ s
  | bchk c => exact completes_consume fun _ => completes_ite (completes_next _) (completes_raise _ _)
  | payloadS => exact completes_ite (completes_raise _ _) (completes_next _)
  | payloadC => exact absurd rfl hp
  | cchk c => exact completes_ite (completes_raise _ _) (completes_ite (completes_next _) (completes_raise _ _))
  | token lit mlb => exact completes_ite (completes_next _) (completes_consume fun _ => completes_next _)
  | litext b => exact completes_consume fun _ => completes_ite (completes_raise _ _) (completes_next _)
  | literals =>
    exact completes_ite (completes_raise _ _)
      (completes_ite (completes_raise _ _) (completes_ite (completes_next _) (completes_next _)))
  | offset o =>
    exact completes_consume fun _ =>
      completes_ite (completes_raise _ _) (completes_ite (completes_raise _ _) (completes_next _))
  | mlext b => exact completes_consume fun _ => completes_ite (completes_raise _ _) (completes_next _)
  | matchcopy => exact completes_ite (completes_raise _ _) (completes_next _)
  | _ => cases hi

/-- What the engine decodes is never a host access, and `payload.c` only where that element is asked for. -/
theorem decodeField_of_ne_payloadC {k : Slot} (hk : k ≠ .payloadC) (v : Nat) :
    isHostInstr (decodeField k v) = false ∧ decodeField k v ≠ .payloadC := by
  cases k with
  | payloadC => exact absurd rfl hk
  | blockmark =>
    simp only [decodeField, decodeMark]
    split
    · exact ⟨rfl, nofun⟩
    · split <;> exact ⟨rfl, nofun⟩
  | _ => exact ⟨rfl, nofun⟩

/-- The engine's fetch names the element of a sub-state, not `payload.c` (log 10). -/
theorem expectedSlot_ne_payloadC (s : State) : expectedSlot s ≠ some .payloadC := by
  cases hf : s.fsm with
  | expectBlock => cases hs : s.bsub <;> simp [expectedSlot, hf, blockSlot, hs]
  | _ => simp [expectedSlot, hf]

/-- In a block, the sub-state names an element. -/
theorem bsub_of_expectedSlot_none (h : expectedSlot s = none) (hf : s.fsm = .expectBlock) : s.bsub = .none := by
  rw [expectedSlot, hf] at h
  cases hs : s.bsub <;> simp [hs, blockSlot] at h ⊢

/-- The engine's turn answers a next state wherever a block has a sub-state. -/
theorem engineStep_completes (hb : s.fsm = .expectBlock → s.bsub ≠ .none) : Completes (engineStep s) := by
  rw [engineStep]
  cases hk : expectedSlot s with
  | some k =>
    have hne : k ≠ .payloadC := fun e => expectedSlot_ne_payloadC s (e ▸ hk)
    obtain ⟨hi, hp⟩ := decodeField_of_ne_payloadC hne (slotField k s)
    exact exec_completes hi hp s
  | none =>
    have hf : s.fsm ≠ .expectBlock := fun hf => hb hf (bsub_of_expectedSlot_none hk hf)
    dsimp only
    rw [if_neg hf]
    exact completes_ite (execEnd_completes s) (completes_next s)

/-! ## The work left to a run -/

/-- What a sub-state adds to the work of the payload's bytes: a literal run and a match copy can pass no byte of it, so
each counts one more than the sub-state that follows. -/
def bsubWork : Bsub → Nat
  | .litcopy => 2
  | .matchcopy => 2
  | _ => 1

theorem bsubWork_pos (b : Bsub) : 1 ≤ bsubWork b := by cases b <;> decide

theorem bsubWork_le_two (b : Bsub) : bsubWork b ≤ 2 := by cases b <;> decide

/-- The work that the frame cursor does not show: the current payload's, or the two checks after the EndMark. -/
def elementWork (s : State) : Nat :=
  match s.fsm with
  | .expectBlockchk => 2 * (s.blkEnd - s.bpos)
  | .expectBlock => 2 * (s.blkEnd - s.bpos) + bsubWork s.bsub
  | .endFrame => 2
  | .expectContentchk => 1
  | _ => 0

/-- What every move of a run lowers: two units for each byte that the frame cursor or the block cursor has still to
pass, and the elements that pass none. -/
def workLeft (s : State) : Nat := 2 * (s.inLen - s.pos) + elementWork s

theorem elementWork_afterCsize {flg : Byte} (h : s.fsm = afterCsize flg) : elementWork s = 0 := by
  obtain e | e := afterCsize_cases flg <;> rw [elementWork, h, e]

theorem elementWork_afterBd {flg : Byte} (h : s.fsm = afterBd flg) : elementWork s = 0 := by
  obtain e | e | e := afterBd_cases flg <;> rw [elementWork, h, e]

theorem workLeft_block (hf : s.fsm = .expectBlock) :
    workLeft s = 2 * (s.inLen - s.pos) + (2 * (s.blkEnd - s.bpos) + bsubWork s.bsub) := by
  rw [workLeft, elementWork, hf]

/-- From one sub-state of a block to another: some payload byte is used up, or the sub-state left had more work. -/
theorem workLeft_lt_in_block (hf : s.fsm = .expectBlock) (hft : t.fsm = s.fsm) (hin : t.inLen = s.inLen)
    (hpos : t.pos = s.pos) (hend : t.blkEnd = s.blkEnd)
    (h : (s.bpos < t.bpos ∧ s.bpos < s.blkEnd) ∨ (s.bpos ≤ t.bpos ∧ bsubWork t.bsub < bsubWork s.bsub)) :
    workLeft t < workLeft s := by
  have hs := bsubWork_pos s.bsub
  have ht := bsubWork_le_two t.bsub
  rw [workLeft_block hf, workLeft_block (hft.trans hf), hin, hpos, hend]
  omega

/-- Where the block ends, nothing is left of its work. -/
theorem workLeft_lt_at_block_end (hf : s.fsm = .expectBlock) (hft : t.fsm = .expectBlockmark) (hin : t.inLen = s.inLen)
    (hpos : t.pos = s.pos) : workLeft t < workLeft s := by
  have hs := bsubWork_pos s.bsub
  rw [workLeft_block hf, workLeft, elementWork, hft, hin, hpos]
  dsimp only
  omega

/-- The moves inside a block. -/
theorem EngineMove.workLeft_lt_block (m : EngineMove s t) (hf : s.fsm = .expectBlock) : workLeft t < workLeft s := by
  cases m with
  | payloadS _ _ _ h | blockEnd _ _ _ h | lastLiterals _ _ _ _ _ h =>
    subst h
    exact workLeft_lt_at_block_end hf rfl (by simp) (by simp)
  | token _ _ _ _ _ h | litext _ _ _ _ _ h | offset _ _ _ _ _ _ h | mlext _ _ _ _ _ h =>
    subst h
    exact workLeft_lt_in_block hf rfl rfl rfl rfl (.inl (by dsimp only; omega))
  | literals _ hs _ _ _ h =>
    subst h
    exact workLeft_lt_in_block hf (by simp) (by simp) (by simp) (by simp)
      (.inr ⟨Nat.le_add_right _ _, by rw [hs]; exact Nat.one_lt_two⟩)
  | matchcopy _ hs _ h =>
    subst h
    exact workLeft_lt_in_block hf (by simp) (by simp) (by simp) (by simp)
      (.inr ⟨by simp, by rw [hs]; exact Nat.one_lt_two⟩)
  | _ => simp_all only [reduceCtorEq]

/-- The moves of the frame: each but the END check passes bytes, and a mark passes its payload. -/
theorem EngineMove.workLeft_lt_frame (m : EngineMove s t) (hf : s.fsm ≠ .expectBlock) : workLeft t < workLeft s := by
  cases m with
  | bd e b hl _ h =>
    rw [workLeft, workLeft, elementWork_afterBd (s := t) (by rw [h]), h]
    dsimp only
    omega
  | csize e v hl _ h =>
    rw [workLeft, workLeft, elementWork_afterCsize (s := t) (by rw [h]), h]
    dsimp only
    omega
  | markChecked e stored n hl hn _ h =>
    have hneed := le_blockNeed s.flg n
    subst h
    simp only [workLeft, elementWork, e, framePayload]
    omega
  | markUnchecked e stored n hl hn _ h =>
    have hneed := le_blockNeed s.flg n
    have hb := bsubWork_le_two (blockEntry stored)
    subst h
    simp only [workLeft, elementWork, e, framePayload]
    omega
  | bchk e hl h =>
    have hb := bsubWork_le_two (blockEntry s.blkStored)
    subst h
    simp only [workLeft, elementWork, e]
    omega
  | magic e _ h | flg e _ _ _ _ h | hc e _ h | endmark e _ h | endCheck e _ h | endDone e _ h | cchk e _ h =>
    subst h
    simp only [workLeft, elementWork, e]
    omega
  | _ => exact absurd ‹_› hf

theorem EngineMove.workLeft_lt (m : EngineMove s t) : workLeft t < workLeft s := by
  by_cases hf : s.fsm = .expectBlock
  · exact m.workLeft_lt_block hf
  · exact m.workLeft_lt_frame hf

/-- While the run goes on, the engine's turn has made a move. -/
theorem EngineOutcome.workLeft_lt (o : EngineOutcome s t) (hs : busy s = true) (ht : busy t = true) :
    workLeft t < workLeft s := by
  cases o with
  | rest hb _ => simp [hs] at hb
  | error _ _ _ _ _ e => subst e; cases ht
  | move m => exact m.workLeft_lt

/-- The current payload lies before the frame cursor, so both cursors together have at most the input to pass. -/
theorem workLeft_le (h : RunBounds s) : workLeft s ≤ 2 * s.inLen + 2 := by
  have hb := bsubWork_le_two s.bsub
  obtain ⟨-, -, -, -, -, -, -, hrun⟩ := h
  cases hf : s.fsm <;> simp only [workLeft, elementWork, hf, blockBounds] at hrun ⊢ <;> omega

/-! ## The run -/

@[simp] theorem appendBytes_agenda (bs : List Byte) (s : State) : (appendBytes bs s).agenda = s.agenda := by
  rw [appendBytes_frame]

/-- The engine leaves the turns to come. -/
theorem EngineOutcome.agenda (o : EngineOutcome s t) : t.agenda = s.agenda := by
  cases o with
  | rest _ e => rw [e]
  | error _ _ _ _ _ e => rw [e]; rfl
  | move m => cases m <;> subst t <;> simp

theorem isEngineTurn_of_empty (ha : s.agenda = []) : isEngineTurn s = true := by rw [isEngineTurn, ha]

/-- With no host turn pending, a turn of a run ends it or lowers the work left. -/
theorem step_ends_or_lowers_workLeft (hc : ControlConsistent s) (hb : busy s = true) (ha : s.agenda = []) :
    ∃ t, step s = .next t ∧ ControlConsistent t ∧ t.agenda = [] ∧
      ((t.fsm = .done ∨ t.fsm = .error) ∨ (busy t = true ∧ workLeft t < workLeft s)) := by
  have he := isEngineTurn_of_empty ha
  have hsub : s.fsm = .expectBlock → s.bsub ≠ .none := fun hf hn => hc.1.1 hn hf
  obtain ⟨t, ht⟩ := engineStep_completes (s := takeTurn s) hsub
  rw [← step_of_engine he] at ht
  obtain ⟨-, o⟩ | ⟨he', -⟩ := step_outcome ht
  · have hat : t.agenda = [] := by rw [o.agenda, takeTurn_agenda, ha, List.tail_nil]
    refine ⟨t, ht, stepKeepsControlConsistent s t hc ht, hat, ?_⟩
    cases hbt : busy t with
    | false => exact .inl (o.ended hb hbt)
    | true => exact .inr ⟨rfl, o.workLeft_lt hb hbt⟩
  · exact absurd (he.symm.trans he') (by decide)

theorem run_succ_of_step {M : Host.Core} {s t : M.State} (h : M.step s = .next t) (n : Nat) :
    M.run (n + 1) s = M.run n t := by
  rw [Host.Core.run, h]

/-- A run ends within as many turns as it has units of work, and one more. -/
theorem run_ends_within_workLeft (n : Nat) (hn : workLeft s < n) (hc : ControlConsistent s) (hb : busy s = true)
    (ha : s.agenda = []) :
    ∃ k t, k ≤ n ∧ Host.Core.run core k s = .next t ∧ (t.fsm = .done ∨ t.fsm = .error) := by
  induction n generalizing s with
  | zero => omega
  | succ n ih =>
    obtain ⟨t, hst, hct, hat, hend | ⟨hbt, hlt⟩⟩ := step_ends_or_lowers_workLeft hc hb ha
    · exact ⟨1, t, by omega, run_succ_of_step (M := core) hst 0, hend⟩
    · obtain ⟨k, u, hk, hrun, hend⟩ := ih (by omega) hct hbt hat
      exact ⟨k + 1, u, by omega, (run_succ_of_step (M := core) hst k).trans hrun, hend⟩

/-- Settles O56: the work left bounds the turns, and in a sound state it is at most two units an input byte and two. -/
theorem everyRunTerminates : Obligations.EveryRunTerminates := by
  intro s hs hb ha
  have hw := workLeft_le hs.bounds
  obtain ⟨k, t, hk, hrun, hend⟩ := run_ends_within_workLeft (2 * s.inLen + 3) (by omega) hs.control hb ha
  exact ⟨k, t, by omega, hrun, hend⟩

end Sys2Proof.Proofs
end

section
/-! PROOFS. 43_frame_blocks.md R210 to R221: the block loop and the trailer. A mark frames its payload, the payload's
checksum is compared before any of it is used, a stored payload is appended whole, and a compressed one runs the block
decoder's rules. -/

namespace Sys2Proof.Proofs

open Sys2Proof.Machine Sys2Proof.Laws

variable {s : State}

/-! ## Block marks and the block checksum -/

/-- Settles O16: the four bytes are taken off the reader, and nothing is checked. -/
theorem endmarkEndsTheBlocks : Obligations.EndmarkEndsTheBlocks := fun _ h4 => consume_frame_of_present h4

/-- A mark whose block, with its checksum and the next mark, is not all there. -/
theorem frameBlock_of_short {stored : Bool} {n : Nat} (h4 : s.pos + 4 ≤ s.inLen)
    (hn : s.inLen - (s.pos + 4) < blockNeed s.flg n) : frameBlock stored n s = .next (errorEntry .truncBlock s) :=
  (consume_frame_of_present h4).trans (if_pos hn)

/-- A mark whose block is all there. -/
theorem frameBlock_of_fits {stored : Bool} {n : Nat} (h4 : s.pos + 4 ≤ s.inLen)
    (hn : blockNeed s.flg n ≤ s.inLen - (s.pos + 4)) :
    frameBlock stored n s = .next { framePayload stored n s with
      fsm := if blockChecksumPresent s.flg then .expectBlockchk else .expectBlock
      bsub := if blockChecksumPresent s.flg then s.bsub else blockEntry stored } := by
  have henter : frameBlock stored n s = .next (enterBlock (framePayload stored n s)) :=
    (consume_frame_of_present h4).trans (if_neg (Nat.not_lt.2 hn))
  rw [henter, enterBlock, framePayload_flg]
  cases blockChecksumPresent s.flg <;> rfl

/-- Settles O17: both marks are `frameBlock`, whose pre-flight is `blockNeed`. -/
theorem blockMarkFramesThePayload : Obligations.BlockMarkFramesThePayload := by
  intro s size h4
  refine ⟨fun hn => ?short, fun hn => ?fits⟩
  case short => exact ⟨frameBlock_of_short h4 hn, frameBlock_of_short h4 hn⟩
  case fits => exact ⟨frameBlock_of_fits h4 hn, frameBlock_of_fits h4 hn⟩

/-- Settles O19: the four bytes are taken off the reader, then compared; nothing is asked of the hash. -/
theorem blockChecksumIsComparedBeforeDecoding : Obligations.BlockChecksumIsComparedBeforeDecoding := by
  intro s c h4
  refine ⟨fun hc => ?good, fun hc => ?bad⟩
  case good => exact (consume_frame_of_present h4).trans (if_pos hc)
  case bad => exact (consume_frame_of_present h4).trans (if_neg hc)

/-! ## The stored payload -/

theorem execPayloadS_of_fits (hc : s.outLen + (s.blkEnd - s.blkStart) ≤ s.cfg.outCap) :
    execPayloadS s = .next (blockDone { appendBytes (inBytes s s.blkStart s.blkEnd) s with bpos := s.blkEnd }) :=
  if_neg (Nat.not_lt.2 hc)

/-- Settles O20: where the payload fits, the answer is the append of its bytes. -/
theorem storedPayloadIsCopiedToTheOutput : Obligations.StoredPayloadIsCopiedToTheOutput := by
  intro s
  refine ⟨fun hc => if_pos hc, fun hc => ⟨_, execPayloadS_of_fits hc, ?frame, ?bytes⟩⟩
  case frame => rw [blockDone, appendBytes_frame, inBytes_length]
  case bytes =>
    have hlen : s.blkEnd - s.blkStart = (inBytes s s.blkStart s.blkEnd).length := (inBytes_length s _ _).symm
    refine ⟨fun k hk => ?_, fun a ha => ?_, fun k hk hw => ?_, fun a ha => ?_⟩
    · exact (outByte_appendBytes _ s (hlen ▸ hk)).trans (inBytes_getElem ..)
    · exact outByte_appendBytes_of_outside _ s (hlen ▸ ha)
    · exact (winByte_appendBytes _ s (hlen ▸ hk) (hlen ▸ hw)).trans (inBytes_getElem ..)
    · exact winByte_appendBytes_of_outside _ s (hlen ▸ ha)

/-! ## The compressed payload -/

theorem execPayloadC_of_token (hs : s.bsub = .token) :
    execPayloadC s = exec (.token ((blockByte s).extractLsb' 4 4) ((blockByte s).extractLsb' 0 4)) s := by
  rw [execPayloadC, hs, exec]

theorem execPayloadC_of_litext (hs : s.bsub = .litext) : execPayloadC s = exec (.litext (blockByte s)) s := by
  rw [execPayloadC, hs, exec]

theorem execPayloadC_of_litcopy (hs : s.bsub = .litcopy) : execPayloadC s = exec .literals s := by
  rw [execPayloadC, hs, exec]

theorem execPayloadC_of_offset (hs : s.bsub = .offset) :
    execPayloadC s = exec (.offset (BitVec.ofNat 16 (elementField .block 2 s))) s := by
  rw [execPayloadC, hs, exec]

theorem execPayloadC_of_matchext (hs : s.bsub = .matchext) : execPayloadC s = exec (.mlext (blockByte s)) s := by
  rw [execPayloadC, hs, exec]

theorem execPayloadC_of_matchcopy (hs : s.bsub = .matchcopy) : execPayloadC s = exec .matchcopy s := by
  rw [execPayloadC, hs, exec]

/-- In a compressed block `payload.c` runs the element that the engine's fetch names (log 10). -/
theorem execPayloadC_of_blockSlot {k : Slot} (hk : blockSlot s.bsub = some k) (hs : s.bsub ≠ .stored) :
    execPayloadC s = exec (decodeField k (slotField k s)) s := by
  cases hb : s.bsub <;> rw [hb, blockSlot] at hk <;> cases hk
  case token => exact execPayloadC_of_token hb
  case litext => exact execPayloadC_of_litext hb
  case litcopy => exact execPayloadC_of_litcopy hb
  case offset => exact execPayloadC_of_offset hb
  case matchext => exact execPayloadC_of_matchext hb
  case matchcopy => exact execPayloadC_of_matchcopy hb
  case stored => exact absurd hb hs

/-- Settles O30: the step runs the element of the sub-state, and so does `payload.c`. -/
theorem compressedPayloadStepsByItsSubState : Obligations.CompressedPayloadStepsByItsSubState := by
  intro s he hf hn hs
  have hexp : expectedSlot s = blockSlot s.bsub := by rw [expectedSlot, hf]
  cases hk : blockSlot s.bsub with
  | none => exact absurd (bsub_of_expectedSlot_none (hexp.trans hk) hf) hn
  | some k =>
    rw [step_of_expectedSlot he (hexp.trans hk), ← slotField_takeTurn]
    exact (execPayloadC_of_blockSlot (s := takeTurn s) hk hs).symm

/-- The two bytes at the block reader's cursor, little-endian. -/
theorem ofNat_elementField_two (h : s.bpos + 2 ≤ s.blkEnd) :
    BitVec.ofNat 16 (elementField .block 2 s) = inByte s (s.bpos + 1) ++ inByte s s.bpos := by
  rw [elementField, elementBytes_of_le (by rw [readerLeft_block]; omega)]
  exact ofNat_memRead_two s s.bpos

/-- Settles O31: `payload.c` is the element of its sub-state on the bytes at the cursor, and each element's rule is its
own statement (O23, O24, O26, O27). -/
theorem compressedPayloadRunsTheRuleOfItsSubState : Obligations.CompressedPayloadRunsTheRuleOfItsSubState := by
  intro s
  have hlitext (hs : s.bsub = .litext) (hlt : s.bpos < s.blkEnd) :
      exec .payloadC s = exec (.litext (inByte s s.bpos)) s := blockByte_of_lt hlt ▸ execPayloadC_of_litext hs
  have hmlext (hs : s.bsub = .matchext) (hlt : s.bpos < s.blkEnd) :
      exec .payloadC s = exec (.mlext (inByte s s.bpos)) s := blockByte_of_lt hlt ▸ execPayloadC_of_matchext hs
  obtain ⟨-, hlitOver, hlitAdd⟩ := literalExtensionIsAdded s (inByte s s.bpos)
  obtain ⟨-, hmlOver, hmlAdd⟩ := matchExtensionIsAdded s (inByte s s.bpos)
  refine ⟨fun hs he => ?tokenEnd, fun hs hlt => ?token, fun hs hlt hv => ?litAdd, fun hs he => ?litShort,
    fun hs hlt hv => ?litOver, execPayloadC_of_litcopy, fun hs h2 => ?offsetShort, fun hs h2 => ?offset,
    fun hs hlt hv => ?mlAdd, fun hs he => ?mlShort, fun hs hlt hv => ?mlOver, execPayloadC_of_matchcopy⟩
  case tokenEnd => exact (execPayloadC_of_token hs).trans (if_pos ((readerFinished_block s).2 he))
  case token =>
    obtain ⟨-, htoken⟩ :=
      tokenIsParsedOrTheBlockEnds s ((inByte s s.bpos).extractLsb' 4 4) ((inByte s s.bpos).extractLsb' 0 4)
    rw [← htoken hlt, ← blockByte_of_lt hlt]
    exact execPayloadC_of_token hs
  case litAdd => exact (hlitext hs hlt).trans (hlitAdd hlt hv)
  case litShort => exact (execPayloadC_of_litext hs).trans (consume_block_of_exhausted he)
  case litOver => exact (hlitext hs hlt).trans (hlitOver hlt hv)
  case offsetShort => exact (execPayloadC_of_offset hs).trans (consume_block_of_short h2)
  case offset => exact ofNat_elementField_two h2 ▸ execPayloadC_of_offset hs
  case mlAdd => exact (hmlext hs hlt).trans (hmlAdd hlt hv)
  case mlShort => exact (execPayloadC_of_matchext hs).trans (consume_block_of_exhausted he)
  case mlOver => exact (hmlext hs hlt).trans (hmlOver hlt hv)

/-! ## The trailer -/

theorem step_of_endFrame (he : isEngineTurn s = true) (hf : s.fsm = .endFrame) : step s = execEnd (takeTurn s) := by
  have hk : expectedSlot (takeTurn s) = none := by rw [expectedSlot_takeTurn, expectedSlot, hf]
  rw [step_of_engine he, engineStep, hk]
  exact if_pos hf

/-- Settles O21: END's check fails exactly where the size is announced and differs. -/
theorem endChecksTheContentSize : Obligations.EndChecksTheContentSize := by
  intro s he hf
  rw [step_of_endFrame he hf]
  refine ⟨fun hp hne => if_pos ?mismatch, fun h => if_neg ?agrees⟩
  case mismatch => simp [contentSizePresent, hp, hne]
  case agrees =>
    intro hcheck
    obtain ⟨hp, hne⟩ := Bool.and_eq_true_iff.1 hcheck
    obtain hz | heq := h
    · exact absurd (hp.symm.trans hz) (by decide)
    · exact of_decide_eq_true hne heq

/-- Settles O22: the pre-flight comes first, then the comparison; nothing is asked of the hash. -/
theorem contentChecksumIsComparedWithTheOutput : Obligations.ContentChecksumIsComparedWithTheOutput := by
  intro s c
  have hl : s.pos + 4 ≤ s.inLen → ¬ readerLeft .frame s < 4 := fun h4 => by rw [readerLeft_frame]; omega
  refine ⟨fun hs => if_pos hs, fun h4 hc => ?good, fun h4 hc => ⟨?bad, rfl⟩⟩
  case good => exact (if_neg (hl h4)).trans (if_pos hc)
  case bad => exact (if_neg (hl h4)).trans (if_neg hc)

end Sys2Proof.Proofs
end

section
/-! PROOFS. 44_host_interface.md R250 to R258 with 20_memory.md R60, R66, R67: the host's commands one by one. Each
equation is one branch of the command's meaning, BUSY or not, or inside its space. -/

namespace Sys2Proof.Proofs

open Sys2Proof.Machine Sys2Proof.Laws

variable {s : State} {i : Nat} {v : Word}

/-! ## A run under the host's commands -/

/-- Settles O58: while BUSY a host turn short of a reset leaves everything but the host port (`step_host_busy`). -/
theorem onlyResetCancelsARun : Obligations.OnlyResetCancelsARun :=
  fun _ _ hb he hr hst => step_host_busy he hb hr hst

/-! ## START, CTRL and IN_LEN -/

theorem execStart_of_busy (hb : busy s = true) : execStart v s = .next (writeIrqEn v s) := if_pos hb

/-- START when not BUSY clears the run, then checks the prelude. -/
theorem execStart_of_not_busy (hb : busy s = false) :
    execStart v s = preludeCheck (clearRun (writeIrqEn v s)) := if_neg (ne_true_of_eq_false hb)

theorem preludeCheck_of_short (hl : s.inLen < 11) : preludeCheck s = .next (errorEntry .truncPrelude s) := if_pos hl

theorem preludeCheck_of_present (hl : 11 ≤ s.inLen) : preludeCheck s = .next { s with fsm := .expectMagic } :=
  if_neg (Nat.not_lt.2 hl)

/-- Settles O32: clearing the run leaves `in_len`, which the prelude check then compares with 11. -/
theorem startBeginsARun : Obligations.StartBeginsARun := by
  intro s v hb
  refine ⟨fun hl => ?present, fun hl => ?short⟩
  case present => exact (execStart_of_not_busy hb).trans (preludeCheck_of_present hl)
  case short => exact (execStart_of_not_busy hb).trans (preludeCheck_of_short hl)

/-- The prelude check answers a next state, and leaves IRQ_EN. -/
theorem preludeCheck_irqEn (s : State) : ∃ t, preludeCheck s = .next t ∧ t.irqEn = s.irqEn := by
  obtain hl | hl := Nat.lt_or_ge s.inLen 11
  · exact ⟨_, preludeCheck_of_short hl, rfl⟩
  · exact ⟨_, preludeCheck_of_present hl, rfl⟩

/-- START writes IRQ_EN in every state, and nothing after that changes it. -/
theorem execStart_irqEn (v : Word) (s : State) : ∃ t, execStart v s = .next t ∧ t.irqEn = v.getLsbD 1 := by
  cases hb : busy s with
  | true => exact ⟨_, execStart_of_busy hb, rfl⟩
  | false =>
    rw [execStart_of_not_busy hb]
    exact preludeCheck_irqEn (clearRun (writeIrqEn v s))

/-- Settles O33: both CTRL writes are `writeIrqEn`, followed by the prelude check at a START when not BUSY. -/
theorem ctrlWriteSetsTheInterruptEnable : Obligations.CtrlWriteSetsTheInterruptEnable :=
  fun s v => ⟨rfl, execStart_irqEn v s, execStart_of_busy⟩

/-- Settles O34: the two branches of the command. -/
theorem inLenWriteClampsToTheCapacity : Obligations.InLenWriteClampsToTheCapacity :=
  fun _ _ => ⟨fun hb => if_neg (ne_true_of_eq_false hb), fun hb => if_pos hb⟩

/-! ## Bytes of IN -/

theorem execInW_of_busy {b : Byte} (hi : i < s.cfg.inCap) (hb : busy s = true) : execInW i b s = .next s :=
  (if_neg (Nat.not_le.2 hi)).trans (if_pos hb)

theorem execInW_of_not_busy {b : Byte} (hi : i < s.cfg.inCap) (hb : busy s = false) :
    execInW i b s = .next { s with inMem := memSet s.inMem i b } :=
  (if_neg (Nat.not_le.2 hi)).trans (if_neg (ne_true_of_eq_false hb))

/-- IN after a write of one byte. -/
theorem inByte_memSet (s : State) (i a : Nat) (b : Byte) :
    inByte { s with inMem := memSet s.inMem i b } a = if a = i then b else inByte s a := by
  rw [inByte, memGet_memSet]
  split <;> rfl

/-- Settles O35: the index lies in IN, and a write to a memory changes that byte alone. -/
theorem inputWriteChangesOneByte : Obligations.InputWriteChangesOneByte := by
  intro s i b hi
  refine ⟨execInW_of_busy hi, fun hb => ⟨_, execInW_of_not_busy hi hb, rfl, ?same, fun a ha => ?other⟩⟩
  case same => rw [inByte_memSet, if_pos rfl]
  case other => rw [inByte_memSet, if_neg ha]

/-! ## Writes that are ignored -/

theorem execOutW_of_lt (b : Byte) (hi : i < s.cfg.outCap) : execOutW i b s = .next s := if_neg (Nat.not_le.2 hi)

/-- Every register but CTRL and IN_LEN ignores writes. -/
theorem ignoresWrites_of_ne {r : Reg} (hctrl : r ≠ .ctrl) (hlen : r ≠ .inLen) : r.ignoresWrites = true := by
  cases r with
  | ctrl => exact absurd rfl hctrl
  | inLen => exact absurd rfl hlen
  | _ => rfl

/-- Settles O36: both commands answer the state they find, and a register that ignores writes decodes to the second. -/
theorem ignoredWritesChangeNothing : Obligations.IgnoredWritesChangeNothing :=
  fun _ v => ⟨fun _ b hi => execOutW_of_lt b hi, fun _ hctrl hlen =>
    ⟨rfl, decodeRegWrite_of_ignoresWrites (ignoresWrites_of_ne hctrl hlen) v⟩⟩

/-! ## Reads -/

/-- Settles O37: the command's meaning has one branch. -/
theorem registerReadReturnsTheRegister : Obligations.RegisterReadReturnsTheRegister := fun _ _ => rfl

/-- A read of OUT finds a byte of the last run. -/
theorem execOutR_of_produced (hi : i < s.cfg.outCap) (hb : busy s = false) (ho : i < s.outLen) :
    execOutR i s = .next { s with hostData := (outByte s i).setWidth 64 } :=
  (if_neg (Nat.not_le.2 hi)).trans (if_neg (by simp [hb, ho]))

/-- A read of OUT finds no such byte, and draws a free one (20_memory.md R66). -/
theorem execOutR_of_free (hi : i < s.cfg.outCap) (h : busy s = true ∨ s.outLen ≤ i) :
    execOutR i s = .next { s with hostData := (Config.drawByte s.draws).setWidth 64, draws := s.draws + 1 } :=
  (if_neg (Nat.not_le.2 hi)).trans (if_pos (by simpa using h))

theorem hostReadIn_of_lt (hi : i < s.cfg.inCap) :
    hostReadIn i s = .next { s with hostData := (inByte s i).setWidth 64 } := if_neg (Nat.not_le.2 hi)

/-- A byte read at an index of IN is a read of IN. -/
theorem decodeAccess_readInput {p : Params} (hok : p.Ok) (hi : i < p.inCap) :
    decodeAccess p (.read (p.inBase + i) 1) = .ok (.inputRead i) := by
  simp [decodeAccess, resolve_input hok hi]

/-- The host's turn with a byte read of IN. -/
theorem step_of_readInput (rest : List Turn) (hok : s.cfg.Ok) (hi : i < s.cfg.inCap) :
    step { s with agenda := .host (.read (s.cfg.inBase + i) 1) :: rest } = hostReadIn i { s with agenda := rest } :=
  (step_of_host rfl).trans (hostStep_of_inputRead (decodeAccess_readInput hok hi))

/-- Settles O39: a read of OUT asks whether the run has produced the byte; a read of IN returns what is there. -/
theorem memoryReadsReturnTheByte : Obligations.MemoryReadsReturnTheByte := by
  refine ⟨fun s i hi => ⟨execOutR_of_produced hi, execOutR_of_free hi⟩, fun s rest i hok hi => ?input⟩
  case input => exact (step_of_readInput rest hok hi).trans (hostReadIn_of_lt hi)

end Sys2Proof.Proofs
end

section
/-! PROOFS. 60_exceptions.md R272 to R289: error entry writes the record alone, a step that raises has written nothing
but capture registers, a quiescent state is left by START and reset only, TRUNC_READ is never raised, and the engine's
turn leads from sound states to sound states. -/

namespace Sys2Proof.Proofs

open Sys2Proof.Machine Sys2Proof.Laws

variable {s t : State}

/-! ## Error entry -/

/-- Settles O41: `raise` answers `errorEntry`, whose position is looked up cause by cause. -/
theorem errorEntryWritesOnlyTheRecord : Obligations.ErrorEntryWritesOnlyTheRecord := by
  intro s c
  cases c <;> rfl

/-- Settles O43: of the engine's outcomes only error entry leads into ERROR, and before it nothing but a capture register
is written. -/
theorem errorsArePrecise : Obligations.ErrorsArePrecise := by
  intro s t he hf hst ht
  obtain ⟨-, o⟩ | ⟨he', -⟩ := step_outcome hst
  · cases o with
    | rest _ e => subst e; exact absurd ht hf
    | error c _ flg bd csize e => rw [e]; rfl
    | move m =>
      obtain ⟨-, hne, -⟩ := m.record
      exact absurd ht hne
  · exact absurd (he.symm.trans he') (by decide)

/-! ## Quiescent states -/

/-- Settles O44: not BUSY, the engine rests (`step_of_not_busy`); a host turn short of START and reset writes only what
is the host's (`step_host_frame`). -/
theorem onlyStartAndResetLeaveAQuiescentState : Obligations.OnlyStartAndResetLeaveAQuiescentState := by
  intro s t hb hst
  have hrest : isEngineTurn s = true → t = takeTurn s := fun he => next_eq ((step_of_not_busy he hb).symm.trans hst)
  refine ⟨hrest, ?_⟩
  by_cases hs : ∃ v, fetch s = .instr (.start v)
  · exact .inr (.inl hs)
  by_cases hr : fetch s = .instr .reset
  · exact .inr (.inr hr)
  left
  cases he : isEngineTurn s with
  | true => rw [hrest he]; exact ⟨rfl, rfl, rfl, rfl, rfl, rfl, rfl⟩
  | false =>
    rw [step_host_frame he (not_exists.1 hs) hr hst]
    exact ⟨rfl, rfl, rfl, rfl, rfl, rfl, rfl⟩

/-! ## TRUNC_READ -/

/-- The bytes of the next element that earlier checks have reserved in the frame (R286). The elements that have a check
of their own, under another cause, and those that read no byte of the frame need none. -/
def reservedBytes : Fsm → Nat
  | .expectMagic => 4
  | .expectFlg => 1
  | .expectBd => 1
  | .expectHc => 1
  | .expectBlockmark => 4
  | .expectBlockchk => 4
  | _ => 0

theorem reservedBytes_le {f : Fsm} (h : RunBounds s) (hf : s.fsm = f) : reservedBytes f ≤ s.inLen - s.pos := by
  obtain ⟨-, -, -, -, -, -, -, hrun⟩ := h
  cases f <;> simp only [hf] at hrun <;> simp only [reservedBytes] <;> omega

/-- The answer, if it is a state, is one whose cause is not TRUNC_READ. -/
def AvoidsTruncRead (r : Result) : Prop := ∀ t, r = .next t → t.errCause ≠ .truncRead

theorem errCause_of_answer {r : Result} (h : r = .next t) (ha : AvoidsTruncRead r) : t.errCause ≠ .truncRead :=
  ha t h

theorem AvoidsTruncRead.of_next (h : s.errCause ≠ .truncRead) : AvoidsTruncRead (.next s) :=
  fun _ e => next_eq e ▸ h

theorem AvoidsTruncRead.of_raise {c : Cause} (hc : c ≠ .truncRead := by decide) : AvoidsTruncRead (raise c s) :=
  .of_next hc

theorem AvoidsTruncRead.ite {p : Prop} [Decidable p] {a b : Result} (ha : AvoidsTruncRead a) (hb : AvoidsTruncRead b) :
    AvoidsTruncRead (if p then a else b) :=
  iteInduction (fun _ => ha) (fun _ => hb)

/-- The frame reader raises TRUNC_READ only where the element's bytes are missing. -/
theorem AvoidsTruncRead.consumeFrame {n : Nat} {k : State → Result} (hl : n ≤ s.inLen - s.pos)
    (hk : AvoidsTruncRead (k (readerAdvance .frame n s))) : AvoidsTruncRead (consume .frame n s k) :=
  consume_of_le (r := .frame) hl ▸ hk

/-- The block reader has a cause of its own. -/
theorem AvoidsTruncRead.consumeBlock {n : Nat} {k : State → Result}
    (hk : AvoidsTruncRead (k (readerAdvance .block n s))) : AvoidsTruncRead (consume .block n s k) := by
  by_cases hl : readerLeft .block s < n
  · exact consume_of_lt hl ▸ .of_raise
  · exact consume_of_le (Nat.not_lt.1 hl) ▸ hk

@[simp] theorem enterBlock_errCause (s : State) : (enterBlock s).errCause = s.errCause := by
  unfold enterBlock
  split <;> rfl

/-- On the engine's turn the bytes of a frame element without a check of its own are there, and every check that a
meaning makes itself raises another cause. -/
theorem errCause_ne_truncRead_engine (hb : RunBounds s) (hc : s.errCause ≠ .truncRead) (e : EngineEffect s t) :
    t.errCause ≠ .truncRead := by
  cases e with
  | rest _ h => exact h ▸ hc
  | magic hf m h => exact errCause_of_answer h (.consumeFrame (reservedBytes_le hb hf) (.ite (.of_next hc) .of_raise))
  | flg hf b h =>
    exact errCause_of_answer h (.consumeFrame (reservedBytes_le hb hf) (.ite .of_raise (.ite .of_raise (.of_next hc))))
  | bd hf b h => exact errCause_of_answer h (.consumeFrame (reservedBytes_le hb hf) (.ite .of_raise (.of_next hc)))
  | csize hf v h => exact errCause_of_answer h (.ite .of_raise (.ite .of_raise (.of_next hc)))
  | dictid hf id h => exact errCause_of_answer h .of_raise
  | hc hf c h => exact errCause_of_answer h (.consumeFrame (reservedBytes_le hb hf) (.ite (.of_next hc) .of_raise))
  | endmark hf h => exact errCause_of_answer h (.consumeFrame (reservedBytes_le hb hf) (.of_next hc))
  | mark hf stored n h =>
    exact errCause_of_answer h (.consumeFrame (reservedBytes_le hb hf) (.ite .of_raise (.of_next (by simpa using hc))))
  | bchk hf c h => exact errCause_of_answer h (.consumeFrame (reservedBytes_le hb hf) (.ite (.of_next hc) .of_raise))
  | payloadS hf hs h => exact errCause_of_answer h (.ite .of_raise (.of_next (by simpa using hc)))
  | endCheck hf h => exact errCause_of_answer h (.ite .of_raise (.of_next hc))
  | cchk hf c h => exact errCause_of_answer h (.ite .of_raise (.ite (.of_next hc) .of_raise))
  | token hf hs lit mlb h => exact errCause_of_answer h (.ite (.of_next hc) (.consumeBlock (.of_next hc)))
  | litext hf hs b h => exact errCause_of_answer h (.consumeBlock (.ite .of_raise (.of_next hc)))
  | literals hf hs h =>
    exact errCause_of_answer h (.ite .of_raise
      (.ite .of_raise (.ite (.of_next (by simpa using hc)) (.of_next (by simpa using hc)))))
  | offset hf hs o h => exact errCause_of_answer h (.consumeBlock (.ite .of_raise (.ite .of_raise (.of_next hc))))
  | mlext hf hs b h => exact errCause_of_answer h (.consumeBlock (.ite .of_raise (.of_next hc)))
  | matchcopy hf hs h =>
    exact errCause_of_answer h (.ite .of_raise (.of_next (by simpa [copyMatch_eq_appendBytes] using hc)))

/-- START raises TRUNC_PRELUDE or clears the record, as reset does; no other command touches it. -/
theorem errCause_ne_truncRead_host (hc : s.errCause ≠ .truncRead) (e : HostEffect s t) : t.errCause ≠ .truncRead := by
  cases e with
  | start v _ _ e => subst e; exact nofun
  | startShort v _ _ e => subst e; exact nofun
  | reset e => rw [next_eq e]; exact nofun
  | nothing e => exact e ▸ hc
  | irqEn v e => subst e; exact hc
  | inLen v _ e => subst e; exact hc
  | inByte i b _ _ e => subst e; exact hc
  | read e => rw [e]; exact hc

/-- Settles O54: the bounds say that each element read without a check of its own lies in the frame. -/
theorem truncReadIsNeverRaised : Obligations.TruncReadIsNeverRaised := by
  intro s t _ h hc hst
  obtain ⟨-, e⟩ | ⟨-, e⟩ := step_effect hst
  · exact errCause_ne_truncRead_engine (s := takeTurn s) h hc e
  · exact errCause_ne_truncRead_host (s := takeTurn s) hc e

/-! ## Sound states -/

/-- No step writes the parameters (log 2). -/
theorem EngineOutcome.cfg (o : EngineOutcome s t) : t.cfg = s.cfg := by
  cases o with
  | rest _ e => rw [e]
  | error _ _ _ _ _ e => rw [e]; rfl
  | move m => cases m <;> subst t <;> simp

theorem hostEffect_cfg (e : HostEffect s t) : t.cfg = s.cfg := by
  cases e with
  | reset e => rw [next_eq e]; rfl
  | read e => rw [e]
  | _ => subst t; rfl

theorem step_cfg (hst : step s = .next t) : t.cfg = s.cfg := by
  obtain ⟨-, o⟩ | ⟨-, e⟩ := step_outcome hst
  · exact EngineOutcome.cfg (s := takeTurn s) o
  · exact hostEffect_cfg (s := takeTurn s) e

/-- Every step, the engine's or the host's, keeps a state sound: each part is an invariant of its own. -/
theorem sound_step (h : Sound s) (hst : step s = .next t) : Sound t where
  cfg := step_cfg hst ▸ h.cfg
  memory := stepKeepsMemoryCanonical s t h.memory hst
  control := stepKeepsControlConsistent s t h.control hst
  header := stepKeepsHeaderChecked s t h.header hst
  bounds := stepKeepsRunBounds s t h.cfg h.bounds hst
  window := stepKeepsWindowMirror s t h.window hst

/-- The engine's turn answers wherever `bsub` and the FSM state are consistent. -/
theorem step_completes (hc : ControlConsistent s) (he : isEngineTurn s = true) : Completes (step s) := by
  obtain ⟨hb, -⟩ := hc
  rw [step_of_engine he]
  exact engineStep_completes fun hf hn => hb.1 hn hf

/-- Settles O55: progress is `step_completes`, preservation `sound_step`. -/
theorem engineTurnAlwaysCompletes : Obligations.EngineTurnAlwaysCompletes := by
  intro s hs he
  obtain ⟨t, hst⟩ := step_completes hs.control he
  exact ⟨t, hst, sound_step hs hst⟩

end Sys2Proof.Proofs
end

section
/-! PROOFS. 70_reset_and_hazards.md R300, R301 and R303: what reset leaves in every field, register and memory byte, and
that a state after reset is sound. -/

namespace Sys2Proof.Proofs

open Sys2Proof.Machine Sys2Proof.Laws

/-! ## The reset command -/

/-- Where reset leads from `s`: the instance and the host side of the model stay, and the memories' free contents are
renamed (log 4, log 17). -/
def afterReset (s : State) : State :=
  { State.resetWith s.cfg with
    epoch := s.epoch + 1, draws := s.draws, hostData := s.hostData, agenda := s.agenda }

theorem exec_reset (s : State) : exec .reset s = .next (afterReset s) := rfl

theorem statusFlags_afterReset (s : State) :
    busy (afterReset s) = false ∧ isDone (afterReset s) = false ∧ isError (afterReset s) = false ∧
      resultValid (afterReset s) = false ∧ irq (afterReset s) = false :=
  ⟨rfl, rfl, rfl, rfl, rfl⟩

theorem statusValue_afterReset (s : State) : statusValue (afterReset s) = 0 := by
  obtain ⟨hbusy, hdone, herror, hvalid, hirq⟩ := statusFlags_afterReset s
  rw [statusValue, hbusy, hdone, herror, hvalid, hirq]
  rfl

theorem regValue_afterReset (r : Reg) (s : State) : regValue r (afterReset s) = 0 := by
  cases r with
  | status => exact congrArg (BitVec.ofNat 64) (statusValue_afterReset s)
  | _ => rfl

/-- No byte of a memory is listed after reset, so each is the free value of the new reset (R301). -/
theorem bytes_afterReset (s : State) (i : Nat) :
    inByte (afterReset s) i = Config.resetByte .input (s.epoch + 1) i ∧
      outByte (afterReset s) i = Config.resetByte .output (s.epoch + 1) i ∧
      winByte (afterReset s) i = Config.resetByte .window (s.epoch + 1) i :=
  ⟨rfl, rfl, rfl⟩

/-- Settles O40: the 23 fields hold what `afterReset` sets, the flags and registers follow from them, and the memories
list no byte. -/
theorem resetGivesEveryFieldItsResetValue : Obligations.ResetGivesEveryFieldItsResetValue := by
  intro s
  obtain ⟨hbusy, hdone, herror, hvalid, hirq⟩ := statusFlags_afterReset s
  exact ⟨afterReset s, exec_reset s,
    rfl, rfl, rfl, rfl, rfl, rfl, rfl, rfl, rfl, rfl, rfl, rfl, rfl, rfl, rfl, rfl, rfl, rfl, rfl, rfl, rfl, rfl, rfl,
    hbusy, hdone, herror, hvalid, hirq, fun r => regValue_afterReset r s, bytes_afterReset s⟩

/-! ## Soundness -/

theorem controlConsistent_resetWith (p : Params) : ControlConsistent (State.resetWith p) :=
  controlConsistent_of_clear nofun nofun rfl rfl rfl rfl

theorem inRange_resetWith (p : Params) : InRange (State.resetWith p) := by
  simp [InRange, State.resetWith]

/-- Settles O53: in IDLE, with every cursor 0, the memories unwritten and no output, each invariant holds of the cleared
state; the parameters are admissible by hypothesis. -/
theorem resetStateIsSound : Obligations.ResetStateIsSound := fun p hok => {
  cfg := hok
  memory := memoryCanonical_resetWith p
  control := controlConsistent_resetWith p
  header := trivial
  bounds := runBounds_of_not_busy rfl (inRange_resetWith p)
  window := windowMirrors_of_no_output rfl }

end Sys2Proof.Proofs
end
